-- ==== Sys2Proof/Word.lean ====
section
/-! DEFINITION. The word types of the pyo-sub003 DSP core. Every quantity that crosses the host port
travels as one 32-bit word (20_memory.md R63, R69). -/

namespace Sys2Proof

/-- A command word, an operand word, a control register (30_encoding.md R90, 10_state.md R26). -/
abbrev Word := BitVec 32

/-- One of the four 8-bit fields of a header word (30_encoding.md R91); a unit number, a slot number. -/
abbrev Byte := BitVec 8

/-- A Sample: the bit pattern of one IEEE 754 binary32 value (00_scope.md R6, decision D2).
`bitsOf` and `sampleOf` of R6 are the identity on this type. -/
abbrev Sample := BitVec 32

/-- A buffer-space address, also called a handle (20_memory.md R60). -/
abbrev Addr := BitVec 32

/-- The handle `NULL`, the all-zero word (20_memory.md R60). -/
def nullAddr : Addr := 0#32

end Sys2Proof
end

