-- ==== Sys2Proof/Syntax.lean ====
section
/-! DEFINITION. Packets and the command set: one constructor of `Instr` per row of the opcode table
(30_encoding.md R96). Fields keep the raw value of the encoding; the clamps of the command rules are
applied by the meanings, never here. -/

namespace Sys2Proof

/-- A command packet: one header word and zero or more operand words (30_encoding.md R90). An empty
packet is no packet (R95), so the header is always there. -/
structure Packet where
  header : Word
  operands : List Word
deriving DecidableEq, Repr

/-- An operand of kind `X` (30_encoding.md R92, R93): its mode-mask bit decides whether the word is a
Sample or a handle. -/
inductive XOp where
  /-- mask bit 0: kind `F`, the slot starts in mode CONST -/
  | const (c : Sample)
  /-- mask bit 1: kind `A`, the slot starts in mode STREAM -/
  | stream (h : Addr)
deriving DecidableEq, Repr

/-- The direction of a RESAMPLE unit (30_encoding.md R104). -/
inductive Dir where
  | up
  | down
deriving DecidableEq, Repr, Inhabited

/-- The commands of 30_encoding.md R96, in the order of the table. `u` is the `unit` field. -/
inductive Instr where
  /-- R130 -/
  | nop
  /-- R131 -/
  | del (u : Byte)
  /-- R132 -/
  | setc (u slot : Byte) (value : Sample)
  /-- R133 -/
  | sets (u slot : Byte) (handle : Addr)
  /-- R135 -/
  | compute (u : Byte)
  /-- R137 -/
  | reset (u : Byte)
  /-- R138 -/
  | getout (u : Byte)
  /-- R139 -/
  | rdcsr (csr : Byte)
  /-- R140 -/
  | ack (u : Byte)
  /-- R303 -/
  | mixadd (u : Byte) (key : Word) (handle : Addr)
  /-- R304 -/
  | mixdel (u : Byte) (key : Word)
  /-- R305 -/
  | mixamp (u vout : Byte) (key : Word) (gain : Sample)
  /-- R134 -/
  | seti (u slot : Byte) (value : Word)
  /-- R160 -/
  | newBsplit (u bands : Byte) (inp : Addr) (min max : Sample) (q : XOp)
  /-- R170 -/
  | newFourband (u : Byte) (inp : Addr) (freq1 freq2 freq3 : XOp)
  /-- R183 -/
  | newMultiband (u bands : Byte) (inp : Addr)
  /-- R203; `N` is the number of taps -/
  | newConvolve (u : Byte) (inp : Addr) (taps : List Sample)
  /-- R210 -/
  | newIrwinsinc (u type : Byte) (inp : Addr) (freq bw : XOp) (order : Word)
  /-- R222 -/
  | newIraverage (u : Byte) (inp : Addr) (order : Word)
  /-- R227 -/
  | newIrpulse (u type : Byte) (inp : Addr) (freq bw : XOp) (order : Word)
  /-- R233 -/
  | newIrfm (u : Byte) (inp : Addr) (carrier ratio index : XOp) (order : Word)
  /-- R250 -/
  | newFreeverb (u : Byte) (inp : Addr) (size damp mix : XOp)
  /-- R280 -/
  | newSig (u : Byte) (value : XOp)
  /-- R285 -/
  | newSigto (u : Byte) (value : XOp) (time init : Sample)
  /-- R295 -/
  | newVarport (u : Byte) (value time init : Sample)
  /-- R300 -/
  | newMixer (u outs : Byte) (time : Sample)
  /-- R310 -/
  | newScale (u : Byte) (inp : Addr) (inmin inmax outmin outmax : XOp) (exp : Sample)
  /-- R360, R104 -/
  | newResample (u : Byte) (dir : Dir) (factor : BitVec 7) (mode : Byte) (inp : Addr)
  /-- R332 -/
  | newPan (u chnls : Byte) (lin : Bool) (inp : Addr) (pan : XOp)
  /-- R340 -/
  | newSwitch (u chnls : Byte) (lin : Bool) (inp : Addr) (voice : XOp)
  /-- R345; `nin` is the `arg` field as given, the inputs number `max(nin, 2)` (R346) -/
  | newSelector (u nin : Byte) (lin : Bool) (voice : XOp) (inputs : List Addr)
  /-- R350, fn 0 -/
  | newDbtoa (u : Byte) (inp : Addr)
  /-- R350, fn 1 -/
  | newAtodb (u : Byte) (inp : Addr)
  /-- R350, fn 2 -/
  | newMtof (u : Byte) (inp : Addr)
  /-- R350, fn 3 -/
  | newFtom (u : Byte) (inp : Addr)
  /-- R350, fn 4 -/
  | newMtot (u : Byte) (inp : Addr) (centralkey : Sample)
  /-- R350, fn 5 -/
  | newCentstotranspo (u : Byte) (inp : Addr)
  /-- R350, fn 6 -/
  | newTranspotocents (u : Byte) (inp : Addr)
deriving DecidableEq, Repr

end Sys2Proof
end

