-- ==== Sys2Proof/WellFormed.lean ====
section
/-! DEFINITION. Which terms of `Instr` an encoding exists for. All other fields are exactly as wide as
their encoding, so only the two variable-length commands need a check. -/

namespace Sys2Proof

/-- `W2` of NEW.CONVOLVE holds the number of taps in 32 bits (30_encoding.md R94, R96). -/
def tapsFit (taps : List Sample) : Bool := decide (taps.length < 2 ^ 32)

/-- NEW.SELECTOR carries `max(arg, 2)` input handles (45_spatial_convert_resample.md R346). -/
def selectorInputs (nin : Byte) : Nat := max nin.toNat 2

/-- The instruction is one that some packet encodes. -/
def Instr.wellFormed : Instr → Bool
  | .newConvolve _ _ taps => tapsFit taps
  | .newSelector _ nin _ _ inputs => inputs.length == selectorInputs nin
  | .nop | .del _ | .setc _ _ _ | .sets _ _ _ | .compute _ | .reset _ | .getout _ | .rdcsr _
  | .ack _ | .mixadd _ _ _ | .mixdel _ _ | .mixamp _ _ _ _ | .seti _ _ _
  | .newBsplit _ _ _ _ _ _ | .newFourband _ _ _ _ _ | .newMultiband _ _ _
  | .newIrwinsinc _ _ _ _ _ _ | .newIraverage _ _ _ | .newIrpulse _ _ _ _ _ _
  | .newIrfm _ _ _ _ _ _ | .newFreeverb _ _ _ _ _ | .newSig _ _ | .newSigto _ _ _ _
  | .newVarport _ _ _ _ | .newMixer _ _ _ | .newScale _ _ _ _ _ _ _
  | .newResample _ _ _ _ _ | .newPan _ _ _ _ _ | .newSwitch _ _ _ _ _
  | .newDbtoa _ _ | .newAtodb _ _ | .newMtof _ _ | .newFtom _ _ | .newMtot _ _ _
  | .newCentstotranspo _ _ | .newTranspotocents _ _ => true

end Sys2Proof
end

