-- ==== Sys2Proof/Decode.lean ====
section
/-! DEFINITION. Decoding and encoding of command packets (30_encoding.md R90 to R99, R104), and the
packet that a word of the opcode table stands for. -/

namespace Sys2Proof

/-! ### The header word (R91) -/

/-- Header bits 31:24. -/
def opOf (h : Word) : Byte := h.extractLsb' 24 8
/-- Header bits 23:16. -/
def unitOf (h : Word) : Byte := h.extractLsb' 16 8
/-- Header bits 15:8. -/
def selOf (h : Word) : Byte := h.extractLsb' 8 8
/-- Header bits 7:0. -/
def argOf (h : Word) : Byte := h.extractLsb' 0 8

/-- The header word with the four given fields. -/
def mkHeader (op unit sel arg : Byte) : Word := op ++ unit ++ sel ++ arg

/-! ### Decoding -/

/-- What a packet decodes to: exactly one of the three (R95). -/
inductive Decoded where
  | command (i : Instr)
  /-- `E_BADOP`: unknown opcode or a reserved header bit set (R95 steps 1, 2; R99) -/
  | badOp
  /-- `E_BADLEN`: wrong number of operand words (R95 step 3) -/
  | badLen
deriving DecidableEq, Repr

/-- The header bits, opcode byte apart, that must be zero for an opcode: the `mask` column of R96 (for
opcode 0x22 without the `arg` byte, which R95 step 1 bounds). `none` when the opcode is in no row. -/
def reservedBits (op : Nat) : Option Word :=
  match op with
  | 0x00 => some 0x00FFFFFF#32
  | 0x01 => some 0x0000FFFF#32
  | 0x02 => some 0x000000FF#32
  | 0x03 => some 0x000000FF#32
  | 0x04 => some 0x0000FFFF#32
  | 0x05 => some 0x0000FFFF#32
  | 0x06 => some 0x0000FFFF#32
  | 0x07 => some 0x00FF00FF#32
  | 0x08 => some 0x0000FFFF#32
  | 0x09 => some 0x0000FFFF#32
  | 0x0A => some 0x0000FFFF#32
  | 0x0B => some 0x0000FF00#32
  | 0x0C => some 0x000000FF#32
  | 0x10 => some 0x0000FE00#32
  | 0x11 => some 0x0000F8FF#32
  | 0x12 => some 0x0000FF00#32
  | 0x13 => some 0x0000FFFF#32
  | 0x14 => some 0x0000FC00#32
  | 0x15 => some 0x0000FFFF#32
  | 0x16 => some 0x0000FC00#32
  | 0x17 => some 0x0000F8FF#32
  | 0x18 => some 0x0000F8FF#32
  | 0x19 => some 0x0000FEFF#32
  | 0x1A => some 0x0000FEFF#32
  | 0x1B => some 0x0000FFFF#32
  | 0x1C => some 0x0000FF00#32
  | 0x1D => some 0x0000F0FF#32
  | 0x1E => some 0x00000000#32
  | 0x1F => some 0x00007E00#32
  | 0x20 => some 0x00007E00#32
  | 0x21 => some 0x00007E00#32
  | 0x22 => some 0x0000FF00#32
  | _ => none

/-- `Len(h, w)`, the number of operand words the packet must have (R94). `none` when the packet is too
short to tell: a NEW.CONVOLVE without `W2`. -/
def operandCount (h : Word) (ws : List Word) : Option Nat :=
  match (opOf h).toNat with
  | 0x02 | 0x03 | 0x0A | 0x0C | 0x12 | 0x19 | 0x1C | 0x1E => some 1
  | 0x09 | 0x0B | 0x15 | 0x1F | 0x20 => some 2
  | 0x1A | 0x1B => some 3
  | 0x10 | 0x11 | 0x14 | 0x16 | 0x18 => some 4
  | 0x17 => some 5
  | 0x1D => some 6
  | 0x13 => match ws with
    | _ :: n :: _ => some (2 + n.toNat)
    | _ => none
  | 0x21 => some (1 + selectorInputs (argOf h))
  | 0x22 => some (if argOf h = 4#8 then 2 else 1)
  | _ => some 0

/-- The `X` operand of class-`P` slot `s`: `sel[s]` tells its kind (R93). -/
def xopOf (sel : Byte) (s : Nat) (w : Word) : XOp :=
  if sel.getLsbD s then .stream w else .const w

/-- R104: `sel[7]` is `dir`, 0 for UP. -/
def dirOf (sel : Byte) : Dir := if sel.getLsbD 7 then .down else .up

/-! The command of a list of exactly so many operand words; `none` on any other number. -/

/-- No operand word. -/
def words0 (i : Instr) : List Word → Option Instr
  | [] => some i
  | _ :: _ => none
/-- One operand word. -/
def words1 (k : Word → Instr) : List Word → Option Instr
  | [w1] => some (k w1)
  | _ => none
/-- Two operand words. -/
def words2 (k : Word → Word → Instr) : List Word → Option Instr
  | [w1, w2] => some (k w1 w2)
  | _ => none
/-- Three operand words. -/
def words3 (k : Word → Word → Word → Instr) : List Word → Option Instr
  | [w1, w2, w3] => some (k w1 w2 w3)
  | _ => none
/-- Four operand words. -/
def words4 (k : Word → Word → Word → Word → Instr) : List Word → Option Instr
  | [w1, w2, w3, w4] => some (k w1 w2 w3 w4)
  | _ => none
/-- Five operand words. -/
def words5 (k : Word → Word → Word → Word → Word → Instr) : List Word → Option Instr
  | [w1, w2, w3, w4, w5] => some (k w1 w2 w3 w4 w5)
  | _ => none
/-- Six operand words. -/
def words6 (k : Word → Word → Word → Word → Word → Word → Instr) : List Word → Option Instr
  | [w1, w2, w3, w4, w5, w6] => some (k w1 w2 w3 w4 w5 w6)
  | _ => none
/-- One operand word and then any number. -/
def wordsFrom1 (k : Word → List Word → Instr) : List Word → Option Instr
  | w1 :: ws => some (k w1 ws)
  | [] => none
/-- Two operand words and then any number. -/
def wordsFrom2 (k : Word → Word → List Word → Instr) : List Word → Option Instr
  | w1 :: w2 :: ws => some (k w1 w2 ws)
  | _ => none

/-- The command of a packet whose header is legal and whose length is right (R96): header fields first,
then the operand words in order. `none` on a length no row has. -/
def assemble (h : Word) (ws : List Word) : Option Instr :=
  let u := unitOf h
  let sel := selOf h
  let arg := argOf h
  match (opOf h).toNat with
  | 0x00 => words0 .nop ws
  | 0x01 => words0 (.del u) ws
  | 0x02 => words1 (fun w1 => .setc u sel w1) ws
  | 0x03 => words1 (fun w1 => .sets u sel w1) ws
  | 0x04 => words0 (.compute u) ws
  | 0x05 => words0 (.reset u) ws
  | 0x06 => words0 (.getout u) ws
  | 0x07 => words0 (.rdcsr sel) ws
  | 0x08 => words0 (.ack u) ws
  | 0x09 => words2 (fun w1 w2 => .mixadd u w1 w2) ws
  | 0x0A => words1 (fun w1 => .mixdel u w1) ws
  | 0x0B => words2 (fun w1 w2 => .mixamp u arg w1 w2) ws
  | 0x0C => words1 (fun w1 => .seti u sel w1) ws
  | 0x10 => words4 (fun w1 w2 w3 w4 => .newBsplit u arg w1 w2 w3 (xopOf sel 0 w4)) ws
  | 0x11 => words4 (fun w1 w2 w3 w4 =>
      .newFourband u w1 (xopOf sel 0 w2) (xopOf sel 1 w3) (xopOf sel 2 w4)) ws
  | 0x12 => words1 (fun w1 => .newMultiband u arg w1) ws
  | 0x13 => wordsFrom2 (fun w1 _ taps => .newConvolve u w1 taps) ws
  | 0x14 => words4 (fun w1 w2 w3 w4 =>
      .newIrwinsinc u arg w1 (xopOf sel 0 w2) (xopOf sel 1 w3) w4) ws
  | 0x15 => words2 (fun w1 w2 => .newIraverage u w1 w2) ws
  | 0x16 => words4 (fun w1 w2 w3 w4 =>
      .newIrpulse u arg w1 (xopOf sel 0 w2) (xopOf sel 1 w3) w4) ws
  | 0x17 => words5 (fun w1 w2 w3 w4 w5 =>
      .newIrfm u w1 (xopOf sel 0 w2) (xopOf sel 1 w3) (xopOf sel 2 w4) w5) ws
  | 0x18 => words4 (fun w1 w2 w3 w4 =>
      .newFreeverb u w1 (xopOf sel 0 w2) (xopOf sel 1 w3) (xopOf sel 2 w4)) ws
  | 0x19 => words1 (fun w1 => .newSig u (xopOf sel 0 w1)) ws
  | 0x1A => words3 (fun w1 w2 w3 => .newSigto u (xopOf sel 0 w1) w2 w3) ws
  | 0x1B => words3 (fun w1 w2 w3 => .newVarport u w1 w2 w3) ws
  | 0x1C => words1 (fun w1 => .newMixer u arg w1) ws
  | 0x1D => words6 (fun w1 w2 w3 w4 w5 w6 =>
      .newScale u w1 (xopOf sel 0 w2) (xopOf sel 1 w3) (xopOf sel 2 w4) (xopOf sel 3 w5) w6) ws
  | 0x1E => words1 (fun w1 => .newResample u (dirOf sel) (sel.extractLsb' 0 7) arg w1) ws
  | 0x1F => words2 (fun w1 w2 => .newPan u arg (sel.getLsbD 7) w1 (xopOf sel 0 w2)) ws
  | 0x20 => words2 (fun w1 w2 => .newSwitch u arg (sel.getLsbD 7) w1 (xopOf sel 0 w2)) ws
  | 0x21 => wordsFrom1 (fun w1 inputs =>
      .newSelector u arg (sel.getLsbD 7) (xopOf sel 0 w1) inputs) ws
  | 0x22 =>
    match arg.toNat with
    | 0 => words1 (fun w1 => .newDbtoa u w1) ws
    | 1 => words1 (fun w1 => .newAtodb u w1) ws
    | 2 => words1 (fun w1 => .newMtof u w1) ws
    | 3 => words1 (fun w1 => .newFtom u w1) ws
    | 4 => words2 (fun w1 w2 => .newMtot u w1 w2) ws
    | 5 => words1 (fun w1 => .newCentstotranspo u w1) ws
    | 6 => words1 (fun w1 => .newTranspotocents u w1) ws
    | _ => none
  | _ => none

/-- Decoding is total: the steps of R95 in their order. -/
def decode (p : Packet) : Decoded :=
  match reservedBits (opOf p.header).toNat with
  | none => .badOp
  | some mask =>
    if opOf p.header = 0x22#8 ∧ 6 < (argOf p.header).toNat then .badOp
    else if p.header &&& mask ≠ 0#32 then .badOp
    else if operandCount p.header p.operands ≠ some p.operands.length then .badLen
    else match assemble p.header p.operands with
      | some i => .command i
      | none => .badLen

/-! ### Encoding -/

/-- The mode-mask bit of an `X` operand (R93). -/
def XOp.bit : XOp → Bool
  | .const _ => false
  | .stream _ => true

/-- The operand word of an `X` operand. -/
def XOp.word : XOp → Word
  | .const c => c
  | .stream h => h

/-- A `sel` field made of mask bits 0 to 3 and the flag in bit 7. -/
def selBits (b0 b1 b2 b3 b7 : Bool) : Byte :=
  BitVec.ofBool b7 ++ 0#3 ++ BitVec.ofBool b3 ++ BitVec.ofBool b2 ++ BitVec.ofBool b1 ++
    BitVec.ofBool b0

/-- R104: the `dir` bit. -/
def Dir.bit : Dir → Bool
  | .up => false
  | .down => true

/-- The packet of a command, from the rows of R96. -/
def encode (i : Instr) : Packet :=
  match i with
  | .nop => ⟨mkHeader 0x00#8 0#8 0#8 0#8, []⟩
  | .del u => ⟨mkHeader 0x01#8 u 0#8 0#8, []⟩
  | .setc u slot v => ⟨mkHeader 0x02#8 u slot 0#8, [v]⟩
  | .sets u slot h => ⟨mkHeader 0x03#8 u slot 0#8, [h]⟩
  | .compute u => ⟨mkHeader 0x04#8 u 0#8 0#8, []⟩
  | .reset u => ⟨mkHeader 0x05#8 u 0#8 0#8, []⟩
  | .getout u => ⟨mkHeader 0x06#8 u 0#8 0#8, []⟩
  | .rdcsr n => ⟨mkHeader 0x07#8 0#8 n 0#8, []⟩
  | .ack u => ⟨mkHeader 0x08#8 u 0#8 0#8, []⟩
  | .mixadd u key h => ⟨mkHeader 0x09#8 u 0#8 0#8, [key, h]⟩
  | .mixdel u key => ⟨mkHeader 0x0A#8 u 0#8 0#8, [key]⟩
  | .mixamp u vout key gain => ⟨mkHeader 0x0B#8 u 0#8 vout, [key, gain]⟩
  | .seti u slot v => ⟨mkHeader 0x0C#8 u slot 0#8, [v]⟩
  | .newBsplit u bands inp mn mx q =>
      ⟨mkHeader 0x10#8 u (selBits q.bit false false false false) bands, [inp, mn, mx, q.word]⟩
  | .newFourband u inp f1 f2 f3 =>
      ⟨mkHeader 0x11#8 u (selBits f1.bit f2.bit f3.bit false false) 0#8,
        [inp, f1.word, f2.word, f3.word]⟩
  | .newMultiband u bands inp => ⟨mkHeader 0x12#8 u 0#8 bands, [inp]⟩
  | .newConvolve u inp taps =>
      ⟨mkHeader 0x13#8 u 0#8 0#8, inp :: BitVec.ofNat 32 taps.length :: taps⟩
  | .newIrwinsinc u type inp f bw order =>
      ⟨mkHeader 0x14#8 u (selBits f.bit bw.bit false false false) type,
        [inp, f.word, bw.word, order]⟩
  | .newIraverage u inp order => ⟨mkHeader 0x15#8 u 0#8 0#8, [inp, order]⟩
  | .newIrpulse u type inp f bw order =>
      ⟨mkHeader 0x16#8 u (selBits f.bit bw.bit false false false) type,
        [inp, f.word, bw.word, order]⟩
  | .newIrfm u inp c r m order =>
      ⟨mkHeader 0x17#8 u (selBits c.bit r.bit m.bit false false) 0#8,
        [inp, c.word, r.word, m.word, order]⟩
  | .newFreeverb u inp size damp mix =>
      ⟨mkHeader 0x18#8 u (selBits size.bit damp.bit mix.bit false false) 0#8,
        [inp, size.word, damp.word, mix.word]⟩
  | .newSig u v => ⟨mkHeader 0x19#8 u (selBits v.bit false false false false) 0#8, [v.word]⟩
  | .newSigto u v time init =>
      ⟨mkHeader 0x1A#8 u (selBits v.bit false false false false) 0#8, [v.word, time, init]⟩
  | .newVarport u v time init => ⟨mkHeader 0x1B#8 u 0#8 0#8, [v, time, init]⟩
  | .newMixer u outs time => ⟨mkHeader 0x1C#8 u 0#8 outs, [time]⟩
  | .newScale u inp imin imax omin omax e =>
      ⟨mkHeader 0x1D#8 u (selBits imin.bit imax.bit omin.bit omax.bit false) 0#8,
        [inp, imin.word, imax.word, omin.word, omax.word, e]⟩
  | .newResample u dir factor mode inp =>
      ⟨mkHeader 0x1E#8 u (BitVec.ofBool dir.bit ++ factor) mode, [inp]⟩
  | .newPan u chnls lin inp pan =>
      ⟨mkHeader 0x1F#8 u (selBits pan.bit false false false lin) chnls, [inp, pan.word]⟩
  | .newSwitch u chnls lin inp voice =>
      ⟨mkHeader 0x20#8 u (selBits voice.bit false false false lin) chnls, [inp, voice.word]⟩
  | .newSelector u nin lin voice inputs =>
      ⟨mkHeader 0x21#8 u (selBits voice.bit false false false lin) nin, voice.word :: inputs⟩
  | .newDbtoa u inp => ⟨mkHeader 0x22#8 u 0#8 0#8, [inp]⟩
  | .newAtodb u inp => ⟨mkHeader 0x22#8 u 0#8 1#8, [inp]⟩
  | .newMtof u inp => ⟨mkHeader 0x22#8 u 0#8 2#8, [inp]⟩
  | .newFtom u inp => ⟨mkHeader 0x22#8 u 0#8 3#8, [inp]⟩
  | .newMtot u inp ck => ⟨mkHeader 0x22#8 u 0#8 4#8, [inp, ck]⟩
  | .newCentstotranspo u inp => ⟨mkHeader 0x22#8 u 0#8 5#8, [inp]⟩
  | .newTranspotocents u inp => ⟨mkHeader 0x22#8 u 0#8 6#8, [inp]⟩

/-! ### Words of the opcode table -/

/-- Word `k` of an instruction whose bits are `w`, of which the table gives `nbits`: bit 0 of `w` is the
least significant bit of the first word, and the bits above `nbits` are 0. -/
def tableWord (nbits w k : Nat) : Word := BitVec.ofNat 32 ((w % 2 ^ nbits) / 2 ^ (32 * k))

/-- The packet of an instruction whose bits are `w`: the header is its first word, and it has as many
operand words as the header (for NEW.CONVOLVE, the header and `W2`) says (R94). -/
def tablePacket (nbits w : Nat) : Packet :=
  let h := tableWord nbits w 0
  let n := (operandCount h [tableWord nbits w 1, tableWord nbits w 2]).getD 0
  ⟨h, (List.range n).map fun k => tableWord nbits w (k + 1)⟩

/-- The instruction the decoder reads from an instruction whose bits are `w`; `none` where it refuses. -/
def decodeTableWord (nbits w : Nat) : Option Instr :=
  match decode (tablePacket nbits w) with
  | .command i => some i
  | .badOp | .badLen => none

end Sys2Proof
end

