-- ==== Sys2Proof/Config.lean ====
section
/-! DEFINITION. The configuration record `Cfg` (00_scope.md R4), the hardware's own configuration, and
the free values the spec leaves open. Nothing here has a value a proof could use: the record and the
free values are opaque constants, and `Cfg.normalize` maps every record onto one that meets the
constraints of R4 (DEDUCED, log 1). -/

namespace Sys2Proof

/-- Five feed-forward coefficients of one LR4 section, `ff[0]` to `ff[4]` (41_bandsplit.md R171). -/
structure Ff where
  c0 : Sample
  c1 : Sample
  c2 : Sample
  c3 : Sample
  c4 : Sample
deriving DecidableEq, Repr, Inhabited

/-- A 4th-order coefficient set `Co` (10_state.md R31): `lp[0..4]`, `hp[0..4]` and the shared feedback
`b[1..4]`. R31 counts thirteen Samples and names fourteen; the named ones are held (DEDUCED, log 12). -/
structure Co where
  lp : Ff
  hp : Ff
  b1 : Sample
  b2 : Sample
  b3 : Sample
  b4 : Sample
deriving DecidableEq, Repr, Inhabited

/-- `HOST_ENDIAN` (20_memory.md R63): invisible to every rule. -/
inductive Endian where
  | little
  | big
deriving DecidableEq, Repr, Inhabited

/-- The configuration record of 00_scope.md R4. Functions the spec calls OPEN are fields; what is
returned as a vector of a stated length is given element by element, so that the length is right by
construction. `hbInit` is the model's own free value (log 3). -/
structure Cfg where
  /-- `SR`, the sample rate in Hz -/
  sr : Sample
  /-- `BUFSIZE` -/
  bufsize : Nat
  /-- `NCHNLS`; no rule but the control register of that name reads it -/
  nchnls : Nat
  /-- `NUNITS` -/
  nunits : Nat
  /-- `NHOSTBUF` -/
  nhostbuf : Nat
  /-- `HBLEN` -/
  hblen : Nat
  /-- `MAXTAPS` -/
  maxtaps : Nat
  /-- `MAXDELAY` -/
  maxdelay : Nat
  /-- `MAXBANDS` -/
  maxbands : Nat
  /-- `MAXMIXIN` -/
  maxmixin : Nat
  /-- `Q_MIN` -/
  qMin : Sample
  /-- `MB_MINFREQ` -/
  mbMinFreq : Sample
  /-- `MB_MAXFREQ` -/
  mbMaxFreq : Sample
  /-- `Num.sin` (R10) -/
  sin : Sample → Sample
  /-- `Num.cos` -/
  cos : Sample → Sample
  /-- `Num.tan` -/
  tan : Sample → Sample
  /-- `Num.pow` -/
  pow : Sample → Sample → Sample
  /-- `Num.log10` -/
  log10 : Sample → Sample
  /-- `Num.log2` -/
  log2 : Sample → Sample
  /-- `LR4Coeffs(f, SR)` (41_bandsplit.md R176, R177) -/
  lr4Coeffs : Sample → Sample → Co
  /-- `BLACKMAN257[j]` (42_convolution.md R213) -/
  blackman : Nat → Sample
  /-- tap `i` of `IRPulseSynth(type, f, bw, order, SR)` (42_convolution.md R229) -/
  irPulseSynth : Nat → Sample → Sample → Nat → Sample → Nat → Sample
  /-- tap `i` of `IRFMSynth(carrier, ratio, index, order, SR)` (42_convolution.md R235) -/
  irFmSynth : Sample → Sample → Sample → Nat → Sample → Nat → Sample
  /-- `COMB_BASE[c]` (43_freeverb.md R258) -/
  combBase : Nat → Sample
  /-- `AP_BASE[a]` -/
  apBase : Nat → Sample
  /-- `FV_GAIN` -/
  fvGain : Sample
  /-- `FB_SCALE` -/
  fbScale : Sample
  /-- `FB_OFFSET` -/
  fbOffset : Sample
  /-- `DAMP_SCALE` -/
  dampScale : Sample
  /-- `SeedGen(t, count)` (10_state.md R27) -/
  seedGen : Nat → Word → Word
  /-- `RngUniform(seed, k)`, a Sample in `[0.0, 1.0)` (10_state.md R27) -/
  rngUniform : Word → Nat → Sample
  /-- `VP_EXTRA` (44_ramp_mix.md R297) -/
  vpExtra : Nat
  /-- `RSImpulse(dir, factor, mode)` for `mode >= 2`: the opaque state of a RESAMPLE as a list of words
  (45_spatial_convert_resample.md R360, R362; log 14) -/
  rsImpulse : Dir → Nat → Nat → List Word
  /-- `ResampleStep(dir, factor, mode, rs, xin)` for `mode >= 2`: the output element by element, and the
  new opaque state (45_spatial_convert_resample.md R361, R362) -/
  resampleStep : Dir → Nat → Nat → List Word → List Sample → (Nat → Sample) × List Word
  /-- `HOST_ENDIAN`; no rule reads it -/
  hostEndian : Endian
  /-- what element `k` of host buffer `h` holds after the reset numbered by the first argument, until
  the host writes it: any value, drawn once at reset (93_implementation_defined.md U5; log 3) -/
  hbInit : Nat → Nat → Nat → Sample
deriving Inhabited

/-- `s` is a positive finite Sample, read off its bits. -/
def positiveFinite (s : Sample) : Bool := decide (0 < s.toNat ∧ s.toNat < 0x7F800000)

/-- `s` is a Sample greater than 0: finite or plus infinity, read off its bits. -/
def positive (s : Sample) : Bool := decide (0 < s.toNat ∧ s.toNat ≤ 0x7F800000)

/-- `0.0 <= s < 1.0`, read off the bits; minus zero compares equal to zero (R8). -/
def inUnitInterval (s : Sample) : Bool := decide (s.toNat < 0x3F800000 ∨ s = 0x80000000#32)

/-- The constraints R4, R27 and 93_implementation_defined.md U3 (finite `SR`) put on a configuration. -/
structure Cfg.Valid (C : Cfg) : Prop where
  sr_pos : positiveFinite C.sr = true
  bufsize_pos : 1 ≤ C.bufsize
  bufsize_le : C.bufsize ≤ 2 ^ 16
  nchnls_lt : C.nchnls < 2 ^ 32
  nunits_le : C.nunits ≤ 256
  nhostbuf_le : C.nhostbuf ≤ 256
  hblen_ge : C.bufsize ≤ C.hblen
  hblen_le : C.hblen ≤ 2 ^ 22
  maxtaps_ge : 3 ≤ C.maxtaps
  maxbands_ge : 1 ≤ C.maxbands
  maxbands_le : C.maxbands ≤ 255
  maxmixin_ge : 1 ≤ C.maxmixin
  qMin_pos : positive C.qMin = true
  vpExtra_ge : 1 ≤ C.vpExtra
  rng_unit : ∀ seed k, inUnitInterval (C.rngUniform seed k) = true

/-- `x` when it lies in `[lo, hi]`, else `lo`: leaves every admitted value as it is. -/
def within (lo hi x : Nat) : Nat := if lo ≤ x ∧ x ≤ hi then x else lo

/-- A record that meets `Cfg.Valid`, equal to `R` when `R` meets it. -/
def Cfg.normalize (R : Cfg) : Cfg :=
  { R with
    sr := if positiveFinite R.sr then R.sr else 0x472C4400#32
    bufsize := within 1 (2 ^ 16) R.bufsize
    nchnls := within 0 (2 ^ 32 - 1) R.nchnls
    nunits := within 0 256 R.nunits
    nhostbuf := within 0 256 R.nhostbuf
    hblen := within (within 1 (2 ^ 16) R.bufsize) (2 ^ 22) R.hblen
    maxtaps := max 3 R.maxtaps
    maxbands := within 1 255 R.maxbands
    maxmixin := max 1 R.maxmixin
    qMin := if positive R.qMin then R.qMin else 1#32
    vpExtra := max 1 R.vpExtra
    rngUniform := fun seed k =>
      if inUnitInterval (R.rngUniform seed k) then R.rngUniform seed k else 0#32 }

/-! ### The hardware's own configuration -/

/-- The configuration the implementation fixes: OPEN in the spec, so opaque here (log 1). -/
opaque Config.implementation : Cfg

/-- The configuration of this hardware: OPEN but for `NUNITS` and `NHOSTBUF`, which are 256 (R4). -/
def Config.cfg : Cfg :=
  { Config.implementation.normalize with nunits := 256, nhostbuf := 256 }

/-! ### Free values -/

/-- The arithmetic operations that can return a NaN (00_scope.md R8). -/
inductive FOp where
  | add
  | sub
  | mul
  | div
  | sqrt
deriving DecidableEq, Repr

/-- Free: the bits from which the NaN an operation returns is formed (00_scope.md R17: "which NaN (sign
and payload) is not specified"; 93_implementation_defined.md U3 (a): any value among NaNs). A function
of the operation and its operands, so that equal operations give equal bits (R260, rule R165) (log 4). -/
opaque Config.nanBits : FOp → Sample → Sample → Sample

/-- The conversions of a Sample to an integer (00_scope.md R6). -/
inductive IntConv where
  | trunc
  | floor
  | round
deriving DecidableEq, Repr

/-- Free: the integer `trunc`, `floor` or `round` gives for a NaN or an infinity (00_scope.md R6;
93_implementation_defined.md U3 (c): any value) (log 5). -/
opaque Config.intOfNonFinite : IntConv → Sample → Int

end Sys2Proof
end

