-- ==== Sys2Proof/Machine/Float.lean ====
section
/-! DEFINITION. IEEE 754 binary32 arithmetic on Samples (00_scope.md R6, R8, R9, R17): every operation
is computed exactly on integers and rounded once, to nearest with ties to even; subnormals are kept; no
flag is recorded. A finite Sample is an integer multiple of 2^-149, and `scaled` is that integer. -/

namespace Sys2Proof

/-! ### Parts and classes -/

/-- The sign bit: set for a negative Sample. -/
def signBit (s : Sample) : Bool := s.getLsbD 31

/-- The 8-bit exponent field. -/
def expField (s : Sample) : Nat := s.toNat / 2 ^ 23 % 2 ^ 8

/-- The 23-bit fraction field. -/
def fracField (s : Sample) : Nat := s.toNat % 2 ^ 23

/-- The bits below the sign: ordered as the magnitudes are. -/
def magBits (s : Sample) : Nat := s.toNat % 2 ^ 31

/-- Exponent field all ones and a fraction that is not zero. -/
def isNaN (s : Sample) : Bool := decide (0x7F800000 < magBits s)

/-- Plus or minus infinity. -/
def isInf (s : Sample) : Bool := decide (magBits s = 0x7F800000)

/-- Neither a NaN nor an infinity. -/
def isFinite (s : Sample) : Bool := decide (magBits s < 0x7F800000)

/-- Plus or minus zero. -/
def isZero (s : Sample) : Bool := decide (magBits s = 0)

/-- The magnitude of a finite Sample as a multiple of 2^-149. -/
def scaledMag (s : Sample) : Nat :=
  if expField s = 0 then fracField s else (2 ^ 23 + fracField s) * 2 ^ (expField s - 1)

/-- The value of a finite Sample as a multiple of 2^-149. -/
def scaled (s : Sample) : Int := if signBit s then -(scaledMag s : Int) else (scaledMag s : Int)

/-- `bits` with the sign bit set when `neg`. -/
def withSign (neg : Bool) (bits : Nat) : Sample :=
  BitVec.ofNat 32 (if neg then 2 ^ 31 + bits else bits)

/-- The zero of the given sign. -/
def zeroOf (neg : Bool) : Sample := withSign neg 0

/-- The infinity of the given sign. -/
def infOf (neg : Bool) : Sample := withSign neg 0x7F800000

/-- The NaN an operation returns: any NaN can be it (93_implementation_defined.md U3 (a); log 4). -/
def nanOf (op : FOp) (a b : Sample) : Sample :=
  let p := Config.nanBits op a b
  if isNaN p then p else 0x7FC00000#32

/-! ### Rounding -/

/-- Round `n / 2^sh` to an integer, to nearest with ties to even; `sticky` says that the exact value is
greater than `n` by less than one unit. -/
def roundShift (n sh : Nat) (sticky : Bool) : Nat :=
  let q := n / 2 ^ sh
  let r := n % 2 ^ sh
  let up : Bool := decide (2 ^ sh < 2 * r) ||
    (decide (2 * r = 2 ^ sh) && (sticky || decide (q % 2 = 1)))
  if up then q + 1 else q

/-- The Sample nearest `±n * 2^-(149 + k)` (R8: once, to nearest, ties to even). `n` keeps its leading 24
bits, or fewer where the last place would fall under 2^-149 (a subnormal). A magnitude at or past the
overflow threshold gives an infinity. -/
def roundMag (neg : Bool) (n k : Nat) (sticky : Bool) : Sample :=
  let sh := max (Nat.log2 n - 23) k
  withSign neg (min ((sh - k) * 2 ^ 23 + roundShift n sh sticky) 0x7F800000)

/-- `toSample(n)` and the rounding of an exact multiple of 2^-149, with the sign of a zero given. -/
def roundScaled (v : Int) (zeroNeg : Bool) : Sample :=
  if v = 0 then zeroOf zeroNeg else roundMag (decide (v < 0)) v.natAbs 0 false

/-! ### Arithmetic (R8) -/

/-- `-a` flips the sign bit. -/
def fneg (a : Sample) : Sample := a ^^^ 0x80000000#32

/-- Addition, with the tag of the operation it is done for. An exact zero sum is `+0` unless both
operands are negative zeros. -/
def addCore (op : FOp) (p q a b : Sample) : Sample :=
  if isNaN a || isNaN b then nanOf op p q
  else if isInf a then (if isInf b && (signBit a != signBit b) then nanOf op p q else a)
  else if isInf b then b
  else roundScaled (scaled a + scaled b) (signBit a && signBit b)

/-- `a + b`. -/
def fadd (a b : Sample) : Sample := addCore .add a b a b

/-- `a - b`, the sum of `a` and `-b`. -/
def fsub (a b : Sample) : Sample := addCore .sub a b a (fneg b)

/-- `a * b`. -/
def fmul (a b : Sample) : Sample :=
  let neg := signBit a != signBit b
  if isNaN a || isNaN b then nanOf .mul a b
  else if isInf a || isInf b then
    (if isZero a || isZero b then nanOf .mul a b else infOf neg)
  else if isZero a || isZero b then zeroOf neg
  else roundMag neg (scaledMag a * scaledMag b) 149 false

/-- `a / b`. The quotient of the two magnitudes is taken in units of 2^-213. -/
def fdiv (a b : Sample) : Sample :=
  let neg := signBit a != signBit b
  if isNaN a || isNaN b then nanOf .div a b
  else if isInf a then (if isInf b then nanOf .div a b else infOf neg)
  else if isInf b then zeroOf neg
  else if isZero b then (if isZero a then nanOf .div a b else infOf neg)
  else if isZero a then zeroOf neg
  else
    let n := scaledMag a * 2 ^ 213
    roundMag neg (n / scaledMag b) 64 (decide (n % scaledMag b ≠ 0))

/-- Bits `k - 1` down to 0 of the integer square root of `n`, on top of the root `r` found so far. -/
def isqrtBits (n : Nat) : Nat → Nat → Nat
  | 0, r => r
  | k + 1, r =>
    let t := r + 2 ^ k
    if t * t ≤ n then isqrtBits n k t else isqrtBits n k r

/-- The integer square root: the greatest `r` with `r * r ≤ n`. -/
def isqrt (n : Nat) : Nat := isqrtBits n (Nat.log2 n / 2 + 1) 0

/-- `sqrt(a)`, the correctly rounded square root; the root is taken in units of 2^-150. The root of a
zero is that zero, of a negative number a NaN. -/
def fsqrt (a : Sample) : Sample :=
  if isNaN a then nanOf .sqrt a a
  else if isZero a then a
  else if signBit a then nanOf .sqrt a a
  else if isInf a then a
  else
    let n := scaledMag a * 2 ^ 151
    let r := isqrt n
    roundMag false r 1 (decide (r * r ≠ n))

/-! ### Comparisons (R8): every one is false on a NaN but `!=` -/

/-- The position of a Sample that is not a NaN in the order of values; both zeros are at 0. -/
def orderKey (s : Sample) : Int := if signBit s then -(magBits s : Int) else (magBits s : Int)

/-- Neither operand is a NaN. -/
def ordered (a b : Sample) : Bool := !isNaN a && !isNaN b

/-- `a == b`. -/
def feq (a b : Sample) : Bool := ordered a b && decide (orderKey a = orderKey b)

/-- `a != b`. -/
def fne (a b : Sample) : Bool := !feq a b

/-- `a < b`. -/
def flt (a b : Sample) : Bool := ordered a b && decide (orderKey a < orderKey b)

/-- `a <= b`. -/
def fle (a b : Sample) : Bool := ordered a b && decide (orderKey a ≤ orderKey b)

/-- `a > b`. -/
def fgt (a b : Sample) : Bool := flt b a

/-- `a >= b`. -/
def fge (a b : Sample) : Bool := fle b a

/-- `clamp(x, lo, hi)` (R9): a NaN `x` passes through. -/
def fclamp (x lo hi : Sample) : Sample := if flt x lo then lo else if fgt x hi then hi else x

/-- `max(a, b)` (R9). -/
def fmax (a b : Sample) : Sample := if flt a b then b else a

/-! ### Conversions (R6) -/

/-- `toSample(n)`: the Sample nearest the integer. -/
def ofInt (n : Int) : Sample := roundScaled (n * 2 ^ 149) false

/-- `toSample(n)` for a natural number. -/
def ofNat (n : Nat) : Sample := ofInt n

/-- `trunc(s)`: toward zero. -/
def ftrunc (s : Sample) : Int :=
  if isFinite s then (scaled s).tdiv (2 ^ 149) else Config.intOfNonFinite .trunc s

/-- `floor(s)`: toward minus infinity. -/
def ffloor (s : Sample) : Int :=
  if isFinite s then (scaled s).fdiv (2 ^ 149) else Config.intOfNonFinite .floor s

/-- `round(s)`: to the nearest integer, ties away from zero. -/
def fround (s : Sample) : Int :=
  if isFinite s then
    (let m : Int := ((2 * scaledMag s + 2 ^ 149) / 2 ^ 150 : Nat)
     if signBit s then -m else m)
  else Config.intOfNonFinite .round s

/-! ### Constants of the rules -/

/-- `+0.0` -/
def f0 : Sample := 0x00000000#32
/-- `0.5` -/
def fHalf : Sample := 0x3F000000#32
/-- `1.0` -/
def f1 : Sample := 0x3F800000#32
/-- `-1.0`, the sentinel of a cached last value (41_bandsplit.md R181) -/
def fNeg1 : Sample := 0xBF800000#32
/-- `2.0` -/
def f2 : Sample := 0x40000000#32
/-- `-2.0` -/
def fNeg2 : Sample := 0xC0000000#32
/-- `PI` (R10) -/
def fPi : Sample := 0x40490FDB#32
/-- `TWOPI` (R10) -/
def fTwoPi : Sample := 0x40C90FDB#32

/-- The Sample nearest the rational number `num / den`: how a decimal constant of a rule is read (R8
rounds the quotient of two exact integers once). -/
def fRat (num : Int) (den : Nat) : Sample := fdiv (ofInt num) (ofNat den)

end Sys2Proof
end

