-- ==== Sys2Proof/Machine/State.lean ====
section
/-! DEFINITION. The state of the machine (10_state.md R20 to R44), what a host move is and what it is
answered with (20_memory.md R68, 30_encoding.md R98), and the state right after reset
(70_reset_and_hazards.md R411). Everything here is plain data. -/

namespace Sys2Proof.Machine

/-! ### Responses -/

/-- The response codes (60_exceptions.md R371). -/
inductive Code where
  /-- 0: the command did what its rule says -/
  | ok
  /-- 1: unknown opcode or reserved header bit -/
  | badOp
  /-- 2: unit number out of range, or the slot FREE where a live unit is needed, or live where a FREE
  one is -/
  | badUnit
  /-- 3: a live unit of a type the command does not apply to -/
  | badType
  /-- 4: no such slot or control register, or a class the command cannot write -/
  | badSlot
  /-- 5: an unusable operand -/
  | badArg
  /-- 6: a capacity would be exceeded -/
  | alloc
  /-- 7: a handle about to be read names nothing -/
  | dangling
  /-- 8: no Mixer input under the key -/
  | badKey
  /-- 9: wrong number of operand words -/
  | badLen
deriving DecidableEq, Repr

/-- The one answer to a packet (30_encoding.md R98). -/
structure Response where
  code : Code
  value : Word
deriving DecidableEq, Repr

/-- A move of the host (20_memory.md R68, R70; 70_reset_and_hazards.md R410; log 7). -/
inductive HostMove where
  /-- a command packet is presented -/
  | packet (p : Packet)
  /-- `HostWrite(a, w)` -/
  | write (a : Addr) (w : Word)
  /-- `HostRead(a)` -/
  | read (a : Addr)
  /-- the reset input is asserted and released -/
  | reset
deriving DecidableEq, Repr

/-- What the host port shows for the last move (log 9). -/
inductive Port where
  /-- nothing yet since reset -/
  | idle
  /-- the response of a packet -/
  | response (r : Response)
  /-- the word a `HostRead` returned -/
  | data (w : Word)
  /-- a `HostWrite` was done -/
  | written
  /-- the access did not meet its requirement and was refused (20_memory.md R68) -/
  | denied
deriving DecidableEq, Repr

/-! ### Sparse tables -/

/-- A sparse table in canonical form is sorted by key, strictly rising. -/
abbrev Table (α : Type) := List (Nat × α)

/-- The host buffers: the buffer-space address of each listed element, and its Sample. The smallest
addressable thing of this hardware is one Sample (20_memory.md R60), so a cell holds one (log 2). -/
abbrev Memory := Table Sample

/-! ### Parameter slots -/

/-- The mode of a parameter slot (10_state.md R24). -/
inductive Mode where
  | const
  | stream
deriving DecidableEq, Repr

/-- A parameter slot `{mode, c, h}` (10_state.md R24). -/
structure Slot where
  mode : Mode
  c : Sample
  h : Addr
deriving DecidableEq, Repr

/-! ### Type-specific state -/

/-- One band of a BSPLIT (10_state.md R30): its centre frequency, coefficients and memories. -/
structure Band where
  bf : Sample
  b0 : Sample
  b2 : Sample
  a0inv : Sample
  a1 : Sample
  a2 : Sample
  x1 : Sample
  x2 : Sample
  y1 : Sample
  y2 : Sample
deriving DecidableEq, Repr

/-- BSPLIT (10_state.md R30); `bands` is the length of the list (log 15). -/
structure BSplit where
  fmin : Sample
  fmax : Sample
  bands : List Band
  init : Bool
deriving DecidableEq, Repr

/-- An LR4 section `Sec` (10_state.md R31): the last four inputs and outputs, newest first. -/
structure Sec where
  x1 : Sample
  x2 : Sample
  x3 : Sample
  x4 : Sample
  y1 : Sample
  y2 : Sample
  y3 : Sample
  y4 : Sample
deriving DecidableEq, Repr

/-- The two sections of one correction pass, `alp[k][j]` and `ahp[k][j]` (10_state.md R32). -/
structure Corr where
  alp : Sec
  ahp : Sec
deriving DecidableEq, Repr

/-- Boundary `k` of a FOURBAND or MULTIBAND (10_state.md R32): `corr` holds the correction sections of
band `k` for `j = k+1, k+2, .., B-1` in this order. -/
structure Boundary where
  last : Sample
  co : Co
  lps : Sec
  hps : Sec
  corr : List Corr
deriving DecidableEq, Repr

/-- FOURBAND and MULTIBAND (10_state.md R32); `B` is the length of the list, `nb` is `B + 1` (log 15). -/
structure Split where
  bounds : List Boundary
deriving DecidableEq, Repr

/-- The convolution engine (10_state.md R33); `N` is the length of `ring` (log 15). -/
structure Engine where
  imp : List Sample
  ring : List Sample
  wc : Nat
deriving DecidableEq, Repr

/-- IRWINSINC and IRPULSE (10_state.md R33). -/
structure IrTyped where
  eng : Engine
  order : Nat
  type : Nat
  lastf : Sample
  lastbw : Sample
  dirty : Bool
deriving DecidableEq, Repr

/-- IRAVERAGE (10_state.md R33). -/
structure IrAverage where
  eng : Engine
  order : Nat
deriving DecidableEq, Repr

/-- IRFM (10_state.md R33). -/
structure IrFm where
  eng : Engine
  order : Nat
  lastc : Sample
  lastr : Sample
  lasti : Sample
deriving DecidableEq, Repr

/-- One comb of a FREEVERB (10_state.md R34): `cbuf[c]`, `cpos[c]`, `cst[c]`; `clen[c]` is the length of
`buf` (log 15). -/
structure Comb where
  buf : List Sample
  pos : Nat
  st : Sample
deriving DecidableEq, Repr

/-- One all-pass of a FREEVERB (10_state.md R34): `abuf[a]`, `apos[a]`; `alen[a]` is the length of `buf`. -/
structure Allpass where
  buf : List Sample
  pos : Nat
deriving DecidableEq, Repr

/-- FREEVERB (10_state.md R34). -/
structure Freeverb where
  seed : Word
  jit : Nat
  combs : List Comb
  aps : List Allpass
deriving DecidableEq, Repr

/-- The ramp record (10_state.md R35). -/
structure Ramp where
  last : Sample
  cur : Sample
  step : Sample
  count : Nat
deriving DecidableEq, Repr

/-- SIGTO (10_state.md R35); `n` is a natural number (44_ramp_mix.md R282; log 16). -/
structure SigTo where
  rp : Ramp
  n : Nat
deriving DecidableEq, Repr

/-- VARPORT (10_state.md R35). -/
structure VarPort where
  rp : Ramp
  n : Nat
  timeout : Nat
  active : Bool
deriving DecidableEq, Repr

/-- One gain of a MIXER entry (10_state.md R36). -/
structure Gain where
  target : Sample
  rp : Ramp
deriving DecidableEq, Repr

/-- One registered input of a MIXER (10_state.md R36). -/
structure MixIn where
  key : Word
  h : Addr
  g : List Gain
deriving DecidableEq, Repr

/-- MIXER (10_state.md R36). -/
structure Mixer where
  outs : Nat
  n : Nat
  ins : List MixIn
deriving DecidableEq, Repr

/-- PAN and SWITCH (10_state.md R38). -/
structure Spread where
  chnls : Nat
  lin : Bool
deriving DecidableEq, Repr

/-- SELECTOR (10_state.md R38); `nin` is the length of `inh` (log 15). -/
structure Selector where
  inh : List Addr
  lin : Bool
deriving DecidableEq, Repr

/-- CONV (10_state.md R39). -/
structure Conv where
  fn : Nat
  valid : Bool
  lastin : Sample
  lastout : Sample
deriving DecidableEq, Repr

/-- RESAMPLE (10_state.md R40); `rs` is the opaque state owned by `Cfg.ResampleStep` (log 14). -/
structure Resample where
  dir : Dir
  factor : Nat
  mode : Nat
  lin : Nat
  rs : List Word
deriving DecidableEq, Repr

/-- The type of a live unit with its type-specific state (10_state.md R23, R30 to R40). -/
inductive Body where
  | bsplit (b : BSplit)
  | fourband (b : Split)
  | multiband (b : Split)
  | convolve (b : Engine)
  | irwinsinc (b : IrTyped)
  | iraverage (b : IrAverage)
  | irpulse (b : IrTyped)
  | irfm (b : IrFm)
  | freeverb (b : Freeverb)
  | sig
  | sigto (b : SigTo)
  | varport (b : VarPort)
  | mixer (b : Mixer)
  | scale
  | resample (b : Resample)
  | pan (b : Spread)
  | switch (b : Spread)
  | selector (b : Selector)
  | conv (b : Conv)
deriving DecidableEq, Repr

/-- A live unit: the common fields of 10_state.md R22 and the type-specific state. `inp` is the spec's
`in`, `p` its `P[0..15]`. -/
structure DspUnit where
  nch : Nat
  out : List Sample
  inp : Addr
  p : List Slot
  cb : Bool
  body : Body
deriving DecidableEq, Repr

/-! ### The machine -/

/-- The state of the machine. -/
structure State where
  /-- the unit table: a slot that is not listed is FREE (10_state.md R22; log 6) -/
  units : Table DspUnit
  /-- the host buffers (20_memory.md R61); an element that is not listed has not been changed since
  reset (log 3) -/
  hb : Memory
  /-- `seedcnt[t]` at index `t - 1` (10_state.md R27) -/
  seedcnt : Vector Word 19
  /-- `csr.LASTERR` (10_state.md R26) -/
  lasterr : Word
  /-- `csr.FAULTS` (10_state.md R26) -/
  faults : Word
  /-- the model's own: the host's moves not taken yet, the next first (log 7) -/
  input : List HostMove
  /-- the model's own: what the last move was answered with (log 9) -/
  port : Port
  /-- the model's own: how many resets came before this one; the draw of the unwritten elements (log 3) -/
  epoch : Nat
deriving DecidableEq, Repr

/-- Nothing in this hardware stops it: every command is answered (00_scope.md R19, 20_memory.md R72) and
an error is a response (60_exceptions.md R371), so the machine has no fault. -/
inductive Fault : Type where
deriving DecidableEq, Repr

/-- Why the model gives no step. -/
inductive Refusal where
  /-- raised by an arm of `exec` whose instruction has no meaning yet; safe: a run that meets it claims
  nothing. No arm raises it now. -/
  | notModelled (mnemonic : String)
deriving DecidableEq, Repr

/-- What a step or a command answers. -/
abbrev Result := Host.Outcome State Fault Refusal

/-- The machine right after reset (70_reset_and_hazards.md R411): every slot FREE, LASTERR, FAULTS and
the seed counters 0, no host-buffer element written. The model's own fields: no move pending, nothing
answered, the first draw (DESIGN CHOICE, logs 3, 7, 9). -/
def State.reset : State :=
  { units := []
    hb := []
    seedcnt := Vector.replicate 19 0#32
    lasterr := 0#32
    faults := 0#32
    input := []
    port := .idle
    epoch := 0 }

end Sys2Proof.Machine
end

