-- ==== Sys2Proof/Machine/Table.lean ====
section
/-! DEFINITION. Operations on sparse tables: look up, set, erase, and the canonical order of the keys. -/

namespace Sys2Proof.Machine

/-- What the table holds under key `i`. -/
def tableGet {α : Type} : Table α → Nat → Option α
  | [], _ => none
  | (k, v) :: t, i => if i = k then some v else tableGet t i

/-- The table with `x` under key `i`, at its place in the order. -/
def tableSet {α : Type} : Table α → Nat → α → Table α
  | [], i, x => [(i, x)]
  | (k, v) :: t, i, x =>
    if i < k then (i, x) :: (k, v) :: t
    else if i = k then (i, x) :: t
    else (k, v) :: tableSet t i x

/-- The table with nothing under key `i`. -/
def tableErase {α : Type} : Table α → Nat → Table α
  | [], _ => []
  | (k, v) :: t, i => if i = k then tableErase t i else (k, v) :: tableErase t i

/-- The keys rise strictly, from `lo` on. -/
def keysFrom {α : Type} : Nat → Table α → Bool
  | _, [] => true
  | lo, (k, _) :: t => decide (lo ≤ k) && keysFrom (k + 1) t

/-- The keys rise strictly: the canonical order. -/
def tableSorted {α : Type} (t : Table α) : Bool := keysFrom 0 t

end Sys2Proof.Machine
end

