-- ==== Sys2Proof/Machine/Ops.lean ====
section
/-! DEFINITION. The named operations over the machine's state: answering a command and raising an error
(60_exceptions.md R371, R372), the unit table (10_state.md R22), buffer space (20_memory.md), the seed
registry (10_state.md R27), and the frame common to every `NEW.*` (40_system.md R141). The
configuration is an argument, as 00_scope.md R4 has it. -/

namespace Sys2Proof.Machine

/-! ### Answering a command -/

/-- The number of a response code (60_exceptions.md R371). -/
def Code.num : Code → Nat
  | .ok => 0
  | .badOp => 1
  | .badUnit => 2
  | .badType => 3
  | .badSlot => 4
  | .badArg => 5
  | .alloc => 6
  | .dangling => 7
  | .badKey => 8
  | .badLen => 9

/-- The state with the response `(code, value)` at the port. -/
def State.answer (s : State) (code : Code) (value : Word) : State :=
  { s with port := .response ⟨code, value⟩ }

/-- The command ends `OK` in state `s`, with response value 0 (00_scope.md R12). -/
def done (s : State) : Result := .next (s.answer .ok 0#32)

/-- The command ends `OK` in state `s` and returns `value`. -/
def doneWith (value : Word) (s : State) : Result := .next (s.answer .ok value)

/-- `raise E_X` (60_exceptions.md R372): the whole effect on state is LASTERR and FAULTS; the response is
`(code, 0)`. No control is transferred and nothing is saved (R391). -/
def raise (e : Code) (s : State) : Result :=
  .next { s with
    lasterr := BitVec.ofNat 32 e.num
    faults := s.faults ||| BitVec.ofNat 32 (2 ^ e.num)
    port := .response ⟨e, 0#32⟩ }

/-! ### The unit table -/

/-- `U[u]` when `u < NUNITS` and the slot is not FREE. -/
def liveUnit (C : Cfg) (s : State) (u : Nat) : Option DspUnit :=
  if u < C.nunits then tableGet s.units u else none

/-- `u < NUNITS` and `U[u].type = FREE`. -/
def slotFree (C : Cfg) (s : State) (u : Nat) : Bool :=
  decide (u < C.nunits) && (tableGet s.units u).isNone

/-- `U[u] <- U`. -/
def putUnit (u : Nat) (U : DspUnit) (s : State) : State := { s with units := tableSet s.units u U }

/-- `U[u].type <- FREE`, with everything else the slot held (40_system.md R131; log 6). -/
def dropUnit (u : Nat) (s : State) : State := { s with units := tableErase s.units u }

/-! ### Addresses (20_memory.md R60) -/

/-- Address bits 31:30. -/
def kindOf (a : Addr) : Nat := a.toNat / 2 ^ 30

/-- Address bits 29:22. -/
def indexOf (a : Addr) : Nat := a.toNat / 2 ^ 22 % 2 ^ 8

/-- Address bits 21:0. -/
def offsetOf (a : Addr) : Nat := a.toNat % 2 ^ 22

/-- The address `{kind, index, offset}` as a number. -/
def addrNum (kind index offset : Nat) : Nat := kind * 2 ^ 30 + index * 2 ^ 22 + offset

/-- The address of the first element of the output of unit `u` (40_system.md R138). -/
def outAddr (u : Nat) : Addr := BitVec.ofNat 32 (addrNum 2 u 0)

/-! ### Buffer space -/

/-- What element `k` of host buffer `h` reads as while nothing is listed for it: the draw of this reset
(93_implementation_defined.md U5; log 3). -/
def unwritten (C : Cfg) (epoch h k : Nat) : Sample := C.hbInit epoch h k

/-- `HB[h][k]`. -/
def hostElem (C : Cfg) (s : State) (h k : Nat) : Sample :=
  (tableGet s.hb (addrNum 1 h k)).getD (unwritten C s.epoch h k)

/-- `HB[h][k] <- v`, in canonical form: an element is listed only while it differs from what it reads as
unlisted. -/
def putHostElem (C : Cfg) (h k : Nat) (v : Sample) (s : State) : State :=
  { s with
    hb := if v = unwritten C s.epoch h k then tableErase s.hb (addrNum 1 h k)
          else tableSet s.hb (addrNum 1 h k) v }

/-- A listed cell is an element of a host buffer that exists, and does not hold what it reads as when
unlisted. -/
def Memory.cellOk (C : Cfg) (epoch : Nat) (cell : Nat × Sample) : Bool :=
  decide (cell.1 / 2 ^ 30 = 1) &&
  decide (cell.1 / 2 ^ 22 % 2 ^ 8 < C.nhostbuf) &&
  decide (cell.1 % 2 ^ 22 < C.hblen) &&
  decide (cell.2 ≠ unwritten C epoch (cell.1 / 2 ^ 22 % 2 ^ 8) (cell.1 % 2 ^ 22))

/-- The canonical form of the host buffers: keys strictly rising, every cell as `Memory.cellOk` says. -/
def Memory.wf (C : Cfg) (epoch : Nat) (m : Memory) : Bool :=
  tableSorted m && m.all (Memory.cellOk C epoch)

/-- `InRegion(a, n)` (20_memory.md R65). -/
def inRegion (C : Cfg) (s : State) (a : Addr) (n : Nat) : Bool :=
  match kindOf a with
  | 1 => decide (indexOf a < C.nhostbuf) && decide (offsetOf a + n ≤ C.hblen)
  | 2 => match liveUnit C s (indexOf a) with
    | some U => decide (offsetOf a + n ≤ U.nch * C.bufsize)
    | none => false
  | _ => false

/-- The element at `a + i`, if that names one (20_memory.md R66, R74): an element of a host buffer, or
of a live unit's output. -/
def elemAt? (C : Cfg) (s : State) (a : Addr) (i : Nat) : Option Sample :=
  match kindOf a with
  | 1 =>
    if indexOf a < C.nhostbuf ∧ offsetOf a + i < C.hblen then
      some (hostElem C s (indexOf a) (offsetOf a + i))
    else none
  | 2 => match liveUnit C s (indexOf a) with
    | some U => U.out[offsetOf a + i]?
    | none => none
  | _ => none

/-- The element at `a + i`. A rule reads it only where `InRegion` has been checked (20_memory.md R66);
elsewhere it is `+0.0`, which no command can see (log 17). -/
def elemAt (C : Cfg) (s : State) (a : Addr) (i : Nat) : Sample := (elemAt? C s a i).getD f0

/-- `MemRead(a, n)` (20_memory.md R66). -/
def memRead (C : Cfg) (s : State) (a : Addr) (n : Nat) : List Sample :=
  (List.range n).map (elemAt C s a)

/-- `BindOK(u, a, n)` (20_memory.md R75). -/
def bindOk (C : Cfg) (s : State) (u : Nat) (a : Addr) (n : Nat) : Bool :=
  inRegion C s a n && !(decide (kindOf a = 2) && decide (indexOf a = u))

/-! ### The seed registry (10_state.md R27) -/

/-- `seedcnt[t]`, for a type code `t` in `[1, 19]`. -/
def seedCount (s : State) (t : Nat) : Word := s.seedcnt[t - 1]?.getD 0#32

/-- The seed the next `NewSeed(t)` returns. -/
def nextSeed (C : Cfg) (s : State) (t : Nat) : Word := C.seedGen t (seedCount s t)

/-- The state after `NewSeed(t)`: the counter moves by one, modulo 2^32. -/
def drawSeed (t : Nat) (s : State) : State :=
  { s with seedcnt := s.seedcnt.setIfInBounds (t - 1) (seedCount s t + 1#32) }

/-! ### What every `NEW.*` does (40_system.md R141) -/

/-- The slot `{mode CONST, c +0.0, h NULL}`. -/
def blankSlot : Slot := ⟨.const, f0, nullAddr⟩

/-- `P[0..15]` with the given first slots. -/
def slotBank (first : List Slot) : List Slot := (first ++ List.replicate 16 blankSlot).take 16

/-- `NewCommon(u, t, nch, inh)` and the type's own fields. -/
def freshUnit (C : Cfg) (nch : Nat) (inh : Addr) (slots : List Slot) (body : Body) : DspUnit :=
  { nch := nch
    out := List.replicate (nch * C.bufsize) f0
    inp := inh
    p := slotBank slots
    cb := false
    body := body }

/-- The first check of a `NEW.* u` that fails, in the order of 60_exceptions.md R380: the slot is FREE;
every handle satisfies `BindOK`; the type's own argument check; its capacity check. -/
def newCheck (C : Cfg) (s : State) (u : Nat) (handles : List (Addr × Nat)) (argOk capOk : Bool) :
    Option Code :=
  if !slotFree C s u then some .badUnit
  else if !(handles.all fun h => bindOk C s u h.1 h.2) then some .badArg
  else if !argOk then some .badArg
  else if !capOk then some .alloc
  else none

/-- A `NEW.* u`: the checks, then the unit is in its slot. -/
def newUnit (C : Cfg) (u : Byte) (handles : List (Addr × Nat)) (argOk capOk : Bool) (U : DspUnit)
    (s : State) : Result :=
  match newCheck C s u.toNat handles argOk capOk with
  | some e => raise e s
  | none => done (putUnit u.toNat U s)

/-! ### Running over a block -/

/-- `f` over the list from the left, carrying a state and collecting one result per element: how a rule
that says "for i ascending" runs (00_scope.md R18). -/
def scan {σ β α : Type} (f : σ → β → σ × α) : σ → List β → σ × List α
  | st, [] => (st, [])
  | st, x :: xs => ((scan f (f st x).1 xs).1, (f st x).2 :: (scan f (f st x).1 xs).2)

/-- The output buffer of `nch` channels from the samples of each instant: sample `i` of channel `c` at
element `c * BUFSIZE + i` (10_state.md R29). `rows` holds the instants, each a list of channels. -/
def channelMajor (nch : Nat) (rows : List (List Sample)) : List Sample :=
  (List.range nch).flatMap fun c => rows.map fun row => row.getD c f0

end Sys2Proof.Machine
end

