-- ==== Sys2Proof/Machine/Operands.lean ====
section
/-! DEFINITION. Operand forms: mode-masked operands (30_encoding.md R93), parameter slots and their
classes (10_state.md R24, R25), and the value of a parameter (00_scope.md R11). -/

namespace Sys2Proof.Machine

/-- The slot an `X` operand initialises (30_encoding.md R93, on top of 40_system.md R141). -/
def xslot : XOp → Slot
  | .const c => ⟨.const, c, nullAddr⟩
  | .stream h => ⟨.stream, f0, h⟩

/-- The slot an `F` operand initialises: `{CONST, c, NULL}`. -/
def fslot (c : Sample) : Slot := ⟨.const, c, nullAddr⟩

/-- The handles among the `X` operands, in slot order, each with the length it is bound for. -/
def streamHandles (C : Cfg) (xs : List XOp) : List (Addr × Nat) :=
  xs.filterMap fun x => match x with
    | .const _ => none
    | .stream h => some (h, C.bufsize)

/-- The unit type codes (10_state.md R23). -/
def typeCode : Body → Nat
  | .bsplit _ => 1
  | .fourband _ => 2
  | .multiband _ => 3
  | .convolve _ => 4
  | .irwinsinc _ => 5
  | .iraverage _ => 6
  | .irpulse _ => 7
  | .irfm _ => 8
  | .freeverb _ => 9
  | .sig => 10
  | .sigto _ => 11
  | .varport _ => 12
  | .mixer _ => 13
  | .scale => 14
  | .resample _ => 15
  | .pan _ => 16
  | .switch _ => 17
  | .selector _ => 18
  | .conv _ => 19

/-- The classes of parameter slots (10_state.md R24). -/
inductive SlotClass where
  /-- `P`: scalar or stream -/
  | param
  /-- `S`: scalar only -/
  | scalar
  /-- `I`: integer attribute -/
  | integer
deriving DecidableEq, Repr

/-- The class of slot `k` of a unit, `none` where the unit type does not define it (10_state.md R25). -/
def slotClass (b : Body) (k : Nat) : Option SlotClass :=
  match b with
  | .bsplit _ => if k = 0 then some .param else none
  | .fourband _ => if k < 3 then some .param else none
  | .multiband m => if k < m.bounds.length then some .scalar else none
  | .convolve _ => none
  | .irwinsinc _ => if k < 2 then some .param else if k = 2 then some .integer else none
  | .iraverage _ => none
  | .irpulse _ => if k < 2 then some .param else if k = 2 then some .integer else none
  | .irfm _ => if k < 3 then some .param else none
  | .freeverb _ => if k < 3 then some .param else none
  | .sig => if k = 0 then some .param else none
  | .sigto _ => if k = 0 then some .param else if k = 1 then some .scalar else none
  | .varport _ => if k < 2 then some .scalar else none
  | .mixer _ => if k = 0 then some .scalar else none
  | .scale => if k < 4 then some .param else if k = 4 then some .scalar else none
  | .resample _ => none
  | .pan _ => if k = 0 then some .param else none
  | .switch _ => if k = 0 then some .param else none
  | .selector _ => if k = 0 then some .param else none
  | .conv c => if c.fn = 4 ∧ k = 0 then some .scalar else none

/-- `U[u].P[k]`. -/
def DspUnit.slot (U : DspUnit) (k : Nat) : Slot := U.p.getD k blankSlot

/-- `pval(u, k, i)` (00_scope.md R11). -/
def pval (C : Cfg) (s : State) (U : DspUnit) (k i : Nat) : Sample :=
  match (U.slot k).mode with
  | .const => (U.slot k).c
  | .stream => elemAt C s (U.slot k).h i

/-- `pval0(u, k)`: the block's value of a parameter sampled once per block (00_scope.md R11). -/
def pval0 (C : Cfg) (s : State) (U : DspUnit) (k : Nat) : Sample := pval C s U k 0

/-- Whether `COMPUTE` reads the unit's `in` (40_system.md R141: `in` is NULL for SIG, SIGTO, VARPORT,
MIXER and SELECTOR). -/
def readsInput : Body → Bool
  | .sig | .sigto _ | .varport _ | .mixer _ | .selector _ => false
  | .bsplit _ | .fourband _ | .multiband _ | .convolve _ | .irwinsinc _ | .iraverage _
  | .irpulse _ | .irfm _ | .freeverb _ | .scale | .resample _ | .pan _ | .switch _
  | .conv _ => true

/-- How many elements of its `in` a `COMPUTE` reads: `lin` for a RESAMPLE, else BUFSIZE (20_memory.md
R75). -/
def inputLength (C : Cfg) : Body → Nat
  | .resample r => r.lin
  | _ => C.bufsize

/-- The handles of the inputs beyond `in`: MIXER entries in list order, SELECTOR inputs in index order. -/
def extraInputs : Body → List Addr
  | .mixer m => m.ins.map (·.h)
  | .selector l => l.inh
  | _ => []

/-- Every handle `COMPUTE` reads this block, with its length, in the order of 40_system.md R135. -/
def readHandles (C : Cfg) (U : DspUnit) : List (Addr × Nat) :=
  (if readsInput U.body then [(U.inp, inputLength C U.body)] else []) ++
    ((U.p.filter fun p => p.mode = .stream).map fun p => (p.h, C.bufsize)) ++
    (extraInputs U.body).map fun h => (h, C.bufsize)

/-- The input block `x = MemRead(U[u].in, BUFSIZE)` (40_system.md R136), sample by sample. -/
def inputAt (C : Cfg) (s : State) (U : DspUnit) (i : Nat) : Sample := elemAt C s U.inp i

end Sys2Proof.Machine
end

