-- ==== Sys2Proof/Machine/BandSplit.lean ====
section
/-! DEFINITION. Band-splitting filter cascades: BSPLIT, FOURBAND, MULTIBAND (41_bandsplit.md). Each
constructor, the coefficient rules, and what `COMPUTE` does to these types. -/

namespace Sys2Proof.Machine

/-! ### BSPLIT -/

/-- `SR / 2.01`, the upper clamp of a band or boundary frequency (R163, R172). -/
def nyquistGuard (C : Cfg) : Sample := fdiv C.sr (fRat 201 100)

/-- `clamp(f, 1.0, SR / 2.01)` (R163, R172). -/
def bandClamp (C : Cfg) (f : Sample) : Sample := fclamp f f1 (nyquistGuard C)

/-- `BandFreq(min, max, j, nb)` (R161). -/
def bandFreq (C : Cfg) (mn mx : Sample) (j nb : Nat) : Sample :=
  fmul mn (C.pow (fdiv mx mn) (fdiv (ofNat j) (ofNat nb)))

/-- `clamp(bands, 1, MAXBANDS)` (R162). -/
def bandCount (C : Cfg) (bands : Nat) : Nat := min (max bands 1) C.maxbands

/-- `alpha` of R164 for centre frequency `bf` and quality `q`. -/
def bsAlpha (C : Cfg) (q bf : Sample) : Sample :=
  fdiv (C.sin (fdiv (fmul fTwoPi (bandClamp C bf)) C.sr)) (fmul f2 (fmax q C.qMin))

/-- `BsCoeffs(u, q)` for one band (R164, R166); no memory is touched. -/
def bsCoeffs (C : Cfg) (q : Sample) (b : Band) : Band :=
  let alpha := bsAlpha C q b.bf
  { b with
    b0 := alpha
    b2 := fneg alpha
    a0inv := fdiv f1 (fadd f1 alpha)
    a1 := fmul fNeg2 (C.cos (fdiv (fmul fTwoPi (bandClamp C b.bf)) C.sr))
    a2 := fsub f1 alpha }

/-- Band `j` of a fresh BSPLIT before its coefficients: frequency set, everything else `+0.0` (R160). -/
def freshBand (bf : Sample) : Band := ⟨bf, f0, f0, f0, f0, f0, f0, f0, f0, f0⟩

/-- The body of a fresh BSPLIT (R160). -/
def newBsplitBody (C : Cfg) (bands : Nat) (mn mx : Sample) (q : XOp) : BSplit :=
  let nb := bandCount C bands
  let fresh := (List.range nb).map fun j => freshBand (bandFreq C mn mx j nb)
  { fmin := mn
    fmax := mx
    bands := match q with
      | .const c => fresh.map (bsCoeffs C c)
      | .stream _ => fresh
    init := true }

/-- NEW.BSPLIT (R160). -/
def newBsplitOn (C : Cfg) (u bands : Byte) (inp : Addr) (mn mx : Sample) (q : XOp) (s : State) :
    Result :=
  newUnit C u ((inp, C.bufsize) :: streamHandles C [q]) true true
    (freshUnit C (bandCount C bands.toNat) inp [xslot q]
      (.bsplit (newBsplitBody C bands.toNat mn mx q))) s

/-- NEW.BSPLIT. -/
def execNewBsplit (u bands : Byte) (inp : Addr) (mn mx : Sample) (q : XOp) (s : State) : Result :=
  newBsplitOn Config.cfg u bands inp mn mx q s

/-- Priming of one band (R168). -/
def primeBand (x0 : Sample) (b : Band) : Band := { b with x1 := x0, x2 := x0, y1 := x0, y2 := x0 }

/-- One sample through one band (R165); the output is the new `y1`. -/
def bandStep (x : Sample) (b : Band) : Band :=
  { b with
    y1 := fmul (fsub (fsub (fadd (fmul b.b0 x) (fmul b.b2 b.x2)) (fmul b.a1 b.y1))
      (fmul b.a2 b.y2)) b.a0inv
    y2 := b.y1
    x1 := x
    x2 := b.x1 }

/-- All bands for sample `i` (R165): in stream mode the coefficients are recomputed first. The row holds
the output of each band. -/
def bsplitSample (C : Cfg) (stream : Bool) (q x : Nat → Sample) (bands : List Band) (i : Nat) :
    List Band × List Sample :=
  let bs := (if stream then bands.map (bsCoeffs C (q i)) else bands).map (bandStep (x i))
  (bs, bs.map (·.y1))

/-- COMPUTE on a BSPLIT (R165, R168). -/
def computeBsplit (C : Cfg) (s : State) (U : DspUnit) (b : BSplit) : DspUnit :=
  let x := inputAt C s U
  let primed := if b.init then b.bands.map (primeBand (x 0)) else b.bands
  let run := scan (bsplitSample C (decide ((U.slot 0).mode = .stream)) (pval C s U 0) x) primed
    (List.range C.bufsize)
  { U with
    out := channelMajor b.bands.length run.2
    body := .bsplit { b with bands := run.1, init := false } }

/-! ### LR4 sections -/

/-- The section of eight `+0.0` (R181). -/
def zeroSec : Sec := ⟨f0, f0, f0, f0, f0, f0, f0, f0⟩

/-- The coefficient set of all `+0.0` (R181). -/
def zeroCo : Co := ⟨⟨f0, f0, f0, f0, f0⟩, ⟨f0, f0, f0, f0, f0⟩, f0, f0, f0, f0⟩

/-- The output sample of `Lr4Step` (R171): nine terms, left to right. -/
def lr4Out (ff : Ff) (co : Co) (S : Sec) (s : Sample) : Sample :=
  fsub (fsub (fsub (fsub
    (fadd (fadd (fadd (fadd (fmul ff.c0 s) (fmul ff.c1 S.x1)) (fmul ff.c2 S.x2)) (fmul ff.c3 S.x3))
      (fmul ff.c4 S.x4))
    (fmul co.b1 S.y1)) (fmul co.b2 S.y2)) (fmul co.b3 S.y3)) (fmul co.b4 S.y4)

/-- `Lr4Step(ff, b, S, s)` (R171): the section after the sample; the output is its new `y1`. -/
def lr4Step (ff : Ff) (co : Co) (S : Sec) (s : Sample) : Sec :=
  { x1 := s, x2 := S.x1, x3 := S.x2, x4 := S.x3
    y1 := lr4Out ff co S s, y2 := S.y1, y3 := S.y2, y4 := S.y3 }

/-! ### FOURBAND and MULTIBAND -/

/-- `InitSplit(u)` with `B` boundaries (R181). -/
def initSplit (B : Nat) : Split :=
  ⟨(List.range B).map fun k =>
    { last := fNeg1, co := zeroCo, lps := zeroSec, hps := zeroSec
      corr := List.replicate (B - 1 - k) ⟨zeroSec, zeroSec⟩ }⟩

/-- NEW.FOURBAND (R170). -/
def newFourbandOn (C : Cfg) (u : Byte) (inp : Addr) (freq1 freq2 freq3 : XOp) (s : State) : Result :=
  newUnit C u ((inp, C.bufsize) :: streamHandles C [freq1, freq2, freq3]) true true
    (freshUnit C 4 inp [xslot freq1, xslot freq2, xslot freq3] (.fourband (initSplit 3))) s

/-- NEW.FOURBAND. -/
def execNewFourband (u : Byte) (inp : Addr) (freq1 freq2 freq3 : XOp) (s : State) : Result :=
  newFourbandOn Config.cfg u inp freq1 freq2 freq3 s

/-- `clamp(bands, 2, 16)` (R185). -/
def multibandCount (bands : Nat) : Nat := min (max bands 2) 16

/-- `MbFreq(k, nb)` (R184). -/
def mbFreq (C : Cfg) (k nb : Nat) : Sample :=
  fadd (fmul (C.pow (fdiv (ofNat (k + 1)) (ofNat nb)) (ofNat 3)) (fsub C.mbMaxFreq C.mbMinFreq))
    C.mbMinFreq

/-- NEW.MULTIBAND (R183). -/
def newMultibandOn (C : Cfg) (u bands : Byte) (inp : Addr) (s : State) : Result :=
  let nb := multibandCount bands.toNat
  newUnit C u [(inp, C.bufsize)] true true
    (freshUnit C nb inp ((List.range (nb - 1)).map fun k => fslot (mbFreq C k nb))
      (.multiband (initSplit (nb - 1)))) s

/-- NEW.MULTIBAND. -/
def execNewMultiband (u bands : Byte) (inp : Addr) (s : State) : Result :=
  newMultibandOn Config.cfg u bands inp s

/-- One boundary of `RefreshCoeffs` for the parameter value `f` (R173). -/
def refreshBoundary (C : Cfg) (f : Sample) (b : Boundary) : Boundary :=
  if fne f b.last then { b with last := f, co := C.lr4Coeffs (bandClamp C f) C.sr } else b

/-- `RefreshCoeffs(u)` from boundary `k` on (R173); `f k` is `pval0(u, k)`. -/
def refreshCoeffs (C : Cfg) (f : Nat → Sample) : Nat → List Boundary → List Boundary
  | _, [] => []
  | k, b :: bs => refreshBoundary C (f k) b :: refreshCoeffs C f (k + 1) bs

/-- The correction passes of one band (R175): through each remaining boundary's coefficients, in
ascending order, low and high summed. -/
def corrPass : List Co → List Corr → Sample → List Corr × Sample
  | co :: cos, c :: cs, v =>
    let l2 := lr4Step co.lp co c.alp v
    let h2 := lr4Step co.hp co c.ahp v
    let rest := corrPass cos cs (fadd l2.y1 h2.y1)
    (⟨l2, h2⟩ :: rest.1, rest.2)
  | [], cs, v => (cs, v)
  | _ :: _, [], v => ([], v)

/-- One sample through the cascade (R174, R175, R178, R179): boundary by boundary, each splitting what
the one below passed up. The row holds the bands, the top band last. -/
def splitSample : List Boundary → Sample → List Boundary × List Sample
  | [], s => ([], [s])
  | b :: bs, s =>
    let lo := lr4Step b.co.lp b.co b.lps s
    let hi := lr4Step b.co.hp b.co b.hps s
    let passed := corrPass (bs.map (·.co)) b.corr lo.y1
    let rest := splitSample bs hi.y1
    ({ b with lps := lo, hps := hi, corr := passed.1 } :: rest.1, passed.2 :: rest.2)

/-- One block through the cascade (R178): the refresh once, then sample by sample. -/
def splitBlock (C : Cfg) (s : State) (U : DspUnit) (b : Split) : List Boundary × List (List Sample) :=
  scan (fun bs i => splitSample bs (inputAt C s U i)) (refreshCoeffs C (pval0 C s U) 0 b.bounds)
    (List.range C.bufsize)

/-- COMPUTE on a FOURBAND (R178). -/
def computeFourband (C : Cfg) (s : State) (U : DspUnit) (b : Split) : DspUnit :=
  let run := splitBlock C s U b
  { U with out := channelMajor (b.bounds.length + 1) run.2, body := .fourband ⟨run.1⟩ }

/-- COMPUTE on a MULTIBAND (R178). -/
def computeMultiband (C : Cfg) (s : State) (U : DspUnit) (b : Split) : DspUnit :=
  let run := splitBlock C s U b
  { U with out := channelMajor (b.bounds.length + 1) run.2, body := .multiband ⟨run.1⟩ }

end Sys2Proof.Machine
end

