-- ==== Sys2Proof/Machine/Convolution.lean ====
section
/-! DEFINITION. Convolution engines: CONVOLVE, IRWINSINC, IRAVERAGE, IRPULSE, IRFM (42_convolution.md).
The shared engine, the impulse synthesis rules, the constructors and what `COMPUTE` does. -/

namespace Sys2Proof.Machine

/-! ### The shared engine -/

/-- An engine of `imp`, with `n` elements of `+0.0` in its ring and the cursor at 0. -/
def freshEngine (imp : List Sample) (n : Nat) : Engine := ⟨imp, List.replicate n f0, 0⟩

/-- `(wc - k) mod N` for `k < N` (R200): never negative (00_scope.md R9). -/
def ringIndex (wc k n : Nat) : Nat := (wc + n - k) % n

/-- The convolution sum (R200), `k` ascending from `+0.0`. -/
def convSum (ring imp : List Sample) (wc : Nat) : Sample :=
  (List.range ring.length).foldl
    (fun acc k => fadd acc (fmul (ring.getD (ringIndex wc k ring.length) f0) (imp.getD k f0))) f0

/-- `ConvStep(u, s)` (R200): the new sample enters the ring before the sum. -/
def convStep (e : Engine) (x : Sample) : Engine × Sample :=
  let ring := e.ring.set e.wc x
  ({ e with ring := ring, wc := (e.wc + 1) % e.ring.length }, convSum ring e.imp e.wc)

/-- One block through the engine. -/
def convBlock (C : Cfg) (x : Nat → Sample) (e : Engine) : Engine × List Sample :=
  scan (fun e i => convStep e (x i)) e (List.range C.bufsize)

/-! ### CONVOLVE -/

/-- NEW.CONVOLVE (R203). -/
def newConvolveOn (C : Cfg) (u : Byte) (inp : Addr) (taps : List Sample) (s : State) : Result :=
  newUnit C u [(inp, C.bufsize)] (decide (1 ≤ taps.length)) (decide (taps.length ≤ C.maxtaps))
    (freshUnit C 1 inp [] (.convolve (freshEngine taps taps.length))) s

/-- NEW.CONVOLVE. -/
def execNewConvolve (u : Byte) (inp : Addr) (taps : List Sample) (s : State) : Result :=
  newConvolveOn Config.cfg u inp taps s

/-- COMPUTE on a CONVOLVE (R205). -/
def computeConvolve (C : Cfg) (s : State) (U : DspUnit) (e : Engine) : DspUnit :=
  let run := convBlock C (inputAt C s U) e
  { U with out := run.2, body := .convolve run.1 }

/-! ### What the synthesising types share -/

/-- `MAXORD`: the largest even number not above `MAXTAPS - 1` (R207). -/
def maxOrder (C : Cfg) : Nat := (C.maxtaps - 1) / 2 * 2

/-- `EvenOrder(o)` (R207). -/
def evenOrder (C : Cfg) (o : Nat) : Nat :=
  let o1 := min o (maxOrder C)
  max (if o1 % 2 ≠ 0 then o1 + 1 else o1) 2

/-- `FClamp(v)` (R208). -/
def fClampHz (C : Cfg) (v : Sample) : Sample := fclamp v f1 (fdiv C.sr f2)

/-- `Normalize(t)` (R209). -/
def normalizeTaps (t : List Sample) : List Sample :=
  let sum := t.foldl fadd f0
  if fne sum f0 then t.map fun v => fdiv v sum else t

/-- `Win(i, order)` (R212). -/
def window (C : Cfg) (i order : Nat) : Sample :=
  let pos := fdiv (fmul (ofNat i) (ofNat 256)) (ofNat order)
  let j := (ftrunc pos).toNat
  if 256 ≤ j then C.blackman 256
  else fadd (C.blackman j)
    (fmul (fsub (C.blackman (j + 1)) (C.blackman j)) (fsub pos (ofNat j)))

/-- The type clamp: above 3 becomes 3 (R211). -/
def clampType (t : Nat) : Nat := min t 3

/-! ### IRWINSINC -/

/-- Tap `i` of `LowPass(fhz, order)` before normalisation (R214); `n = i - half` may be negative. -/
def sincTap (C : Cfg) (fhz : Sample) (order i : Nat) : Sample :=
  let fc := fdiv fhz C.sr
  let n : Int := (i : Int) - ((order / 2 : Nat) : Int)
  let v := if n = 0 then fmul fTwoPi fc
    else fdiv (C.sin (fmul (fmul fTwoPi fc) (ofInt n))) (ofInt n)
  fmul v (window C i order)

/-- `LowPass(fhz, order)` (R214). -/
def lowPass (C : Cfg) (fhz : Sample) (order : Nat) : List Sample :=
  normalizeTaps ((List.range (order + 1)).map (sincTap C fhz order))

/-- `Invert(t, order)` (R215). -/
def invertTaps (t : List Sample) (order : Nat) : List Sample :=
  let neg := t.map fneg
  neg.set (order / 2) (fadd (neg.getD (order / 2) f0) f1)

/-- The type-2 result of R216, from the clamped frequency and bandwidth. -/
def bandReject (C : Cfg) (fc bc : Sample) (order : Nat) : List Sample :=
  let lo := fClampHz C (fsub fc (fdiv bc f2))
  let hi := fClampHz C (fadd fc (fdiv bc f2))
  List.zipWith fadd (lowPass C lo order) (invertTaps (lowPass C hi order) order)

/-- `WinSincImpulse(type, f, bw, order)` (R216). -/
def winSincImpulse (C : Cfg) (type : Nat) (f bw : Sample) (order : Nat) : List Sample :=
  let fc := fClampHz C f
  let bc := fClampHz C bw
  match type with
  | 0 => lowPass C fc order
  | 1 => invertTaps (lowPass C fc order) order
  | 2 => bandReject C fc bc order
  | _ => invertTaps (bandReject C fc bc order) order

/-- The state of a fresh IRWINSINC or IRPULSE (R210, R227). -/
def freshTyped (C : Cfg) (type : Byte) (order : Word) : IrTyped :=
  let o := evenOrder C order.toNat
  { eng := freshEngine (List.replicate (o + 1) f0) (o + 1)
    order := o
    type := clampType type.toNat
    lastf := fNeg1
    lastbw := fNeg1
    dirty := true }

/-- NEW.IRWINSINC (R210). -/
def newIrwinsincOn (C : Cfg) (u type : Byte) (inp : Addr) (freq bw : XOp) (order : Word) (s : State) :
    Result :=
  newUnit C u ((inp, C.bufsize) :: streamHandles C [freq, bw]) true true
    (freshUnit C 1 inp [xslot freq, xslot bw] (.irwinsinc (freshTyped C type order))) s

/-- NEW.IRWINSINC. -/
def execNewIrwinsinc (u type : Byte) (inp : Addr) (freq bw : XOp) (order : Word) (s : State) :
    Result :=
  newIrwinsincOn Config.cfg u type inp freq bw order s

/-- The change test of IRWINSINC and IRPULSE (R218, R230): on the raw values, exact. -/
def typedStale (t : IrTyped) (f bw : Sample) : Bool := fne f t.lastf || fne bw t.lastbw || t.dirty

/-- The impulse rebuilt with `synth` if the test says so (R218, R230); ring and cursor are untouched. -/
def typedRefresh (synth : Nat → Sample → Sample → Nat → List Sample) (f bw : Sample) (t : IrTyped) :
    IrTyped :=
  if typedStale t f bw then
    { t with
      lastf := f
      lastbw := bw
      dirty := false
      eng := { t.eng with imp := synth t.type f bw t.order } }
  else t

/-- COMPUTE on an IRWINSINC (R217, R218). -/
def computeIrwinsinc (C : Cfg) (s : State) (U : DspUnit) (t : IrTyped) : DspUnit :=
  let t' := typedRefresh (winSincImpulse C) (pval0 C s U 0) (pval0 C s U 1) t
  let run := convBlock C (inputAt C s U) t'.eng
  { U with out := run.2, body := .irwinsinc { t' with eng := run.1 } }

/-- SETI on slot 2 of an IRWINSINC or IRPULSE (R219, R231). -/
def setType (v : Word) (t : IrTyped) : IrTyped := { t with type := clampType v.toNat, dirty := true }

/-! ### IRAVERAGE -/

/-- `AverageImpulse(order)` (R223). -/
def averageImpulse (C : Cfg) (order : Nat) : List Sample :=
  normalizeTaps ((List.range (order + 1)).map fun i => window C i order)

/-- NEW.IRAVERAGE (R222). -/
def newIraverageOn (C : Cfg) (u : Byte) (inp : Addr) (order : Word) (s : State) : Result :=
  let o := evenOrder C order.toNat
  newUnit C u [(inp, C.bufsize)] true true
    (freshUnit C 1 inp [] (.iraverage ⟨freshEngine (averageImpulse C o) (o + 1), o⟩)) s

/-- NEW.IRAVERAGE. -/
def execNewIraverage (u : Byte) (inp : Addr) (order : Word) (s : State) : Result :=
  newIraverageOn Config.cfg u inp order s

/-- COMPUTE on an IRAVERAGE (R224). -/
def computeIraverage (C : Cfg) (s : State) (U : DspUnit) (t : IrAverage) : DspUnit :=
  let run := convBlock C (inputAt C s U) t.eng
  { U with out := run.2, body := .iraverage { t with eng := run.1 } }

/-! ### IRPULSE -/

/-- NEW.IRPULSE (R227). -/
def newIrpulseOn (C : Cfg) (u type : Byte) (inp : Addr) (freq bw : XOp) (order : Word) (s : State) :
    Result :=
  newUnit C u ((inp, C.bufsize) :: streamHandles C [freq, bw]) true true
    (freshUnit C 1 inp [xslot freq, xslot bw] (.irpulse (freshTyped C type order))) s

/-- NEW.IRPULSE. -/
def execNewIrpulse (u type : Byte) (inp : Addr) (freq bw : XOp) (order : Word) (s : State) : Result :=
  newIrpulseOn Config.cfg u type inp freq bw order s

/-- `Cfg.IRPulseSynth` on clamped frequencies (R229, R230): `order + 1` taps. -/
def pulseImpulse (C : Cfg) (type : Nat) (f bw : Sample) (order : Nat) : List Sample :=
  (List.range (order + 1)).map
    (C.irPulseSynth type (fClampHz C f) (fClampHz C bw) order C.sr)

/-- COMPUTE on an IRPULSE (R230). -/
def computeIrpulse (C : Cfg) (s : State) (U : DspUnit) (t : IrTyped) : DspUnit :=
  let t' := typedRefresh (pulseImpulse C) (pval0 C s U 0) (pval0 C s U 1) t
  let run := convBlock C (inputAt C s U) t'.eng
  { U with out := run.2, body := .irpulse { t' with eng := run.1 } }

/-! ### IRFM -/

/-- The state of a fresh IRFM (R233). -/
def freshIrFm (C : Cfg) (order : Word) : IrFm :=
  let o := evenOrder C order.toNat
  { eng := freshEngine (List.replicate (o + 1) f0) (o + 1)
    order := o
    lastc := fNeg1
    lastr := fNeg1
    lasti := fNeg1 }

/-- NEW.IRFM (R233). -/
def newIrfmOn (C : Cfg) (u : Byte) (inp : Addr) (carrier ratio index : XOp) (order : Word)
    (s : State) : Result :=
  newUnit C u ((inp, C.bufsize) :: streamHandles C [carrier, ratio, index]) true true
    (freshUnit C 1 inp [xslot carrier, xslot ratio, xslot index] (.irfm (freshIrFm C order))) s

/-- NEW.IRFM. -/
def execNewIrfm (u : Byte) (inp : Addr) (carrier ratio index : XOp) (order : Word) (s : State) :
    Result :=
  newIrfmOn Config.cfg u inp carrier ratio index order s

/-- `Cfg.IRFMSynth` on the clamped carrier (R235, R236): `order + 1` taps. -/
def fmImpulse (C : Cfg) (c r m : Sample) (order : Nat) : List Sample :=
  (List.range (order + 1)).map (C.irFmSynth (fClampHz C c) r m order C.sr)

/-- The refresh of an IRFM (R236). -/
def fmRefresh (C : Cfg) (c r m : Sample) (t : IrFm) : IrFm :=
  if fne c t.lastc || fne r t.lastr || fne m t.lasti then
    { t with
      lastc := c
      lastr := r
      lasti := m
      eng := { t.eng with imp := fmImpulse C c r m t.order } }
  else t

/-- COMPUTE on an IRFM (R236). -/
def computeIrfm (C : Cfg) (s : State) (U : DspUnit) (t : IrFm) : DspUnit :=
  let t' := fmRefresh C (pval0 C s U 0) (pval0 C s U 1) (pval0 C s U 2) t
  let run := convBlock C (inputAt C s U) t'.eng
  { U with out := run.2, body := .irfm { t' with eng := run.1 } }

end Sys2Proof.Machine
end

