-- ==== Sys2Proof/Machine/Flags.lean ====
section
/-! DEFINITION. The flags a host can see and the control registers (10_state.md R26, R28; 60_exceptions.md
R390). -/

namespace Sys2Proof.Machine

/-- The interrupt line: the OR of `U[u].cb` over all units (60_exceptions.md R390). -/
def irqLine (s : State) : Bool := s.units.any fun e => e.2.cb

/-- The slots whose `cb` flag is set. -/
def pendingUnits (s : State) : List Nat := (s.units.filter fun e => e.2.cb).map (·.1)

/-- `csr.CBFIRST`: the least pending unit, or all ones (10_state.md R26). -/
def cbFirst (s : State) : Word :=
  match (pendingUnits s).min? with
  | some u => BitVec.ofNat 32 u
  | none => 0xFFFFFFFF#32

/-- The value of control register `n`; `none` where no such register exists (10_state.md R26). -/
def csrValue (C : Cfg) (s : State) (n : Nat) : Option Word :=
  match n with
  | 0 => some C.sr
  | 1 => some (BitVec.ofNat 32 C.bufsize)
  | 2 => some (BitVec.ofNat 32 C.nunits)
  | 3 => some (BitVec.ofNat 32 C.nchnls)
  | 4 => some 1#32
  | 5 => some s.lasterr
  | 6 => some s.faults
  | 7 => some (if irqLine s then 1#32 else 0#32)
  | 8 => some (cbFirst s)
  | _ => if 0x21 ≤ n ∧ n ≤ 0x33 then some (seedCount s (n - 0x20)) else none

end Sys2Proof.Machine
end

