-- ==== Sys2Proof/Machine/FreeverbUnit.lean ====
section
/-! DEFINITION. The Freeverb reverberator (43_freeverb.md): the constructor with its seed draw, what
`COMPUTE` does to a FREEVERB, and what `RESET` clears. -/

namespace Sys2Proof.Machine

/-- The FREEVERB type code, the key of its seed counter (R253). -/
def freeverbType : Nat := 9

/-- `44100.0`. -/
def refRate : Sample := ofNat 44100

/-- The jitter `J` of a unit seeded with `seed` (R253); never negative for a draw in `[0, 1)`. -/
def jitterOf (C : Cfg) (seed : Word) : Nat :=
  (fround (fmul (fadd (ofNat 10) (fmul (ofNat 20) (C.rngUniform seed 0)))
    (fdiv C.sr refRate))).toNat

/-- `DelayLen(base, J)` (R252). -/
def delayLen (C : Cfg) (base : Sample) (J : Nat) : Nat :=
  (max (fround (fmul (fdiv base refRate) C.sr) + (J : Int)) 1).toNat

/-- The eight comb lengths (R250). -/
def combLens (C : Cfg) (J : Nat) : List Nat := (List.range 8).map fun c => delayLen C (C.combBase c) J

/-- The four all-pass lengths (R250). -/
def apLens (C : Cfg) (J : Nat) : List Nat := (List.range 4).map fun a => delayLen C (C.apBase a) J

/-- The state of a fresh FREEVERB (R250). -/
def freshFreeverb (C : Cfg) (seed : Word) : Freeverb :=
  let J := jitterOf C seed
  { seed := seed
    jit := J
    combs := (combLens C J).map fun n => ⟨List.replicate n f0, 0, f0⟩
    aps := (apLens C J).map fun n => ⟨List.replicate n f0, 0⟩ }

/-- Every delay length fits `MAXDELAY` (R250). -/
def delaysFit (C : Cfg) (J : Nat) : Bool :=
  (combLens C J ++ apLens C J).all fun n => decide (n ≤ C.maxdelay)

/-- NEW.FREEVERB (R250): the lengths are checked with the next seed before it is consumed; a refused
construction draws none. -/
def newFreeverbOn (C : Cfg) (u : Byte) (inp : Addr) (size damp mix : XOp) (s : State) : Result :=
  let seed := nextSeed C s freeverbType
  match newCheck C s u.toNat ((inp, C.bufsize) :: streamHandles C [size, damp, mix]) true
      (delaysFit C (jitterOf C seed)) with
  | some e => raise e s
  | none => done (putUnit u.toNat
      (freshUnit C 1 inp [xslot size, xslot damp, xslot mix] (.freeverb (freshFreeverb C seed)))
      (drawSeed freeverbType s))

/-- NEW.FREEVERB. -/
def execNewFreeverb (u : Byte) (inp : Addr) (size damp mix : XOp) (s : State) : Result :=
  newFreeverbOn Config.cfg u inp size damp mix s

/-! ### Computing a block -/

/-- `CombStep(u, c, s, fb, dm)` (R255): the comb after the sample, and the tap. -/
def combStep (x fb dm : Sample) (c : Comb) : Comb × Sample :=
  let tap := c.buf.getD c.pos f0
  let st := fadd tap (fmul (fsub c.st tap) dm)
  (⟨c.buf.set c.pos (fadd (fmul st fb) x), (c.pos + 1) % c.buf.length, st⟩, tap)

/-- `AllpassStep(u, a, v)` (R257): the all-pass after the sample, and its output. -/
def allpassStep (v : Sample) (a : Allpass) : Allpass × Sample :=
  let r := a.buf.getD a.pos f0
  (⟨a.buf.set a.pos (fadd (fmul r fHalf) v), (a.pos + 1) % a.buf.length⟩, fsub r v)

/-- `clamp(v, 0.0, 1.0)` (R254). -/
def unitClamp (v : Sample) : Sample := fclamp v f0 f1

/-- `fb` of R254. -/
def feedbackOf (C : Cfg) (size : Sample) : Sample := fadd (fmul (unitClamp size) C.fbScale) C.fbOffset

/-- `dm` of R254. -/
def dampOf (C : Cfg) (damp : Sample) : Sample := fmul (unitClamp damp) C.dampScale

/-- The output expression of R256 for clamped mix `mx`. DESIGN CHOICE (log 21): where R256's corner case for
`mx = 0.0` says another value than its expression, as it does for `x = -0.0` under a negative `wet * FV_GAIN`
(`-0.0` by the expression), the model follows the expression. -/
def wetDry (C : Cfg) (mx wet x : Sample) : Sample :=
  fadd (fmul (fmul wet C.fvGain) (fsqrt mx)) (fmul x (fsqrt (fsub f1 mx)))

/-- The combs in ascending order, each fed the sample `x`, their taps summed from `acc` (R256). -/
def combBank (x fb dm : Sample) : List Comb → Sample → List Comb × Sample
  | [], acc => ([], acc)
  | c :: cs, acc =>
    let r := combStep x fb dm c
    let rest := combBank x fb dm cs (fadd acc r.2)
    (r.1 :: rest.1, rest.2)

/-- The all-passes in series (R256). -/
def allpassChain : List Allpass → Sample → List Allpass × Sample
  | [], v => ([], v)
  | a :: as, v =>
    let r := allpassStep v a
    let rest := allpassChain as r.2
    (r.1 :: rest.1, rest.2)

/-- One sample of R256. -/
def freeverbSample (C : Cfg) (size damp mix x : Nat → Sample) (f : Freeverb) (i : Nat) :
    Freeverb × Sample :=
  let cb := combBank (x i) (feedbackOf C (size i)) (dampOf C (damp i)) f.combs f0
  let ap := allpassChain f.aps cb.2
  ({ f with combs := cb.1, aps := ap.1 }, wetDry C (unitClamp (mix i)) ap.2 (x i))

/-- COMPUTE on a FREEVERB (R256). -/
def computeFreeverb (C : Cfg) (s : State) (U : DspUnit) (f : Freeverb) : DspUnit :=
  let run := scan
    (freeverbSample C (pval C s U 0) (pval C s U 1) (pval C s U 2) (inputAt C s U)) f
    (List.range C.bufsize)
  { U with out := run.2, body := .freeverb run.1 }

/-! ### Reset -/

/-- RESET on a FREEVERB (R262): rings and damping state to `+0.0`; cursors, lengths, seed and jitter
stay. -/
def clearFreeverb (f : Freeverb) : Freeverb :=
  { f with
    combs := f.combs.map fun c => { c with buf := List.replicate c.buf.length f0, st := f0 }
    aps := f.aps.map fun a => { a with buf := List.replicate a.buf.length f0 } }

end Sys2Proof.Machine
end

