-- ==== Sys2Proof/Machine/RampMix.lean ====
section
/-! DEFINITION. Parameter ramping, mixing and scaling: SIG, SIGTO, VARPORT, MIXER, SCALE (44_ramp_mix.md).
The ramp engine, the constructors, the Mixer commands, and what `COMPUTE` does to these types. -/

namespace Sys2Proof.Machine

/-! ### The ramp engine -/

/-- `2147483648.0`. -/
def twoPow31 : Sample := ofInt (2 ^ 31)

/-- `RampLen(t)` (R282). -/
def rampLen (C : Cfg) (t : Sample) : Nat :=
  let p := fmul t C.sr
  if !fge p f1 then 0
  else if fge p twoPow31 then 2147483647
  else (ftrunc p).toNat

/-- `RampRetarget(rp, t, n)` (R283). -/
def rampRetarget (rp : Ramp) (t : Sample) (n : Nat) : Ramp :=
  if n = 0 then { last := t, cur := t, step := f0, count := 0 }
  else { last := t, cur := rp.cur, step := fdiv (fsub t rp.cur) (ofNat n), count := 0 }

/-- `RampStep(rp, n)` (R284): the returned value is the new `cur`. -/
def rampStep (rp : Ramp) (n : Nat) : Ramp :=
  if rp.count < n then
    { rp with
      count := rp.count + 1
      cur := if rp.count + 1 = n then rp.last else fadd rp.cur rp.step }
  else rp

/-- A ramp at rest on `v` with the given count (R285, R295, R301). -/
def rampAtRest (v : Sample) (count : Nat) : Ramp := ⟨v, v, f0, count⟩

/-- The policy of a time change for a ramp whose length was `nold` and is now `n` (R288, R302): a ramp in
progress restarts from its current value toward the same target; one at rest stays at rest. -/
def rampNewTime (rp : Ramp) (nold n : Nat) : Ramp :=
  if rp.count < nold then rampRetarget rp rp.last n else { rp with count := n }

/-! ### SIG -/

/-- NEW.SIG (R280). -/
def newSigOn (C : Cfg) (u : Byte) (value : XOp) (s : State) : Result :=
  newUnit C u (streamHandles C [value]) true true (freshUnit C 1 nullAddr [xslot value] .sig) s

/-- NEW.SIG. -/
def execNewSig (u : Byte) (value : XOp) (s : State) : Result := newSigOn Config.cfg u value s

/-- COMPUTE on a SIG (R281). -/
def computeSig (C : Cfg) (s : State) (U : DspUnit) : DspUnit :=
  { U with out := (List.range C.bufsize).map (pval C s U 0) }

/-! ### SIGTO -/

/-- NEW.SIGTO (R285). -/
def newSigtoOn (C : Cfg) (u : Byte) (value : XOp) (time init : Sample) (s : State) : Result :=
  newUnit C u (streamHandles C [value]) true true
    (freshUnit C 1 nullAddr [xslot value, fslot time]
      (.sigto ⟨rampAtRest init (rampLen C time), rampLen C time⟩)) s

/-- NEW.SIGTO. -/
def execNewSigto (u : Byte) (value : XOp) (time init : Sample) (s : State) : Result :=
  newSigtoOn Config.cfg u value time init s

/-- A change of target seen by a ramp unit (R289, R306): exact comparison with the last-seen target. -/
def rampSee (rp : Ramp) (t : Sample) (n : Nat) : Ramp :=
  if fne t rp.last then rampRetarget rp t n else rp

/-- One sample of R289. -/
def sigtoSample (n : Nat) (target : Nat → Sample) (rp : Ramp) (i : Nat) : Ramp × Sample :=
  let rp' := rampStep (rampSee rp (target i) n) n
  (rp', rp'.cur)

/-- COMPUTE on a SIGTO (R289). -/
def computeSigto (C : Cfg) (s : State) (U : DspUnit) (g : SigTo) : DspUnit :=
  let run := scan (sigtoSample g.n (pval C s U 0)) g.rp (List.range C.bufsize)
  { U with out := run.2, body := .sigto { g with rp := run.1 } }

/-- SETC on SIGTO slot 1, after the slot has been written (R288). -/
def sigtoNewTime (C : Cfg) (time : Sample) (g : SigTo) : SigTo :=
  { rp := rampNewTime g.rp g.n (rampLen C time), n := rampLen C time }

/-! ### VARPORT -/

/-- NEW.VARPORT (R295, R297). -/
def newVarportOn (C : Cfg) (u : Byte) (value time init : Sample) (s : State) : Result :=
  let n := rampLen C time
  newUnit C u [] true true
    (freshUnit C 1 nullAddr [fslot value, fslot time]
      (.varport ⟨rampAtRest init (n + C.vpExtra), n, n + C.vpExtra, false⟩)) s

/-- NEW.VARPORT. -/
def execNewVarport (u : Byte) (value time init : Sample) (s : State) : Result :=
  newVarportOn Config.cfg u value time init s

/-- The target change a VARPORT sees once, at the start of a block (R299). -/
def varportSee (t : Sample) (v : VarPort) : VarPort :=
  if fne t v.rp.last then { v with rp := rampRetarget v.rp t v.n, active := true } else v

/-- One sample of an active or resting VARPORT (R299). -/
def varportSample (v : VarPort) (_ : Nat) : VarPort × Sample :=
  let rp' :=
    if v.active then
      (if v.rp.count < v.n then rampStep v.rp v.n
       else if v.rp.count < v.timeout then { v.rp with count := v.rp.count + 1 }
       else v.rp)
    else v.rp
  ({ v with rp := rp' }, rp'.cur)

/-- Whether the completion deadline has been reached (R299). -/
def varportDone (v : VarPort) : Bool := v.active && decide (v.timeout ≤ v.rp.count)

/-- COMPUTE on a VARPORT (R299): the completion flag is set once the deadline is reached. -/
def computeVarport (C : Cfg) (U : DspUnit) (v : VarPort) : DspUnit :=
  let run := scan varportSample (varportSee (U.slot 0).c v) (List.range C.bufsize)
  let fin := varportDone run.1
  { U with
    out := run.2
    cb := if fin then true else U.cb
    body := .varport (if fin then { run.1 with active := false } else run.1) }

/-- SETC on VARPORT slot 1, after the slot has been written (R298). -/
def varportNewTime (C : Cfg) (time : Sample) (v : VarPort) : VarPort :=
  let n := rampLen C time
  let rp' :=
    if v.active then
      (if v.rp.count < v.n then rampRetarget v.rp v.rp.last n else v.rp)
    else { v.rp with count := n + C.vpExtra }
  { rp := rp', n := n, timeout := n + C.vpExtra, active := v.active }

/-! ### MIXER -/

/-- NEW.MIXER (R300): an `outs` of 0 becomes 1. -/
def newMixerOn (C : Cfg) (u outs : Byte) (time : Sample) (s : State) : Result :=
  let o := max outs.toNat 1
  newUnit C u [] true true
    (freshUnit C o nullAddr [fslot time] (.mixer ⟨o, rampLen C time, []⟩)) s

/-- NEW.MIXER. -/
def execNewMixer (u outs : Byte) (time : Sample) (s : State) : Result :=
  newMixerOn Config.cfg u outs time s

/-- The gains of a new Mixer entry (R301). -/
def freshGains (m : Mixer) : List Gain := List.replicate m.outs ⟨f0, rampAtRest f0 m.n⟩

/-- The unit of a Mixer command (R303, R304, R305): live, else E_BADUNIT; a MIXER, else E_BADTYPE. -/
def withMixer (C : Cfg) (u : Byte) (s : State) (k : DspUnit → Mixer → Result) : Result :=
  match liveUnit C s u.toNat with
  | none => raise .badUnit s
  | some U => match U.body with
    | .mixer m => k U m
    | _ => raise .badType s

/-- An entry with this key is registered. -/
def hasKey (m : Mixer) (key : Word) : Bool := m.ins.any fun e => decide (e.key = key)

/-- The Mixer after MIXADD (R303): the entry of a known key is re-initialised in its place, a new one is
appended. -/
def mixRegister (m : Mixer) (key : Word) (h : Addr) : Mixer :=
  { m with
    ins :=
      if hasKey m key then
        m.ins.map fun e => if e.key = key then { e with h := h, g := freshGains m } else e
      else m.ins ++ [⟨key, h, freshGains m⟩] }

/-- MIXADD (R303). -/
def mixaddOn (C : Cfg) (u : Byte) (key : Word) (h : Addr) (s : State) : Result :=
  withMixer C u s fun U m =>
    if !bindOk C s u.toNat h C.bufsize then raise .badArg s
    else if !hasKey m key && decide (C.maxmixin ≤ m.ins.length) then raise .alloc s
    else done (putUnit u.toNat { U with body := .mixer (mixRegister m key h) } s)

/-- MIXADD. -/
def execMixadd (u : Byte) (key : Word) (h : Addr) (s : State) : Result := mixaddOn Config.cfg u key h s

/-- MIXDEL (R304). -/
def mixdelOn (C : Cfg) (u : Byte) (key : Word) (s : State) : Result :=
  withMixer C u s fun U m =>
    if !hasKey m key then raise .badKey s
    else done (putUnit u.toNat
      { U with body := .mixer { m with ins := m.ins.filter fun e => decide (e.key ≠ key) } } s)

/-- MIXDEL. -/
def execMixdel (u : Byte) (key : Word) (s : State) : Result := mixdelOn Config.cfg u key s

/-- The gains of an entry with the target of output `o` set (R305). -/
def setTarget (o : Nat) (gain : Sample) (gs : List Gain) : List Gain :=
  gs.modify o fun g => { g with target := gain }

/-- MIXAMP (R305): only the target; the next COMPUTE detects the change. -/
def mixampOn (C : Cfg) (u vout : Byte) (key : Word) (gain : Sample) (s : State) : Result :=
  withMixer C u s fun U m =>
    if !decide (vout.toNat < m.outs) then raise .badArg s
    else if !hasKey m key then raise .badKey s
    else done (putUnit u.toNat
      { U with
        body := .mixer { m with
          ins := m.ins.map fun e =>
            if e.key = key then { e with g := setTarget vout.toNat gain e.g } else e } } s)

/-- MIXAMP. -/
def execMixamp (u vout : Byte) (key : Word) (gain : Sample) (s : State) : Result :=
  mixampOn Config.cfg u vout key gain s

/-- One gain over a block (R306): the retarget test once, then one ramp step per sample. -/
def gainBlock (C : Cfg) (n : Nat) (g : Gain) : Gain × List Sample :=
  let run := scan (fun rp _ => (rampStep rp n, (rampStep rp n).cur)) (rampSee g.rp g.target n)
    (List.range C.bufsize)
  ({ g with rp := run.1 }, run.2)

/-- `out[i] + xin[i] * a[i]` along one output row (R306). -/
def mixRow (xin : List Sample) (row gains : List Sample) : List Sample :=
  List.zipWith fadd row (List.zipWith fmul xin gains)

/-- One entry accumulated onto the output rows (R306). -/
def mixEntry (C : Cfg) (s : State) (n : Nat) (rows : List (List Sample)) (e : MixIn) :
    List (List Sample) × MixIn :=
  let xin := memRead C s e.h C.bufsize
  let gs := e.g.map (gainBlock C n)
  (List.zipWith (mixRow xin) rows (gs.map (·.2)), { e with g := gs.map (·.1) })

/-- COMPUTE on a MIXER (R306): the rows are zeroed, then every entry is accumulated in list order. -/
def computeMixer (C : Cfg) (s : State) (U : DspUnit) (m : Mixer) : DspUnit :=
  let run := scan (mixEntry C s m.n) (List.replicate m.outs (List.replicate C.bufsize f0)) m.ins
  { U with out := run.1.flatten, body := .mixer { m with ins := run.2 } }

/-- SETC on MIXER slot 0, after the slot has been written (R302). -/
def mixerNewTime (C : Cfg) (time : Sample) (m : Mixer) : Mixer :=
  let n := rampLen C time
  { m with
    n := n
    ins := m.ins.map fun e =>
      { e with g := e.g.map fun g => { g with rp := rampNewTime g.rp m.n n } } }

/-! ### SCALE -/

/-- NEW.SCALE (R310). -/
def newScaleOn (C : Cfg) (u : Byte) (inp : Addr) (inmin inmax outmin outmax : XOp) (exp : Sample)
    (s : State) : Result :=
  newUnit C u ((inp, C.bufsize) :: streamHandles C [inmin, inmax, outmin, outmax]) true true
    (freshUnit C 1 inp [xslot inmin, xslot inmax, xslot outmin, xslot outmax, fslot exp] .scale) s

/-- NEW.SCALE. -/
def execNewScale (u : Byte) (inp : Addr) (inmin inmax outmin outmax : XOp) (exp : Sample)
    (s : State) : Result :=
  newScaleOn Config.cfg u inp inmin inmax outmin outmax exp s

/-- One sample of R311. -/
def scaleSample (C : Cfg) (e x imin imax omin omax : Sample) : Sample :=
  let irev := fgt imin imax
  let lo := if irev then imax else imin
  let hi := if irev then imin else imax
  let orev := fgt omin omax
  let olo := if orev then omax else omin
  let ohi := if orev then omin else omax
  let irange := fsub hi lo
  let orange := fsub ohi olo
  if feq irange f0 || feq orange f0 then omin
  else
    let nrm := fdiv (fsub (fclamp x lo hi) lo) irange
    let nrm1 := if irev then fsub f1 nrm else nrm
    let nrm2 := if fne e f1 then C.pow nrm1 e else nrm1
    if orev then fsub ohi (fmul nrm2 orange) else fadd (fmul nrm2 orange) olo

/-- COMPUTE on a SCALE (R311). -/
def computeScale (C : Cfg) (s : State) (U : DspUnit) : DspUnit :=
  { U with
    out := (List.range C.bufsize).map fun i =>
      scaleSample C (U.slot 4).c (inputAt C s U i) (pval C s U 0 i) (pval C s U 1 i) (pval C s U 2 i)
        (pval C s U 3 i) }

end Sys2Proof.Machine
end

