-- ==== Sys2Proof/Machine/Spatial.lean ====
section
/-! DEFINITION. Spatialisation, conversions and resampling: PAN, SWITCH, SELECTOR, CONV, RESAMPLE
(45_spatial_convert_resample.md): the constructors and what `COMPUTE` does to these types. -/

namespace Sys2Proof.Machine

/-! ### The adjacent-pair crossfade -/

/-- What `Xf` returns (R330): the lower channel and the two gains. -/
structure Crossfade where
  j : Nat
  g0 : Sample
  g1 : Sample
deriving DecidableEq, Repr

/-- The position saturated to `[0, N - 1]`; NaN and negatives give 0 (R330). -/
def xfPos (pos : Sample) (N : Nat) : Sample :=
  let hi := ofNat (N - 1)
  if fge pos f0 then (if fgt pos hi then hi else pos) else f0

/-- `Xf(pos, N, lin)` (R330). -/
def crossfade (pos : Sample) (N : Nat) (lin : Bool) : Crossfade :=
  let t := xfPos pos N
  let j := min (ftrunc t).toNat (N - 2)
  let f := fsub t (ofNat j)
  if lin then ⟨j, fsub f1 f, f⟩ else ⟨j, fsqrt (fsub f1 f), fsqrt f⟩

/-- The channel count clamp (R331). -/
def channelCount (n : Byte) : Nat := max n.toNat 2

/-- One sample spread over `N` channels (R333, R341). -/
def spreadRow (x : Sample) (xf : Crossfade) (N : Nat) : List Sample :=
  (List.range N).map fun c =>
    if c = xf.j then fmul x xf.g0 else if c = xf.j + 1 then fmul x xf.g1 else f0

/-! ### PAN -/

/-- NEW.PAN (R332). -/
def newPanOn (C : Cfg) (u chnls : Byte) (lin : Bool) (inp : Addr) (pan : XOp) (s : State) : Result :=
  newUnit C u ((inp, C.bufsize) :: streamHandles C [pan]) true true
    (freshUnit C (channelCount chnls) inp [xslot pan] (.pan ⟨channelCount chnls, lin⟩)) s

/-- NEW.PAN. -/
def execNewPan (u chnls : Byte) (lin : Bool) (inp : Addr) (pan : XOp) (s : State) : Result :=
  newPanOn Config.cfg u chnls lin inp pan s

/-- COMPUTE on a PAN (R333): `pan` is normalised to `[0, 1]`. -/
def computePan (C : Cfg) (s : State) (U : DspUnit) (b : Spread) : DspUnit :=
  { U with
    out := channelMajor b.chnls ((List.range C.bufsize).map fun i =>
      spreadRow (inputAt C s U i)
        (crossfade (fmul (pval C s U 0 i) (ofNat (b.chnls - 1))) b.chnls b.lin) b.chnls) }

/-! ### SWITCH -/

/-- NEW.SWITCH (R340). -/
def newSwitchOn (C : Cfg) (u chnls : Byte) (lin : Bool) (inp : Addr) (voice : XOp) (s : State) :
    Result :=
  newUnit C u ((inp, C.bufsize) :: streamHandles C [voice]) true true
    (freshUnit C (channelCount chnls) inp [xslot voice] (.switch ⟨channelCount chnls, lin⟩)) s

/-- NEW.SWITCH. -/
def execNewSwitch (u chnls : Byte) (lin : Bool) (inp : Addr) (voice : XOp) (s : State) : Result :=
  newSwitchOn Config.cfg u chnls lin inp voice s

/-- COMPUTE on a SWITCH (R341): `voice` is the position itself, in channels. -/
def computeSwitch (C : Cfg) (s : State) (U : DspUnit) (b : Spread) : DspUnit :=
  { U with
    out := channelMajor b.chnls ((List.range C.bufsize).map fun i =>
      spreadRow (inputAt C s U i) (crossfade (pval C s U 0 i) b.chnls b.lin) b.chnls) }

/-! ### SELECTOR -/

/-- NEW.SELECTOR (R345, R346). -/
def newSelectorOn (C : Cfg) (u : Byte) (lin : Bool) (voice : XOp) (inputs : List Addr) (s : State) :
    Result :=
  newUnit C u (streamHandles C [voice] ++ inputs.map fun h => (h, C.bufsize)) true true
    (freshUnit C 1 nullAddr [xslot voice] (.selector ⟨inputs, lin⟩)) s

/-- NEW.SELECTOR: `nin` is the length of the input list (R346), so the field itself is not read again. -/
def execNewSelector (u _nin : Byte) (lin : Bool) (voice : XOp) (inputs : List Addr) (s : State) :
    Result :=
  newSelectorOn Config.cfg u lin voice inputs s

/-- One sample of R347; both products are always formed. -/
def selectSample (C : Cfg) (s : State) (inh : List Addr) (xf : Crossfade) (i : Nat) : Sample :=
  fadd (fmul (elemAt C s (inh.getD xf.j nullAddr) i) xf.g0)
    (fmul (elemAt C s (inh.getD (xf.j + 1) nullAddr) i) xf.g1)

/-- COMPUTE on a SELECTOR (R347). -/
def computeSelector (C : Cfg) (s : State) (U : DspUnit) (b : Selector) : DspUnit :=
  { U with
    out := (List.range C.bufsize).map fun i =>
      selectSample C s b.inh (crossfade (pval C s U 0 i) b.inh.length b.lin) i }

/-! ### CONV -/

/-- `MINAMP`, the Sample nearest 0.000001 (R353). -/
def minAmp : Sample := 0x358637BD#32

/-- `ConvFn(fn, v, ck)` (R353). -/
def convFn (C : Cfg) (fn : Nat) (v ck : Sample) : Sample :=
  match fn with
  | 0 => C.pow (ofNat 10) (fmul (fmax v (ofInt (-120))) (fRat 1 20))
  | 1 => if fle v minAmp then ofInt (-120) else fmul (ofNat 20) (C.log10 v)
  | 2 => fmul (ofNat 440) (C.pow f2 (fdiv (fsub v (ofNat 69)) (ofNat 12)))
  | 3 => fadd (fmul (ofNat 12) (C.log2 (fdiv v (ofNat 440)))) (ofNat 69)
  | 4 => C.pow f2 (fdiv (fsub v ck) (ofNat 12))
  | 5 => C.pow f2 (fdiv v (ofNat 1200))
  | _ => fmul (ofNat 1200) (C.log2 v)

/-- NEW.CONV with function `fn` (R350); `slots` holds `centralkey` for MTOT. -/
def newConvOn (C : Cfg) (fn : Nat) (slots : List Slot) (u : Byte) (inp : Addr) (s : State) : Result :=
  newUnit C u [(inp, C.bufsize)] true true
    (freshUnit C 1 inp slots (.conv ⟨fn, false, f0, f0⟩)) s

/-- NEW.DBTOA (R350, R97). -/
def execNewDbtoa (u : Byte) (inp : Addr) (s : State) : Result := newConvOn Config.cfg 0 [] u inp s

/-- NEW.ATODB (R350, R97). -/
def execNewAtodb (u : Byte) (inp : Addr) (s : State) : Result := newConvOn Config.cfg 1 [] u inp s

/-- NEW.MTOF (R350, R97). -/
def execNewMtof (u : Byte) (inp : Addr) (s : State) : Result := newConvOn Config.cfg 2 [] u inp s

/-- NEW.FTOM (R350, R97). -/
def execNewFtom (u : Byte) (inp : Addr) (s : State) : Result := newConvOn Config.cfg 3 [] u inp s

/-- NEW.MTOT (R350, R97): the one conversion with a slot. -/
def execNewMtot (u : Byte) (inp : Addr) (centralkey : Sample) (s : State) : Result :=
  newConvOn Config.cfg 4 [fslot centralkey] u inp s

/-- NEW.CENTSTOTRANSPO (R350, R97). -/
def execNewCentstotranspo (u : Byte) (inp : Addr) (s : State) : Result :=
  newConvOn Config.cfg 5 [] u inp s

/-- NEW.TRANSPOTOCENTS (R350, R97). -/
def execNewTranspotocents (u : Byte) (inp : Addr) (s : State) : Result :=
  newConvOn Config.cfg 6 [] u inp s

/-- One sample of R351: converted only when the memo does not hold it. -/
def convSample (C : Cfg) (ck : Sample) (x : Nat → Sample) (b : Conv) (i : Nat) : Conv × Sample :=
  let b' :=
    if b.valid && feq (x i) b.lastin then b
    else { b with valid := true, lastin := x i, lastout := convFn C b.fn (x i) ck }
  (b', b'.lastout)

/-- COMPUTE on a CONV (R351). -/
def computeConv (C : Cfg) (s : State) (U : DspUnit) (b : Conv) : DspUnit :=
  let run := scan (convSample C (U.slot 0).c (inputAt C s U)) b (List.range C.bufsize)
  { U with out := run.2, body := .conv run.1 }

/-! ### RESAMPLE -/

/-- `lin`, the input block length (R360). -/
def resampleLin (C : Cfg) (dir : Dir) (factor : Nat) : Nat :=
  match dir with
  | .up => C.bufsize / factor
  | .down => C.bufsize * factor

/-- `Cfg.RSImpulse`, with no state for the filterless tier (R360, R362). -/
def resampleInit (C : Cfg) (dir : Dir) (factor mode : Nat) : List Word :=
  if mode ≤ 1 then [] else C.rsImpulse dir factor mode

/-- NEW.RESAMPLE (R360). -/
def newResampleOn (C : Cfg) (u : Byte) (dir : Dir) (factor : BitVec 7) (mode : Byte) (inp : Addr)
    (s : State) : Result :=
  let f := max factor.toNat 1
  newUnit C u [(inp, resampleLin C dir f)]
    (match dir with
      | .up => decide (C.bufsize % f = 0)
      | .down => true) true
    (freshUnit C 1 inp []
      (.resample ⟨dir, f, mode.toNat, resampleLin C dir f, resampleInit C dir f mode.toNat⟩)) s

/-- NEW.RESAMPLE. -/
def execNewResample (u : Byte) (dir : Dir) (factor : BitVec 7) (mode : Byte) (inp : Addr)
    (s : State) : Result :=
  newResampleOn Config.cfg u dir factor mode inp s

/-- Output sample `i` of the filterless tier (R362): repeat on the way up, decimate on the way down. -/
def filterless (dir : Dir) (factor : Nat) (xin : List Sample) (i : Nat) : Sample :=
  match dir with
  | .up => xin.getD (i / factor) f0
  | .down => xin.getD (i * factor) f0

/-- `Cfg.ResampleStep`, with the filterless tier fixed by R362 for `mode <= 1`. -/
def resampleBlock (C : Cfg) (r : Resample) (xin : List Sample) : (Nat → Sample) × List Word :=
  if r.mode ≤ 1 then (filterless r.dir r.factor xin, r.rs)
  else C.resampleStep r.dir r.factor r.mode r.rs xin

/-- COMPUTE on a RESAMPLE (R361). -/
def computeResample (C : Cfg) (s : State) (U : DspUnit) (r : Resample) : DspUnit :=
  let y := resampleBlock C r (memRead C s U.inp r.lin)
  { U with
    out := (List.range C.bufsize).map y.1
    body := .resample { r with rs := y.2 } }

end Sys2Proof.Machine
end

