-- ==== Sys2Proof/Machine/System.lean ====
section
/-! DEFINITION. The system commands (40_system.md): NOP, DEL, SETC, SETS, SETI, COMPUTE, RESET, GETOUT,
RDCSR, ACK. The per-type hooks and the compute dispatch call the family files. -/

namespace Sys2Proof.Machine

/-- The unit of a command that needs a live one, else E_BADUNIT (60_exceptions.md R371). -/
def withLive (C : Cfg) (u : Byte) (s : State) (k : DspUnit → Result) : Result :=
  match liveUnit C s u.toNat with
  | none => raise .badUnit s
  | some U => k U

/-! ### NOP, DEL, ACK, GETOUT, RDCSR -/

/-- NOP (R130). -/
def execNop (s : State) : Result := done s

/-- DEL (R131). -/
def delOn (C : Cfg) (u : Byte) (s : State) : Result := withLive C u s fun _ => done (dropUnit u.toNat s)

/-- DEL. -/
def execDel (u : Byte) (s : State) : Result := delOn Config.cfg u s

/-- ACK (R140). -/
def ackOn (C : Cfg) (u : Byte) (s : State) : Result :=
  withLive C u s fun U => done (putUnit u.toNat { U with cb := false } s)

/-- ACK. -/
def execAck (u : Byte) (s : State) : Result := ackOn Config.cfg u s

/-- GETOUT (R138). -/
def getoutOn (C : Cfg) (u : Byte) (s : State) : Result :=
  withLive C u s fun _ => doneWith (outAddr u.toNat) s

/-- GETOUT. -/
def execGetout (u : Byte) (s : State) : Result := getoutOn Config.cfg u s

/-- RDCSR (R139). -/
def rdcsrOn (C : Cfg) (n : Byte) (s : State) : Result :=
  match csrValue C s n.toNat with
  | none => raise .badSlot s
  | some v => doneWith v s

/-- RDCSR. -/
def execRdcsr (n : Byte) (s : State) : Result := rdcsrOn Config.cfg n s

/-! ### Parameters -/

/-- `OnSetC(u, slot)` (R142): the hook of the type and slot, on the value just stored. -/
def onSetC (C : Cfg) (slot : Nat) (v : Sample) (b : Body) : Body :=
  match b, slot with
  | .bsplit p, 0 => .bsplit { p with bands := p.bands.map (bsCoeffs C v) }
  | .sigto g, 1 => .sigto (sigtoNewTime C v g)
  | .varport p, 1 => .varport (varportNewTime C v p)
  | .mixer m, 0 => .mixer (mixerNewTime C v m)
  | .conv c, 0 => .conv { c with valid := false }
  | b, _ => b

/-- The unit after SETC (R132): `h` keeps its old content. -/
def setConst (C : Cfg) (slot : Nat) (v : Sample) (U : DspUnit) : DspUnit :=
  { U with
    p := U.p.set slot { U.slot slot with mode := .const, c := v }
    body := onSetC C slot v U.body }

/-- SETC (R132). -/
def setcOn (C : Cfg) (u slot : Byte) (v : Sample) (s : State) : Result :=
  withLive C u s fun U =>
    if slotClass U.body slot.toNat = some .param ∨ slotClass U.body slot.toNat = some .scalar then
      done (putUnit u.toNat (setConst C slot.toNat v U) s)
    else raise .badSlot s

/-- SETC. -/
def execSetc (u slot : Byte) (v : Sample) (s : State) : Result := setcOn Config.cfg u slot v s

/-- The unit after SETS (R133): `c` keeps its old content. -/
def setStream (slot : Nat) (h : Addr) (U : DspUnit) : DspUnit :=
  { U with p := U.p.set slot { U.slot slot with mode := .stream, h := h } }

/-- SETS (R133). -/
def setsOn (C : Cfg) (u slot : Byte) (h : Addr) (s : State) : Result :=
  withLive C u s fun U =>
    if slotClass U.body slot.toNat ≠ some .param then raise .badSlot s
    else if !bindOk C s u.toNat h C.bufsize then raise .badArg s
    else done (putUnit u.toNat (setStream slot.toNat h U) s)

/-- SETS. -/
def execSets (u slot : Byte) (h : Addr) (s : State) : Result := setsOn Config.cfg u slot h s

/-- The integer attribute written (R134, 42_convolution.md R219, R231). -/
def setInteger (v : Word) (b : Body) : Body :=
  match b with
  | .irwinsinc t => .irwinsinc (setType v t)
  | .irpulse t => .irpulse (setType v t)
  | b => b

/-- SETI (R134). -/
def setiOn (C : Cfg) (u slot : Byte) (v : Word) (s : State) : Result :=
  withLive C u s fun U =>
    if slotClass U.body slot.toNat = some .integer then
      done (putUnit u.toNat { U with body := setInteger v U.body } s)
    else raise .badSlot s

/-- SETI. -/
def execSeti (u slot : Byte) (v : Word) (s : State) : Result := setiOn Config.cfg u slot v s

/-! ### COMPUTE -/

/-- The compute rule of the unit's type (R136). -/
def computeUnit (C : Cfg) (s : State) (U : DspUnit) : DspUnit :=
  match U.body with
  | .bsplit b => computeBsplit C s U b
  | .fourband b => computeFourband C s U b
  | .multiband b => computeMultiband C s U b
  | .convolve b => computeConvolve C s U b
  | .irwinsinc b => computeIrwinsinc C s U b
  | .iraverage b => computeIraverage C s U b
  | .irpulse b => computeIrpulse C s U b
  | .irfm b => computeIrfm C s U b
  | .freeverb b => computeFreeverb C s U b
  | .sig => computeSig C s U
  | .sigto b => computeSigto C s U b
  | .varport b => computeVarport C U b
  | .mixer b => computeMixer C s U b
  | .scale => computeScale C s U
  | .resample b => computeResample C s U b
  | .pan b => computePan C s U b
  | .switch b => computeSwitch C s U b
  | .selector b => computeSelector C s U b
  | .conv b => computeConv C s U b

/-- Every handle the unit will read this block names a region (20_memory.md R76). -/
def handlesLive (C : Cfg) (s : State) (U : DspUnit) : Bool :=
  (readHandles C U).all fun h => inRegion C s h.1 h.2

/-- COMPUTE (R135): the liveness check comes before any change of state. -/
def computeOn (C : Cfg) (u : Byte) (s : State) : Result :=
  withLive C u s fun U =>
    if handlesLive C s U then done (putUnit u.toNat (computeUnit C s U) s) else raise .dangling s

/-- COMPUTE. -/
def execCompute (u : Byte) (s : State) : Result := computeOn Config.cfg u s

/-! ### RESET -/

/-- RESET (R137): FREEVERB only. -/
def resetOn (C : Cfg) (u : Byte) (s : State) : Result :=
  withLive C u s fun U =>
    match U.body with
    | .freeverb f => done (putUnit u.toNat { U with body := .freeverb (clearFreeverb f) } s)
    | _ => raise .badType s

/-- RESET. -/
def execReset (u : Byte) (s : State) : Result := resetOn Config.cfg u s

end Sys2Proof.Machine
end

