-- ==== Sys2Proof/Machine/Dispatch.lean ====
section
/-! DEFINITION. `exec`: one arm per command, each one call of that command's own meaning. -/

namespace Sys2Proof.Machine

def exec (i : Instr) (s : State) : Host.Outcome State Fault Refusal :=
  match i with
  | .nop => Sys2Proof.Machine.execNop s
  | .del u => Sys2Proof.Machine.execDel u s
  | .setc u slot value => Sys2Proof.Machine.execSetc u slot value s
  | .sets u slot handle => Sys2Proof.Machine.execSets u slot handle s
  | .compute u => Sys2Proof.Machine.execCompute u s
  | .reset u => Sys2Proof.Machine.execReset u s
  | .getout u => Sys2Proof.Machine.execGetout u s
  | .rdcsr csr => Sys2Proof.Machine.execRdcsr csr s
  | .ack u => Sys2Proof.Machine.execAck u s
  | .mixadd u key handle => Sys2Proof.Machine.execMixadd u key handle s
  | .mixdel u key => Sys2Proof.Machine.execMixdel u key s
  | .mixamp u vout key gain => Sys2Proof.Machine.execMixamp u vout key gain s
  | .seti u slot value => Sys2Proof.Machine.execSeti u slot value s
  | .newBsplit u bands inp mn mx q => Sys2Proof.Machine.execNewBsplit u bands inp mn mx q s
  | .newFourband u inp freq1 freq2 freq3 => Sys2Proof.Machine.execNewFourband u inp freq1 freq2 freq3 s
  | .newMultiband u bands inp => Sys2Proof.Machine.execNewMultiband u bands inp s
  | .newConvolve u inp taps => Sys2Proof.Machine.execNewConvolve u inp taps s
  | .newIrwinsinc u type inp freq bw order => Sys2Proof.Machine.execNewIrwinsinc u type inp freq bw order s
  | .newIraverage u inp order => Sys2Proof.Machine.execNewIraverage u inp order s
  | .newIrpulse u type inp freq bw order => Sys2Proof.Machine.execNewIrpulse u type inp freq bw order s
  | .newIrfm u inp carrier ratio index order => Sys2Proof.Machine.execNewIrfm u inp carrier ratio index order s
  | .newFreeverb u inp size damp mix => Sys2Proof.Machine.execNewFreeverb u inp size damp mix s
  | .newSig u value => Sys2Proof.Machine.execNewSig u value s
  | .newSigto u value time init => Sys2Proof.Machine.execNewSigto u value time init s
  | .newVarport u value time init => Sys2Proof.Machine.execNewVarport u value time init s
  | .newMixer u outs time => Sys2Proof.Machine.execNewMixer u outs time s
  | .newScale u inp inmin inmax outmin outmax exponent => Sys2Proof.Machine.execNewScale u inp inmin inmax outmin outmax exponent s
  | .newResample u dir factor mode inp => Sys2Proof.Machine.execNewResample u dir factor mode inp s
  | .newPan u chnls lin inp pan => Sys2Proof.Machine.execNewPan u chnls lin inp pan s
  | .newSwitch u chnls lin inp voice => Sys2Proof.Machine.execNewSwitch u chnls lin inp voice s
  | .newSelector u nin lin voice inputs => Sys2Proof.Machine.execNewSelector u nin lin voice inputs s
  | .newDbtoa u inp => Sys2Proof.Machine.execNewDbtoa u inp s
  | .newAtodb u inp => Sys2Proof.Machine.execNewAtodb u inp s
  | .newMtof u inp => Sys2Proof.Machine.execNewMtof u inp s
  | .newFtom u inp => Sys2Proof.Machine.execNewFtom u inp s
  | .newMtot u inp centralkey => Sys2Proof.Machine.execNewMtot u inp centralkey s
  | .newCentstotranspo u inp => Sys2Proof.Machine.execNewCentstotranspo u inp s
  | .newTranspotocents u inp => Sys2Proof.Machine.execNewTranspotocents u inp s

end Sys2Proof.Machine
end

