-- ==== Sys2Proof/Machine/HostPort.lean ====
section
/-! DEFINITION. The host port (20_memory.md R68) and the reset input (70_reset_and_hazards.md R410, R411). -/

namespace Sys2Proof.Machine

/-- `HostWrite(a, w)` (R68): a host buffer element only; anything else is refused and changes nothing. -/
def hostWriteOn (C : Cfg) (a : Addr) (w : Word) (s : State) : Result :=
  if kindOf a = 1 ∧ indexOf a < C.nhostbuf ∧ offsetOf a < C.hblen then
    .next { putHostElem C (indexOf a) (offsetOf a) w s with port := .written }
  else .next { s with port := .denied }

/-- `HostRead(a)` (R68): any element that `InRegion(a, 1)` names. -/
def hostReadOn (C : Cfg) (a : Addr) (s : State) : Result :=
  if inRegion C s a 1 then .next { s with port := .data (elemAt C s a 0) }
  else .next { s with port := .denied }

/-- The reset input asserted and released (R410, R411): every piece of the spec's state as after reset,
with a new draw of the unwritten elements (log 3); the moves the host has still to make are its own. -/
def hardReset (s : State) : State :=
  { State.reset with input := s.input, epoch := s.epoch + 1 }

/-- A packet that does not decode is answered with its error (30_encoding.md R95, R99). -/
def rejectPacket (e : Code) (s : State) : Result := raise e s

end Sys2Proof.Machine
end

