-- ==== Sys2Proof/Machine/Step.lean ====
section
/-! DEFINITION. One step of the machine: the next move of the host is taken (00_scope.md R14, 20_memory.md
R70). A packet is decoded and its command run to completion; a host access or a reset is done. With no
move pending the core idles (60_exceptions.md R399; log 8). -/

namespace Sys2Proof.Machine

/-- A packet runs the command it decodes to, or is answered with its error (30_encoding.md R95). -/
def stepPacket (p : Packet) (s : State) : Result :=
  match decode p with
  | .command i => exec i s
  | .badOp => rejectPacket .badOp s
  | .badLen => rejectPacket .badLen s

/-- One move of the host, already taken from the list. -/
def stepMove (m : HostMove) (s : State) : Result :=
  match m with
  | .packet p => stepPacket p s
  | .write a w => hostWriteOn Config.cfg a w s
  | .read a => hostReadOn Config.cfg a s
  | .reset => .next (hardReset s)

/-- One step. -/
def step (s : State) : Host.Outcome State Fault Refusal :=
  match s.input with
  | [] => .next s
  | m :: rest => stepMove m { s with input := rest }

/-- The packet of the opcode-table word `w` presented as the host's next move: the core fetches nothing
from memory (10_state.md R21), it takes the packet the host presents (log 7). -/
def State.withFetchWord (s : State) (nbits w : Nat) : State :=
  { s with input := .packet (tablePacket nbits w) :: s.input }

end Sys2Proof.Machine
end

