-- ==== Sys2Proof/Machine/Defaults.lean ====
section
/-! DEFINITION. The defaults the spec offers for OPEN configuration fields, each marked there "from general
knowledge, not in source" (41_bandsplit.md R176, 42_convolution.md R213, 93_implementation_defined.md U20).
The hardware's own configuration does not take them: its fields are OPEN (log 1). They serve a claim or a
test that fixes a configuration. -/

namespace Sys2Proof.Machine

/-- `SQRT2` of R176. -/
def fSqrt2 : Sample := 0x3FB504F3#32

/-- The default `LR4Coeffs(f, SR)` for a tangent function (41_bandsplit.md R176). -/
def defaultLr4 (tan : Sample → Sample) (f sr : Sample) : Co :=
  let wc := fmul fTwoPi f
  let wc2 := fmul wc wc
  let wc3 := fmul wc2 wc
  let wc4 := fmul wc2 wc2
  let k := fdiv wc (tan (fdiv (fmul fPi f) sr))
  let k2 := fmul k k
  let k3 := fmul k2 k
  let k4 := fmul k2 k2
  let sq1 := fmul (fmul fSqrt2 wc3) k
  let sq2 := fmul (fmul fSqrt2 wc) k3
  let two := ofNat 2
  let four := ofNat 4
  let six := ofNat 6
  let eight := ofNat 8
  let at' := fadd (fadd (fadd (fadd (fmul (fmul four wc2) k2) (fmul two sq1)) k4) (fmul two sq2)) wc4
  let la0 := fdiv wc4 at'
  let ha0 := fdiv k4 at'
  { lp := ⟨la0, fmul four la0, fmul six la0, fmul four la0, la0⟩
    hp := ⟨ha0, fmul (fneg four) ha0, fmul six ha0, fmul (fneg four) ha0, ha0⟩
    b1 := fdiv (fmul four (fsub (fsub (fadd wc4 sq1) k4) sq2)) at'
    b2 := fdiv (fadd (fsub (fmul six wc4) (fmul (fmul eight wc2) k2)) (fmul six k4)) at'
    b3 := fdiv (fmul four (fsub (fadd (fsub wc4 sq1) sq2) k4)) at'
    b4 := fdiv (fadd (fsub (fadd (fsub k4 (fmul two sq1)) wc4) (fmul two sq2))
      (fmul (fmul four wc2) k2)) at' }

/-- Entries 0 to 128 of the default `BLACKMAN257` (42_convolution.md R213): the Samples nearest
`0.42 - 0.5 cos(2 pi j / 256) + 0.08 cos(4 pi j / 256)`. -/
def blackmanHalf : List Sample :=
  [0x00000000#32, 0x386371F5#32, 0x396397ED#32, 0x3A002904#32, 0x3A642F85#32, 0x3AB29DBB#32, 0x3B00E850#32, 0x3B2FF1DC#32] ++
  [0x3B668997#32, 0x3B9268F5#32, 0x3BB578BD#32, 0x3BDC897A#32, 0x3C03D93F#32, 0x3C1B867B#32, 0x3C3559ED#32, 0x3C5161E8#32] ++
  [0x3C6FAD89#32, 0x3C882654#32, 0x3C99A7E5#32, 0x3CAC6409#32, 0x3CC06396#32, 0x3CD5AFA2#32, 0x3CEC5174#32, 0x3D022941#32] ++
  [0x3D0EDE31#32, 0x3D1C4C62#32, 0x3D2A78B2#32, 0x3D396801#32, 0x3D491F2E#32, 0x3D59A30D#32, 0x3D6AF869#32, 0x3D7D23F6#32] ++
  [0x3D881529#32, 0x3D9207FF#32, 0x3D9C6CAC#32, 0x3DA7454C#32, 0x3DB293E3#32, 0x3DBE5A5D#32, 0x3DCA9A8A#32, 0x3DD7561D#32] ++
  [0x3DE48EA6#32, 0x3DF24595#32, 0x3E003E19#32, 0x3E0799D0#32, 0x3E0F366A#32, 0x3E17144E#32, 0x3E1F33CA#32, 0x3E279514#32] ++
  [0x3E30384B#32, 0x3E391D72#32, 0x3E424473#32, 0x3E4BAD1B#32, 0x3E55571B#32, 0x3E5F4208#32, 0x3E696D5A#32, 0x3E73D86A#32] ++
  [0x3E7E8271#32, 0x3E84B547#32, 0x3E8A47DD#32, 0x3E8FF86B#32, 0x3E95C64F#32, 0x3E9BB0D8#32, 0x3EA1B746#32, 0x3EA7D8C7#32] ++
  [0x3EAE147B#32, 0x3EB46972#32, 0x3EBAD6AC#32, 0x3EC15B1A#32, 0x3EC7F59D#32, 0x3ECEA508#32, 0x3ED5681F#32, 0x3EDC3D98#32] ++
  [0x3EE3241A#32, 0x3EEA1A3E#32, 0x3EF11E93#32, 0x3EF82F97#32, 0x3EFF4BBF#32, 0x3F0338B9#32, 0x3F06CF87#32, 0x3F0A6971#32] ++
  [0x3F0E059D#32, 0x3F11A32A#32, 0x3F154133#32, 0x3F18DECE#32, 0x3F1C7B0F#32, 0x3F201507#32, 0x3F23ABC3#32, 0x3F273E4D#32] ++
  [0x3F2ACBAF#32, 0x3F2E52EE#32, 0x3F31D311#32, 0x3F354B1D#32, 0x3F38BA16#32, 0x3F3C1EFF#32, 0x3F3F78DF#32, 0x3F42C6BB#32] ++
  [0x3F460798#32, 0x3F493A81#32, 0x3F4C5E80#32, 0x3F4F72A1#32, 0x3F5275F6#32, 0x3F556792#32, 0x3F58468D#32, 0x3F5B1203#32] ++
  [0x3F5DC914#32, 0x3F606AE7#32, 0x3F62F6A6#32, 0x3F656B82#32, 0x3F67C8B4#32, 0x3F6A0D79#32, 0x3F6C3917#32, 0x3F6E4AD9#32] ++
  [0x3F704215#32, 0x3F721E25#32, 0x3F73DE70#32, 0x3F758261#32, 0x3F770970#32, 0x3F78731A#32, 0x3F79BEE9#32, 0x3F7AEC6F#32] ++
  [0x3F7BFB48#32, 0x3F7CEB1A#32, 0x3F7DBB94#32, 0x3F7E6C72#32, 0x3F7EFD79#32, 0x3F7F6E78#32, 0x3F7FBF49#32, 0x3F7FEFD1#32] ++
  [0x3F800000#32]

/-- The default `BLACKMAN257[j]`; the window is symmetric about entry 128. -/
def defaultBlackman (j : Nat) : Sample := blackmanHalf.getD (if j ≤ 128 then j else 256 - j) f0

/-- The usual comb base lengths (93_implementation_defined.md U20). -/
def defaultCombBase (c : Nat) : Sample :=
  ofNat ([1116, 1188, 1277, 1356, 1422, 1491, 1557, 1617].getD c 0)

/-- The usual all-pass base lengths (93_implementation_defined.md U20). -/
def defaultApBase (a : Nat) : Sample := ofNat ([556, 441, 341, 225].getD a 0)

/-- The usual `FV_GAIN`, 0.015 (93_implementation_defined.md U20). -/
def defaultFvGain : Sample := fRat 15 1000

/-- The usual `FB_SCALE`, 0.28 (93_implementation_defined.md U20). -/
def defaultFbScale : Sample := fRat 28 100

/-- The usual `FB_OFFSET`, 0.7 (93_implementation_defined.md U20). -/
def defaultFbOffset : Sample := fRat 7 10

/-- The usual `DAMP_SCALE`, 0.4 (93_implementation_defined.md U20). -/
def defaultDampScale : Sample := fRat 4 10

end Sys2Proof.Machine
end

