-- ==== Sys2Proof/Safety.lean ====
section
/-! DEFINITION. What counts as a sound state (10_state.md R42 and the state rules R22 to R40), and the terms
in which claims say what a command leaves alone, what it answers and what a new unit holds. -/

namespace Sys2Proof.Machine

/-! ### Sound units (R42) -/

/-- The number of output channels a unit of this type and state has (10_state.md R23). -/
def Body.channels : Body → Nat
  | .bsplit b => b.bands.length
  | .fourband b | .multiband b => b.bounds.length + 1
  | .mixer m => m.outs
  | .pan b | .switch b => b.chnls
  | .convolve _ | .irwinsinc _ | .iraverage _ | .irpulse _ | .irfm _ | .freeverb _ | .sig
  | .sigto _ | .varport _ | .scale | .resample _ | .selector _ | .conv _ => 1

/-- Boundary `k` of `B` holds the correction sections of the `B - 1 - k` boundaries above it (R32). -/
def boundsShaped : List Boundary → Prop
  | [] => True
  | b :: bs => b.corr.length = bs.length ∧ boundsShaped bs

/-- The cursor is inside the ring, and there are as many taps as ring elements (R33). -/
structure Engine.Wf (C : Cfg) (e : Engine) : Prop where
  ring_pos : 1 ≤ e.ring.length
  ring_le : e.ring.length ≤ C.maxtaps
  imp_length : e.imp.length = e.ring.length
  wc_lt : e.wc < e.ring.length

/-- An engine of a synthesising type: `N = order + 1` with `order` even. -/
structure Engine.Ordered (C : Cfg) (order : Nat) (e : Engine) : Prop extends Engine.Wf C e where
  length_eq : e.ring.length = order + 1
  even : order % 2 = 0
  two_le : 2 ≤ order

/-- The rings of a FREEVERB have the lengths its seed and jitter gave them, all within `MAXDELAY`, and
every cursor is inside its ring (R34; 43_freeverb.md R250). -/
structure Freeverb.Wf (C : Cfg) (f : Freeverb) : Prop where
  jit_eq : f.jit = jitterOf C f.seed
  comb_lengths : f.combs.map (fun c => c.buf.length) = combLens C f.jit
  ap_lengths : f.aps.map (fun a => a.buf.length) = apLens C f.jit
  fits : delaysFit C f.jit = true
  comb_pos : ∀ c ∈ f.combs, c.pos < c.buf.length
  ap_pos : ∀ a ∈ f.aps, a.pos < a.buf.length

/-- MIXER (R36): keys pairwise distinct, one gain per output, every counter saturates at `n`. -/
structure Mixer.Wf (C : Cfg) (m : Mixer) : Prop where
  outs_pos : 1 ≤ m.outs
  outs_le : m.outs ≤ 255
  ins_le : m.ins.length ≤ C.maxmixin
  keys : (m.ins.map (·.key)).Nodup
  gains : ∀ e ∈ m.ins, e.g.length = m.outs
  counts : ∀ e ∈ m.ins, ∀ g ∈ e.g, g.rp.count ≤ m.n

/-- RESAMPLE (R40; 45_spatial_convert_resample.md R360). -/
structure Resample.Wf (C : Cfg) (r : Resample) : Prop where
  factor_pos : 1 ≤ r.factor
  factor_le : r.factor ≤ 127
  mode_le : r.mode ≤ 255
  lin_eq : r.lin = resampleLin C r.dir r.factor
  divides : r.dir = .up → C.bufsize % r.factor = 0

/-- The type-specific state is one that R30 to R40 and R42 allow. -/
def Body.Wf (C : Cfg) : Body → Prop
  | .bsplit b => 1 ≤ b.bands.length ∧ b.bands.length ≤ C.maxbands
  | .fourband b => b.bounds.length = 3 ∧ boundsShaped b.bounds
  | .multiband b => 1 ≤ b.bounds.length ∧ b.bounds.length ≤ 15 ∧ boundsShaped b.bounds
  | .convolve e => e.Wf C
  | .irwinsinc t | .irpulse t => t.eng.Ordered C t.order ∧ t.type ≤ 3
  | .iraverage t => t.eng.Ordered C t.order
  | .irfm t => t.eng.Ordered C t.order
  | .freeverb f => f.Wf C
  | .sig | .scale => True
  | .sigto g => g.rp.count ≤ g.n
  | .varport v => v.timeout = v.n + C.vpExtra
  | .mixer m => m.Wf C
  | .resample r => r.Wf C
  | .pan b | .switch b => 2 ≤ b.chnls ∧ b.chnls ≤ 255
  | .selector l => 2 ≤ l.inh.length ∧ l.inh.length ≤ 255
  | .conv c => c.fn ≤ 6

/-- The unit in slot `u` is sound: its output buffer has `nch * BUFSIZE` elements and the channels of its
type, there are 16 slots of which only those of class `P` stream, a unit without an input holds NULL, no
handle it reads is into its own output (20_memory.md R75), only a VARPORT has its completion flag set
(60_exceptions.md R390), and the type-specific state is sound. -/
structure DspUnit.Wf (C : Cfg) (u : Nat) (U : DspUnit) : Prop where
  nch_eq : U.nch = U.body.channels
  out_length : U.out.length = U.nch * C.bufsize
  slots : U.p.length = 16
  streams : ∀ k, (U.slot k).mode = .stream → slotClass U.body k = some .param
  no_input : readsInput U.body = false → U.inp = nullAddr
  not_own : ∀ h ∈ readHandles C U, ¬ (kindOf h.1 = 2 ∧ indexOf h.1 = u)
  cb_varport : U.cb = true → typeCode U.body = 12
  body : U.body.Wf C

/-! ### Sound states -/

/-- The machine is in a state the rules allow: the unit table holds sound units in slots that exist, the
host buffers are in canonical form (the model's choice, log 3), and LASTERR and FAULTS hold response codes 1
to 9, the last of which is recorded among all (10_state.md R26, 60_exceptions.md R371). -/
structure State.Inv (C : Cfg) (s : State) : Prop where
  units_sorted : tableSorted s.units = true
  units_exist : ∀ e ∈ s.units, e.1 < C.nunits
  units_wf : ∀ e ∈ s.units, e.2.Wf C e.1
  hb_wf : Memory.wf C s.epoch s.hb = true
  faults_codes : s.faults &&& 0xFFFFFC01#32 = 0#32
  lasterr_code : (s.lasterr = 0#32 ∧ s.faults = 0#32) ∨
    (1 ≤ s.lasterr.toNat ∧ s.lasterr.toNat ≤ 9 ∧ s.faults.getLsbD s.lasterr.toNat = true)

/-! ### The rows of the opcode table (30_encoding.md R96) -/

/-- A row's columns `mask` and `match`, over the header word. -/
structure HeaderRow where
  mask : Word
  pattern : Word
deriving DecidableEq, Repr

/-- The row of a command. -/
def rowOf : Instr → HeaderRow
  | .nop => ⟨0xFFFFFFFF#32, 0x00000000#32⟩
  | .del _ => ⟨0xFF00FFFF#32, 0x01000000#32⟩
  | .setc _ _ _ => ⟨0xFF0000FF#32, 0x02000000#32⟩
  | .sets _ _ _ => ⟨0xFF0000FF#32, 0x03000000#32⟩
  | .compute _ => ⟨0xFF00FFFF#32, 0x04000000#32⟩
  | .reset _ => ⟨0xFF00FFFF#32, 0x05000000#32⟩
  | .getout _ => ⟨0xFF00FFFF#32, 0x06000000#32⟩
  | .rdcsr _ => ⟨0xFFFF00FF#32, 0x07000000#32⟩
  | .ack _ => ⟨0xFF00FFFF#32, 0x08000000#32⟩
  | .mixadd _ _ _ => ⟨0xFF00FFFF#32, 0x09000000#32⟩
  | .mixdel _ _ => ⟨0xFF00FFFF#32, 0x0A000000#32⟩
  | .mixamp _ _ _ _ => ⟨0xFF00FF00#32, 0x0B000000#32⟩
  | .seti _ _ _ => ⟨0xFF0000FF#32, 0x0C000000#32⟩
  | .newBsplit _ _ _ _ _ _ => ⟨0xFF00FE00#32, 0x10000000#32⟩
  | .newFourband _ _ _ _ _ => ⟨0xFF00F8FF#32, 0x11000000#32⟩
  | .newMultiband _ _ _ => ⟨0xFF00FF00#32, 0x12000000#32⟩
  | .newConvolve _ _ _ => ⟨0xFF00FFFF#32, 0x13000000#32⟩
  | .newIrwinsinc _ _ _ _ _ _ => ⟨0xFF00FC00#32, 0x14000000#32⟩
  | .newIraverage _ _ _ => ⟨0xFF00FFFF#32, 0x15000000#32⟩
  | .newIrpulse _ _ _ _ _ _ => ⟨0xFF00FC00#32, 0x16000000#32⟩
  | .newIrfm _ _ _ _ _ _ => ⟨0xFF00F8FF#32, 0x17000000#32⟩
  | .newFreeverb _ _ _ _ _ => ⟨0xFF00F8FF#32, 0x18000000#32⟩
  | .newSig _ _ => ⟨0xFF00FEFF#32, 0x19000000#32⟩
  | .newSigto _ _ _ _ => ⟨0xFF00FEFF#32, 0x1A000000#32⟩
  | .newVarport _ _ _ _ => ⟨0xFF00FFFF#32, 0x1B000000#32⟩
  | .newMixer _ _ _ => ⟨0xFF00FF00#32, 0x1C000000#32⟩
  | .newScale _ _ _ _ _ _ _ => ⟨0xFF00F0FF#32, 0x1D000000#32⟩
  | .newResample _ _ _ _ _ => ⟨0xFF000000#32, 0x1E000000#32⟩
  | .newPan _ _ _ _ _ => ⟨0xFF007E00#32, 0x1F000000#32⟩
  | .newSwitch _ _ _ _ _ => ⟨0xFF007E00#32, 0x20000000#32⟩
  | .newSelector _ _ _ _ _ => ⟨0xFF007E00#32, 0x21000000#32⟩
  | .newDbtoa _ _ => ⟨0xFF00FFFF#32, 0x22000000#32⟩
  | .newAtodb _ _ => ⟨0xFF00FFFF#32, 0x22000001#32⟩
  | .newMtof _ _ => ⟨0xFF00FFFF#32, 0x22000002#32⟩
  | .newFtom _ _ => ⟨0xFF00FFFF#32, 0x22000003#32⟩
  | .newMtot _ _ _ => ⟨0xFF00FFFF#32, 0x22000004#32⟩
  | .newCentstotranspo _ _ => ⟨0xFF00FFFF#32, 0x22000005#32⟩
  | .newTranspotocents _ _ => ⟨0xFF00FFFF#32, 0x22000006#32⟩

/-- The rows of the table, in its order. -/
def headerRows : List HeaderRow :=
  [⟨0xFFFFFFFF#32, 0x00000000#32⟩, ⟨0xFF00FFFF#32, 0x01000000#32⟩, ⟨0xFF0000FF#32, 0x02000000#32⟩] ++
  [⟨0xFF0000FF#32, 0x03000000#32⟩, ⟨0xFF00FFFF#32, 0x04000000#32⟩, ⟨0xFF00FFFF#32, 0x05000000#32⟩] ++
  [⟨0xFF00FFFF#32, 0x06000000#32⟩, ⟨0xFFFF00FF#32, 0x07000000#32⟩, ⟨0xFF00FFFF#32, 0x08000000#32⟩] ++
  [⟨0xFF00FFFF#32, 0x09000000#32⟩, ⟨0xFF00FFFF#32, 0x0A000000#32⟩, ⟨0xFF00FF00#32, 0x0B000000#32⟩] ++
  [⟨0xFF0000FF#32, 0x0C000000#32⟩, ⟨0xFF00FE00#32, 0x10000000#32⟩, ⟨0xFF00F8FF#32, 0x11000000#32⟩] ++
  [⟨0xFF00FF00#32, 0x12000000#32⟩, ⟨0xFF00FFFF#32, 0x13000000#32⟩, ⟨0xFF00FC00#32, 0x14000000#32⟩] ++
  [⟨0xFF00FFFF#32, 0x15000000#32⟩, ⟨0xFF00FC00#32, 0x16000000#32⟩, ⟨0xFF00F8FF#32, 0x17000000#32⟩] ++
  [⟨0xFF00F8FF#32, 0x18000000#32⟩, ⟨0xFF00FEFF#32, 0x19000000#32⟩, ⟨0xFF00FEFF#32, 0x1A000000#32⟩] ++
  [⟨0xFF00FFFF#32, 0x1B000000#32⟩, ⟨0xFF00FF00#32, 0x1C000000#32⟩, ⟨0xFF00F0FF#32, 0x1D000000#32⟩] ++
  [⟨0xFF000000#32, 0x1E000000#32⟩, ⟨0xFF007E00#32, 0x1F000000#32⟩, ⟨0xFF007E00#32, 0x20000000#32⟩] ++
  [⟨0xFF007E00#32, 0x21000000#32⟩, ⟨0xFF00FFFF#32, 0x22000000#32⟩, ⟨0xFF00FFFF#32, 0x22000001#32⟩] ++
  [⟨0xFF00FFFF#32, 0x22000002#32⟩, ⟨0xFF00FFFF#32, 0x22000003#32⟩, ⟨0xFF00FFFF#32, 0x22000004#32⟩] ++
  [⟨0xFF00FFFF#32, 0x22000005#32⟩, ⟨0xFF00FFFF#32, 0x22000006#32⟩]

/-! ### The unit a command names -/

/-- The `unit` field of a command that has one (30_encoding.md R96). -/
def unitField : Instr → Option Byte
  | .nop | .rdcsr _ => none
  | .del u | .setc u _ _ | .sets u _ _ | .compute u | .reset u | .getout u | .ack u
  | .mixadd u _ _ | .mixdel u _ | .mixamp u _ _ _ | .seti u _ _
  | .newBsplit u _ _ _ _ _ | .newFourband u _ _ _ _ | .newMultiband u _ _ | .newConvolve u _ _
  | .newIrwinsinc u _ _ _ _ _ | .newIraverage u _ _ | .newIrpulse u _ _ _ _ _
  | .newIrfm u _ _ _ _ _ | .newFreeverb u _ _ _ _ | .newSig u _ | .newSigto u _ _ _
  | .newVarport u _ _ _ | .newMixer u _ _ | .newScale u _ _ _ _ _ _ | .newResample u _ _ _ _
  | .newPan u _ _ _ _ | .newSwitch u _ _ _ _ | .newSelector u _ _ _ _ | .newDbtoa u _
  | .newAtodb u _ | .newMtof u _ | .newFtom u _ | .newMtot u _ _ | .newCentstotranspo u _
  | .newTranspotocents u _ => some u

/-- The command is a `NEW.*`. -/
def isNew : Instr → Bool
  | .nop | .del _ | .setc _ _ _ | .sets _ _ _ | .compute _ | .reset _ | .getout _ | .rdcsr _
  | .ack _ | .mixadd _ _ _ | .mixdel _ _ | .mixamp _ _ _ _ | .seti _ _ _ => false
  | .newBsplit _ _ _ _ _ _ | .newFourband _ _ _ _ _ | .newMultiband _ _ _ | .newConvolve _ _ _
  | .newIrwinsinc _ _ _ _ _ _ | .newIraverage _ _ _ | .newIrpulse _ _ _ _ _ _
  | .newIrfm _ _ _ _ _ _ | .newFreeverb _ _ _ _ _ | .newSig _ _ | .newSigto _ _ _ _
  | .newVarport _ _ _ _ | .newMixer _ _ _ | .newScale _ _ _ _ _ _ _ | .newResample _ _ _ _ _
  | .newPan _ _ _ _ _ | .newSwitch _ _ _ _ _ | .newSelector _ _ _ _ _ | .newDbtoa _ _
  | .newAtodb _ _ | .newMtof _ _ | .newFtom _ _ | .newMtot _ _ _ | .newCentstotranspo _ _
  | .newTranspotocents _ _ => true

/-! ### What a command leaves alone, and what it answers -/

/-- Everything but unit slot `u` and the answer at the port is the same in `t` as in `s`; in particular
every element of buffer space that is not in the output of unit `u`. -/
structure State.Frame (C : Cfg) (u : Nat) (s t : State) : Prop where
  units : ∀ v, v ≠ u → tableGet t.units v = tableGet s.units v
  hb : t.hb = s.hb
  elements : ∀ a i, ¬ (kindOf a = 2 ∧ indexOf a = u) → elemAt? C t a i = elemAt? C s a i
  seedcnt : t.seedcnt = s.seedcnt
  lasterr : t.lasterr = s.lasterr
  faults : t.faults = s.faults
  input : t.input = s.input
  epoch : t.epoch = s.epoch

/-- The command ended `(OK, 0)` and touched nothing outside unit slot `u`. -/
structure State.Did (C : Cfg) (u : Nat) (s t : State) : Prop extends State.Frame C u s t where
  port : t.port = .response ⟨.ok, 0#32⟩

/-- The command ended with code `e`, and its whole effect is the one R372 gives. -/
def State.Erred (e : Code) (s t : State) : Prop :=
  t = { s with
    lasterr := BitVec.ofNat 32 e.num
    faults := s.faults ||| BitVec.ofNat 32 (2 ^ e.num)
    port := .response ⟨e, 0#32⟩ }

/-- `V` differs from `U` at most in its output samples, its completion flag and its type-specific state,
and its output buffer is as long: what COMPUTE may touch of its own unit. -/
structure DspUnit.Same (U V : DspUnit) : Prop where
  nch : V.nch = U.nch
  inp : V.inp = U.inp
  p : V.p = U.p
  type : typeCode V.body = typeCode U.body

/-! ### New units (40_system.md R141) -/

/-- `NewCommon` with the slots of the operands: `nch` channels of `+0.0`, no completion pending, every
slot that no operand sets at `{CONST, +0.0, NULL}`. -/
structure DspUnit.Fresh (C : Cfg) (nch : Nat) (inh : Addr) (slots : List Slot) (U : DspUnit) : Prop where
  nch_eq : U.nch = nch
  out_length : U.out.length = nch * C.bufsize
  out_zero : ∀ x ∈ U.out, x = f0
  inp_eq : U.inp = inh
  cb_eq : U.cb = false
  slots_length : U.p.length = 16
  slots_eq : ∀ k, U.slot k = slots.getD k blankSlot

/-- Command `i` builds a unit in the FREE slot `u` and leaves everything else alone: the unit has the
common fields of R141 and the given type-specific state. -/
def Builds (C : Cfg) (i : Instr) (u nch : Nat) (inh : Addr) (slots : List Slot) (body : Body)
    (s : State) : Prop :=
  ∃ t U, exec i s = .next t ∧ s.Did C u t ∧ liveUnit C t u = some U ∧ U.Fresh C nch inh slots ∧
    U.body = body

/-- The handles a `NEW.* u` is about to bind name regions and none is into `u` (20_memory.md R75). -/
def Bindable (C : Cfg) (s : State) (u : Nat) (inputs : List Addr) (xs : List XOp) : Prop :=
  (∀ a ∈ inputs, bindOk C s u a C.bufsize = true) ∧
  ∀ h, XOp.stream h ∈ xs → bindOk C s u h C.bufsize = true

/-! ### Computing -/

/-- `COMPUTE u` turns the live unit `U` into `V` and touches nothing else. -/
def Computes (C : Cfg) (u : Byte) (s : State) (U V : DspUnit) : Prop :=
  ∃ t, exec (.compute u) s = .next t ∧ s.Did C u.toNat t ∧ liveUnit C t u.toNat = some V ∧ U.Same V

/-- Unit `u` is live, holds `U`, and every handle it will read names a region: the conditions under which
`COMPUTE u` computes (40_system.md R135). -/
def Ready (C : Cfg) (u : Byte) (s : State) (U : DspUnit) : Prop :=
  liveUnit C s u.toNat = some U ∧ handlesLive C s U = true

/-- The engine `e` run over the `n` samples `x 0, .., x (n-1)` gives `out` and ends as `e'` (42_convolution.md
R200), told by what it goes through: `ring i` and `wc i` before sample `i`, and the partial sums `acc i k` of
its output, `k` terms added from `+0.0` upward. -/
def Engine.Runs (x : Nat → Sample) (n : Nat) (e e' : Engine) (out : List Sample) : Prop :=
  ∃ (ring : Nat → List Sample) (wc : Nat → Nat) (acc : Nat → Nat → Sample),
    ring 0 = e.ring ∧ wc 0 = e.wc ∧
    (∀ i, i < n →
      ring (i + 1) = (ring i).set (wc i) (x i) ∧
      wc (i + 1) = (wc i + 1) % e.ring.length ∧
      acc i 0 = f0 ∧
      (∀ k, k < e.ring.length → acc i (k + 1) = fadd (acc i k)
        (fmul ((ring (i + 1)).getD ((wc i + e.ring.length - k) % e.ring.length) f0)
          (e.imp.getD k f0))) ∧
      out[i]? = some (acc i e.ring.length)) ∧
    out.length = n ∧ e' = { e with ring := ring n, wc := wc n }

/-! ### Synthesised impulses, tap by tap (42_convolution.md R209, R212, R214 to R216, R223) -/

/-- `taps` is `Normalize(raw)` (R209): `sum i` is the sum of the taps below `i`, added from `+0.0` upward. -/
def NormalisedTaps (raw taps : List Sample) : Prop :=
  ∃ sum : Nat → Sample, sum 0 = f0 ∧
    (∀ (i : Nat) (x : Sample), raw[i]? = some x → sum (i + 1) = fadd (sum i) x) ∧
    taps.length = raw.length ∧
    ∀ (i : Nat) (x : Sample), raw[i]? = some x →
      taps[i]? = some (if fne (sum raw.length) f0 = true then fdiv x (sum raw.length) else x)

/-- `w` is `Win(i, order)` (R212): the table at place `i * 256 / order`, linearly interpolated. -/
def WindowTap (C : Cfg) (order i : Nat) (w : Sample) : Prop :=
  let pos := fdiv (fmul (ofNat i) (ofNat 256)) (ofNat order)
  let j := (ftrunc pos).toNat
  (256 ≤ j → w = C.blackman 256) ∧
  (j < 256 → w = fadd (C.blackman j)
    (fmul (fsub (C.blackman (j + 1)) (C.blackman j)) (fsub pos (ofNat j))))

/-- `taps` is `LowPass(fhz, order)` (R214). -/
def LowPassTaps (C : Cfg) (fhz : Sample) (order : Nat) (taps : List Sample) : Prop :=
  let half := order / 2
  let w := fmul fTwoPi (fdiv fhz C.sr)
  ∃ (raw : List Sample) (win : Nat → Sample), raw.length = order + 1 ∧
    (∀ i, i ≤ order → WindowTap C order i (win i) ∧
      raw[i]? = some (fmul
        (if i = half then w
          else fdiv (C.sin (fmul w (ofInt ((i : Int) - half)))) (ofInt ((i : Int) - half)))
        (win i))) ∧
    NormalisedTaps raw taps

/-- `taps` is `Invert(t, order)` (R215): every tap negated, then 1 added at the centre. -/
def InvertedTaps (t : List Sample) (order : Nat) (taps : List Sample) : Prop :=
  taps.length = t.length ∧
  ∀ (i : Nat) (x : Sample), t[i]? = some x →
    taps[i]? = some (if i = order / 2 then fadd (fneg x) f1 else fneg x)

/-- `taps` is the band-reject impulse between the edges `lo` and `hi` (R216, type 2). -/
def BandRejectTaps (C : Cfg) (lo hi : Sample) (order : Nat) (taps : List Sample) : Prop :=
  ∃ low high inv : List Sample, LowPassTaps C lo order low ∧ LowPassTaps C hi order high ∧
    InvertedTaps high order inv ∧ taps.length = order + 1 ∧
    ∀ (i : Nat) (x y : Sample), low[i]? = some x → inv[i]? = some y → taps[i]? = some (fadd x y)

/-- `taps` is `WinSincImpulse(type, f, bw, order)` (R216): low-pass, high-pass, band-reject and, from 3 on,
band-pass; frequency, bandwidth and both band edges are clamped to `[1, SR / 2]` (R208). -/
def WinSincTaps (C : Cfg) (type : Nat) (f bw : Sample) (order : Nat) (taps : List Sample) : Prop :=
  let clampHz : Sample → Sample := fun x => fclamp x f1 (fdiv C.sr f2)
  let lo := clampHz (fsub (clampHz f) (fdiv (clampHz bw) f2))
  let hi := clampHz (fadd (clampHz f) (fdiv (clampHz bw) f2))
  match type with
  | 0 => LowPassTaps C (clampHz f) order taps
  | 1 => ∃ t, LowPassTaps C (clampHz f) order t ∧ InvertedTaps t order taps
  | 2 => BandRejectTaps C lo hi order taps
  | _ => ∃ t, BandRejectTaps C lo hi order t ∧ InvertedTaps t order taps

/-- `taps` is `AverageImpulse(order)` (R223): the window, normalised. -/
def AverageTaps (C : Cfg) (order : Nat) (taps : List Sample) : Prop :=
  ∃ raw : List Sample, raw.length = order + 1 ∧
    (∀ i, i ≤ order → ∃ w, WindowTap C order i w ∧ raw[i]? = some w) ∧ NormalisedTaps raw taps

end Sys2Proof.Machine
end

