-- ==== Sys2Proof/Certificates/Slice0/Obligations.lean ====
section
/-! DEFINITION. The statements for the provers. `cfg` is the hardware's own configuration, OPEN but for the
constraints of 00_scope.md R4; `inp` is the spec's field `in`. -/

open Sys2Proof Sys2Proof.Machine
open Sys2Proof.Config (cfg)

/-! ### Encoding (30_encoding.md) -/

/-- Decoding the encoding of any well-formed command gives it back: no bit of an operand is dropped. -/
def Obligations.DecodeEncodeRoundTrip : Prop :=
  ∀ i : Instr, i.wellFormed = true → decode (encode i) = .command i

/-- A packet that decodes to a command is that command's one encoding, and the command is well formed. -/
def Obligations.EncodeDecodeRoundTrip : Prop :=
  ∀ (p : Packet) (i : Instr), decode p = .command i → encode i = p ∧ i.wellFormed = true

/-- R95 steps 1 and 2, R99: a packet is `E_BADOP` exactly when no row of R96 selects its header. -/
def Obligations.BadOpExactlyOutsideTheTable : Prop :=
  ∀ p : Packet, decode p = .badOp ↔ ∀ row ∈ headerRows, p.header &&& row.mask ≠ row.pattern

/-- R95 step 3: a packet is `E_BADLEN` exactly when a row selects its header and the number of its operand
words is not the one R94 gives. -/
def Obligations.BadLenExactlyOnWrongLength : Prop :=
  ∀ p : Packet, decode p = .badLen ↔
    (∃ row ∈ headerRows, p.header &&& row.mask = row.pattern) ∧
      operandCount p.header p.operands ≠ some p.operands.length

/-- R105: the worked encodings, in both directions. -/
def Obligations.WorkedEncodings : Prop :=
  ∀ e ∈ ([(.compute 3#8, ⟨0x04030000#32, []⟩),
      (.setc 3#8 0#8 0x40200000#32, ⟨0x02030000#32, [0x40200000#32]⟩),
      (.sets 3#8 0#8 0x81400000#32, ⟨0x03030000#32, [0x81400000#32]⟩),
      (.newBsplit 1#8 4#8 0x40000000#32 0x42C80000#32 0x461C4000#32 (.const 0x3F800000#32),
        ⟨0x10010004#32, [0x40000000#32, 0x42C80000#32, 0x461C4000#32, 0x3F800000#32]⟩),
      (.newFreeverb 2#8 0x40000000#32 (.const 0x3F000000#32) (.stream 0x40400000#32)
          (.const 0x3E800000#32),
        ⟨0x18020200#32, [0x40000000#32, 0x3F000000#32, 0x40400000#32, 0x3E800000#32]⟩),
      (.rdcsr 6#8, ⟨0x07000600#32, []⟩)] : List (Instr × Packet)),
    encode e.1 = e.2 ∧ decode e.2 = .command e.1

/-! ### Events (20_memory.md R68, R70; 30_encoding.md R98; 60_exceptions.md R372; 70_reset_and_hazards.md R411) -/

/-- When the host's next move presents a packet, the move is taken: a packet that decodes to a command runs
that command, and one that does not is answered with its error (R95, R99, R372). -/
def Obligations.StepRunsDecodedInstruction : Prop :=
  ∀ (s : State) (p : Packet) (rest : List HostMove), s.input = .packet p :: rest →
    (∀ i, decode p = .command i →
      i.wellFormed = true ∧ step s = exec i { s with input := rest }) ∧
    (decode p = .badOp → ∃ t, step s = .next t ∧ State.Erred .badOp { s with input := rest } t) ∧
    (decode p = .badLen → ∃ t, step s = .next t ∧ State.Erred .badLen { s with input := rest } t)

/-- R98: every packet yields exactly one response, and a value other than 0 comes only from GETOUT and
RDCSR ending `OK`. -/
def Obligations.EveryPacketAnswered : Prop :=
  ∀ (s : State) (p : Packet) (rest : List HostMove), s.input = .packet p :: rest →
    ∃ t code value, step s = .next t ∧ t.port = .response ⟨code, value⟩ ∧ t.input = rest ∧
      (value ≠ 0#32 → code = .ok ∧
        ((∃ u, decode p = .command (.getout u)) ∨ ∃ n, decode p = .command (.rdcsr n)))

/-- R372: an error changes LASTERR, FAULTS and the response and nothing else, so that but for the two
registers the state is the one a NOP leaves; a command that ends `OK` leaves both registers. -/
def Obligations.ErrorsArePrecise : Prop :=
  ∀ (s t : State) (p : Packet) (rest : List HostMove) (code : Code) (value : Word),
    s.input = .packet p :: rest → step s = .next t → t.port = .response ⟨code, value⟩ →
      (code ≠ .ok →
        t.lasterr = BitVec.ofNat 32 code.num ∧
        t.faults = s.faults ||| BitVec.ofNat 32 (2 ^ code.num) ∧ value = 0#32 ∧
        exec .nop { s with input := rest } =
          .next { t with lasterr := s.lasterr, faults := s.faults, port := .response ⟨.ok, 0#32⟩ }) ∧
      (code = .ok → t.lasterr = s.lasterr ∧ t.faults = s.faults)

/-- R68: a host write to a host-buffer element stores the word there and changes no other element; a host
read returns the element; a host access that does not meet its requirement changes nothing. That it is
shown as `denied`, and that the move is taken, is the model's (logs 9, 10). -/
def Obligations.HostPortAccesses : Prop :=
  ∀ (s : State) (rest : List HostMove), State.Inv cfg s →
    (∀ (a : Addr) (w : Word), s.input = .write a w :: rest →
      if kindOf a = 1 ∧ indexOf a < cfg.nhostbuf ∧ offsetOf a < cfg.hblen then
        ∃ m, step s = .next { s with input := rest, port := .written, hb := m } ∧
          elemAt? cfg { s with hb := m } a 0 = some w ∧
          ∀ (b : Addr) (j : Nat),
            ¬ (kindOf b = 1 ∧ indexOf b = indexOf a ∧ offsetOf b + j = offsetOf a) →
              elemAt? cfg { s with hb := m } b j = elemAt? cfg s b j
      else step s = .next { s with input := rest, port := .denied }) ∧
    (∀ a : Addr, s.input = .read a :: rest →
      if inRegion cfg s a 1 = true then
        ∃ w, elemAt? cfg s a 0 = some w ∧ step s = .next { s with input := rest, port := .data w }
      else step s = .next { s with input := rest, port := .denied })

/-- R411: right after reset, and after the reset input is asserted and released, every slot is FREE, the
control registers hold their reset values and the interrupt line is low. -/
def Obligations.ResetLeavesTheResetState : Prop :=
  ∀ t : State,
    (t = State.reset ∨ ∃ s rest, s.input = .reset :: rest ∧ step s = .next t) →
      (∀ u, u < 256 → slotFree cfg t u = true) ∧
      csrValue cfg t 0 = some cfg.sr ∧
      csrValue cfg t 1 = some (BitVec.ofNat 32 cfg.bufsize) ∧
      csrValue cfg t 2 = some (BitVec.ofNat 32 cfg.nunits) ∧
      csrValue cfg t 3 = some (BitVec.ofNat 32 cfg.nchnls) ∧
      csrValue cfg t 4 = some 1#32 ∧ csrValue cfg t 5 = some 0#32 ∧ csrValue cfg t 6 = some 0#32 ∧
      csrValue cfg t 7 = some 0#32 ∧ csrValue cfg t 8 = some 0xFFFFFFFF#32 ∧
      (∀ k, 1 ≤ k → k ≤ 19 → csrValue cfg t (0x20 + k) = some 0#32) ∧ irqLine t = false

/-! ### Refused commands (60_exceptions.md R371, R380) -/

/-- E_BADUNIT: a command on a FREE slot or one that does not exist, a `NEW.*` on one that is live. -/
def Obligations.BadUnitAnswers : Prop :=
  ∀ (i : Instr) (u : Byte) (s : State), unitField i = some u →
    (isNew i = false ∧ liveUnit cfg s u.toNat = none) ∨
      (isNew i = true ∧ slotFree cfg s u.toNat = false) →
    ∃ t, exec i s = .next t ∧ s.Erred .badUnit t

/-- R25: the slots of every unit type and their classes. -/
def Obligations.SlotTable : Prop :=
  ∀ (b : Body) (k : Nat), slotClass b k =
    match b with
    | .bsplit _ | .sig | .pan _ | .switch _ | .selector _ => if k = 0 then some .param else none
    | .fourband _ | .irfm _ | .freeverb _ => if k = 0 ∨ k = 1 ∨ k = 2 then some .param else none
    | .multiband m => if k < m.bounds.length then some .scalar else none
    | .convolve _ | .iraverage _ | .resample _ => none
    | .irwinsinc _ | .irpulse _ =>
      if k = 0 ∨ k = 1 then some .param else if k = 2 then some .integer else none
    | .sigto _ => if k = 0 then some .param else if k = 1 then some .scalar else none
    | .varport _ => if k = 0 ∨ k = 1 then some .scalar else none
    | .mixer _ => if k = 0 then some .scalar else none
    | .scale => if k = 0 ∨ k = 1 ∨ k = 2 ∨ k = 3 then some .param
      else if k = 4 then some .scalar else none
    | .conv c => if c.fn = 4 then (if k = 0 then some .scalar else none) else none

/-- E_BADTYPE and E_BADSLOT: RESET off a FREEVERB, a Mixer command off a MIXER; a parameter command on a
slot that the type does not define or whose class it cannot write. -/
def Obligations.WrongTypeOrSlotAnswers : Prop :=
  ∀ (u : Byte) (s : State) (U : DspUnit), liveUnit cfg s u.toNat = some U →
    (typeCode U.body ≠ 9 → ∃ t, exec (.reset u) s = .next t ∧ s.Erred .badType t) ∧
    (typeCode U.body ≠ 13 → ∀ (key : Word) (h : Addr) (vout : Byte) (gain : Sample),
      (∃ t, exec (.mixadd u key h) s = .next t ∧ s.Erred .badType t) ∧
      (∃ t, exec (.mixdel u key) s = .next t ∧ s.Erred .badType t) ∧
      ∃ t, exec (.mixamp u vout key gain) s = .next t ∧ s.Erred .badType t) ∧
    ∀ (slot : Byte) (w : Word),
      ((slotClass U.body slot.toNat = none ∨ slotClass U.body slot.toNat = some .integer) →
        ∃ t, exec (.setc u slot w) s = .next t ∧ s.Erred .badSlot t) ∧
      (slotClass U.body slot.toNat ≠ some .param →
        ∃ t, exec (.sets u slot w) s = .next t ∧ s.Erred .badSlot t) ∧
      (slotClass U.body slot.toNat ≠ some .integer →
        ∃ t, exec (.seti u slot w) s = .next t ∧ s.Erred .badSlot t)

/-- E_BADARG, E_BADKEY and E_ALLOC: unusable operands and exceeded capacities, each where the checks before
it pass. The handles of every `NEW.*` are in `NewHandlesMustBind`. -/
def Obligations.UnusableOperandsAnswer : Prop :=
  ∀ (u : Byte) (s : State),
    (∀ (U : DspUnit) (slot : Byte) (h : Addr), liveUnit cfg s u.toNat = some U →
      slotClass U.body slot.toNat = some .param → bindOk cfg s u.toNat h cfg.bufsize = false →
        ∃ t, exec (.sets u slot h) s = .next t ∧ s.Erred .badArg t) ∧
    (∀ (U : DspUnit) (m : Mixer) (key : Word) (h : Addr) (vout : Byte) (gain : Sample),
      liveUnit cfg s u.toNat = some U → U.body = .mixer m →
        (bindOk cfg s u.toNat h cfg.bufsize = false →
          ∃ t, exec (.mixadd u key h) s = .next t ∧ s.Erred .badArg t) ∧
        (bindOk cfg s u.toNat h cfg.bufsize = true → (∀ e ∈ m.ins, e.key ≠ key) →
          cfg.maxmixin ≤ m.ins.length →
            ∃ t, exec (.mixadd u key h) s = .next t ∧ s.Erred .alloc t) ∧
        ((∀ e ∈ m.ins, e.key ≠ key) → ∃ t, exec (.mixdel u key) s = .next t ∧ s.Erred .badKey t) ∧
        (m.outs ≤ vout.toNat →
          ∃ t, exec (.mixamp u vout key gain) s = .next t ∧ s.Erred .badArg t) ∧
        (vout.toNat < m.outs → (∀ e ∈ m.ins, e.key ≠ key) →
          ∃ t, exec (.mixamp u vout key gain) s = .next t ∧ s.Erred .badKey t)) ∧
    (slotFree cfg s u.toNat = true → ∀ inp : Addr,
      (bindOk cfg s u.toNat inp cfg.bufsize = false → ∀ taps : List Sample,
        ∃ t, exec (.newConvolve u inp taps) s = .next t ∧ s.Erred .badArg t) ∧
      (∃ t, exec (.newConvolve u inp []) s = .next t ∧ s.Erred .badArg t) ∧
      (bindOk cfg s u.toNat inp cfg.bufsize = true → ∀ taps : List Sample,
        cfg.maxtaps < taps.length →
          ∃ t, exec (.newConvolve u inp taps) s = .next t ∧ s.Erred .alloc t) ∧
      (∀ (factor : BitVec 7) (mode : Byte), cfg.bufsize % max factor.toNat 1 ≠ 0 →
        ∃ t, exec (.newResample u .up factor mode inp) s = .next t ∧ s.Erred .badArg t))

/-- R75, R65: a handle binds when it names a region that is not the unit's own output. R141, R371, R380: a
`NEW.*` on a FREE slot answers E_BADARG when one of its handles does not bind: its `in`, each stream operand,
each SELECTOR input, all for one block, but the `in` of a RESAMPLE for its own length `lin`. -/
def Obligations.NewHandlesMustBind : Prop :=
  (∀ (s : State) (u : Nat) (a : Addr) (n : Nat), bindOk cfg s u a n = true ↔
    ((kindOf a = 1 ∧ indexOf a < cfg.nhostbuf ∧ offsetOf a + n ≤ cfg.hblen) ∨
      (kindOf a = 2 ∧ ∃ U, liveUnit cfg s (indexOf a) = some U ∧
        offsetOf a + n ≤ U.nch * cfg.bufsize)) ∧
    ¬ (kindOf a = 2 ∧ indexOf a = u)) ∧
  ∀ (i : Instr) (u : Byte) (s : State) (a : Addr) (n : Nat), unitField i = some u →
    slotFree cfg s u.toNat = true → bindOk cfg s u.toNat a n = false →
    let block : Prop := n = cfg.bufsize
    (match i with
      | .newBsplit _ _ inp _ _ q => block ∧ (a = inp ∨ q = .stream a)
      | .newFourband _ inp x y z => block ∧ (a = inp ∨ x = .stream a ∨ y = .stream a ∨ z = .stream a)
      | .newIrwinsinc _ _ inp f bw _ => block ∧ (a = inp ∨ f = .stream a ∨ bw = .stream a)
      | .newIrpulse _ _ inp f bw _ => block ∧ (a = inp ∨ f = .stream a ∨ bw = .stream a)
      | .newIrfm _ inp c r m _ => block ∧ (a = inp ∨ c = .stream a ∨ r = .stream a ∨ m = .stream a)
      | .newFreeverb _ inp x y z => block ∧ (a = inp ∨ x = .stream a ∨ y = .stream a ∨ z = .stream a)
      | .newScale _ inp x y z w _ =>
        block ∧ (a = inp ∨ x = .stream a ∨ y = .stream a ∨ z = .stream a ∨ w = .stream a)
      | .newPan _ _ _ inp x => block ∧ (a = inp ∨ x = .stream a)
      | .newSwitch _ _ _ inp x => block ∧ (a = inp ∨ x = .stream a)
      | .newSelector _ _ _ x inputs => block ∧ (a ∈ inputs ∨ x = .stream a)
      | .newSig _ x => block ∧ x = .stream a
      | .newSigto _ x _ _ => block ∧ x = .stream a
      | .newMultiband _ _ inp | .newConvolve _ inp _ | .newIraverage _ inp _ | .newDbtoa _ inp
      | .newAtodb _ inp | .newMtof _ inp | .newFtom _ inp | .newMtot _ inp _
      | .newCentstotranspo _ inp | .newTranspotocents _ inp => block ∧ a = inp
      | .newResample _ dir factor _ inp =>
        a = inp ∧ n = (match dir with
          | .up => cfg.bufsize / max factor.toNat 1
          | .down => cfg.bufsize * max factor.toNat 1)
      | .nop | .del _ | .setc _ _ _ | .sets _ _ _ | .compute _ | .reset _ | .getout _ | .rdcsr _
      | .ack _ | .mixadd _ _ _ | .mixdel _ _ | .mixamp _ _ _ _ | .seti _ _ _
      | .newVarport _ _ _ _ | .newMixer _ _ _ => False) →
      ∃ t, exec i s = .next t ∧ s.Erred .badArg t

/-- R76: COMPUTE first checks every handle it will read, and only those: the unit's `in`, every slot in mode
STREAM, every MIXER entry, every SELECTOR input; a dead one is E_DANGLING before any state changes. -/
def Obligations.LivenessCheckPrecedesCompute : Prop :=
  ∀ (u : Byte) (s : State) (U : DspUnit), liveUnit cfg s u.toNat = some U →
    let reads : Addr → Nat → Prop := fun a n =>
      (readsInput U.body = true ∧ a = U.inp ∧ n = inputLength cfg U.body) ∨
      (∃ k, k < U.p.length ∧ (U.slot k).mode = .stream ∧ a = (U.slot k).h ∧ n = cfg.bufsize) ∨
      (a ∈ extraInputs U.body ∧ n = cfg.bufsize)
    ((∃ a n, reads a n ∧ inRegion cfg s a n = false) →
      ∃ t, exec (.compute u) s = .next t ∧ s.Erred .dangling t) ∧
    ((∀ a n, reads a n → inRegion cfg s a n = true) →
      ∃ V, Computes cfg u s U V)

/-! ### Invariants (10_state.md R42; 20_memory.md R67; 60_exceptions.md R390) -/

/-- The state after reset is sound (R42, R411; the canonical form of the host buffers is the model's choice, log
3). -/
def Obligations.ResetMeetsInvariant : Prop := State.Inv cfg State.reset

/-- Every step, from any sound state, ends in a sound state. `State.Inv` holds R42 (cursors stay inside their
rings, arrays keep the sizes their counts say, counters saturate, Mixer keys stay distinct, every output buffer
has `nch * BUFSIZE` elements) and with it: no unit is bound to its own output (R75), only a VARPORT has its
completion flag set (R390), LASTERR and FAULTS hold response codes (R26, R371), and the host buffers keep their
canonical form, which is the model's choice (log 3). -/
def Obligations.EveryStepKeepsInvariant : Prop :=
  ∀ s t : State, State.Inv cfg s → step s = .next t → State.Inv cfg t

/-- R67, R73: no command writes a host buffer or another unit; only COMPUTE, DEL and the `NEW.*` that builds
the unit touch an output buffer. -/
def Obligations.CommandsWriteOnlyTheirUnit : Prop :=
  ∀ (i : Instr) (s t : State), exec i s = .next t →
    t.hb = s.hb ∧ t.epoch = s.epoch ∧ t.input = s.input ∧
    (∀ v : Nat, (∀ u, unitField i = some u → v ≠ u.toNat) →
      tableGet t.units v = tableGet s.units v) ∧
    (∀ (a : Addr) (j : Nat), (∀ u, unitField i = some u → ¬ (kindOf a = 2 ∧ indexOf a = u.toNat)) →
      elemAt? cfg t a j = elemAt? cfg s a j) ∧
    (∀ (v : Nat) (V : DspUnit), liveUnit cfg s v = some V →
      (∀ u, i = .compute u ∨ i = .del u → v ≠ u.toNat) →
        ∃ W, liveUnit cfg t v = some W ∧ W.out = V.out ∧ W.nch = V.nch ∧
          typeCode W.body = typeCode V.body)

/-- R27, R141: a command leaves every seed counter, or it is a NEW.FREEVERB that builds its unit and moves
counter 9, and that one only, by one, modulo 2^32. -/
def Obligations.OnlyFreeverbDrawsASeed : Prop :=
  ∀ (i : Instr) (s t : State), exec i s = .next t →
    t.seedcnt = s.seedcnt ∨
      (∃ u inp size damp mix, i = .newFreeverb u inp size damp mix) ∧
        t.port = .response ⟨.ok, 0#32⟩ ∧
        ∀ k, 1 ≤ k → k ≤ 19 →
          seedCount t k = if k = 9 then seedCount s 9 + 1#32 else seedCount s k

/-- R26, R390: `csr.IRQ` and the line show whether some live unit's completion flag is set, `csr.CBFIRST` the
least such unit. -/
def Obligations.InterruptLineShowsCompletionFlags : Prop :=
  ∀ s : State, State.Inv cfg s →
    (irqLine s = true ↔ ∃ u U, liveUnit cfg s u = some U ∧ U.cb = true) ∧
    csrValue cfg s 7 = some (if irqLine s then 1#32 else 0#32) ∧
    (irqLine s = false → csrValue cfg s 8 = some 0xFFFFFFFF#32) ∧
    (∀ u U, liveUnit cfg s u = some U → U.cb = true →
      (∀ v V, v < u → liveUnit cfg s v = some V → V.cb = false) →
        csrValue cfg s 8 = some (BitVec.ofNat 32 u))

/-- R28, R390: a completion flag is raised only by COMPUTE on a VARPORT, and cleared only by ACK and by
DEL. -/
def Obligations.CompletionFlagChanges : Prop :=
  ∀ (i : Instr) (s t : State), exec i s = .next t →
    (∀ (u : Nat) (V : DspUnit), liveUnit cfg t u = some V → V.cb = true →
      (∃ U, liveUnit cfg s u = some U ∧ U.cb = true) ∨
      (∃ w U v, i = .compute w ∧ w.toNat = u ∧ liveUnit cfg s u = some U ∧ U.body = .varport v)) ∧
    (∀ (u : Nat) (U : DspUnit), liveUnit cfg s u = some U → U.cb = true →
      (∃ V, liveUnit cfg t u = some V ∧ V.cb = true) ∨
      (∃ w, w.toNat = u ∧ (i = .ack w ∨ i = .del w)))

/-! ### System commands (40_system.md) -/

/-- R130: NOP answers `(OK, 0)` and changes nothing; with any other header bit set it is no NOP. -/
def Obligations.NopDoesNothing : Prop :=
  (∀ s : State, exec .nop s = .next { s with port := .response ⟨.ok, 0#32⟩ }) ∧
  decode ⟨0x00000000#32, []⟩ = .command .nop ∧
  ∀ p : Packet, opOf p.header = 0x00#8 → p.header ≠ 0x00000000#32 → decode p = .badOp

/-- R131: DEL makes the slot FREE; its output names nothing any more; no seed counter and no other unit
changes. -/
def Obligations.DelReleasesTheUnit : Prop :=
  ∀ (u : Byte) (s : State) (U : DspUnit), liveUnit cfg s u.toNat = some U →
    ∃ t, exec (.del u) s = .next t ∧ s.Did cfg u.toNat t ∧ slotFree cfg t u.toNat = true ∧
      ∀ (a : Addr) (j : Nat), kindOf a = 2 → indexOf a = u.toNat →
        elemAt? cfg t a j = none ∧ inRegion cfg t a (j + 1) = false

/-- R132, R142: SETC stores the constant in a slot of class `P` or `S`, whose handle stays; every other slot,
the output and the completion flag stay, and so does the type-specific state where the slot has no hook. -/
def Obligations.SetcSetsTheConstant : Prop :=
  ∀ (u slot : Byte) (value : Sample) (s : State) (U : DspUnit), State.Inv cfg s →
    liveUnit cfg s u.toNat = some U →
    (slotClass U.body slot.toNat = some .param ∨ slotClass U.body slot.toNat = some .scalar) →
      ∃ t V, exec (.setc u slot value) s = .next t ∧ s.Did cfg u.toNat t ∧
        liveUnit cfg t u.toNat = some V ∧
        V.slot slot.toNat = ⟨.const, value, (U.slot slot.toNat).h⟩ ∧
        (∀ k, k ≠ slot.toNat → V.slot k = U.slot k) ∧
        V.nch = U.nch ∧ V.out = U.out ∧ V.inp = U.inp ∧ V.cb = U.cb ∧
        typeCode V.body = typeCode U.body ∧
        (typeCode U.body ≠ 1 → typeCode U.body ≠ 19 → typeCode U.body ≠ 13 →
          ¬ (typeCode U.body = 11 ∧ slot.toNat = 1) → ¬ (typeCode U.body = 12 ∧ slot.toNat = 1) →
            V.body = U.body)

/-- The hooks of SETC (R142): a BSPLIT recomputes every band's coefficients and keeps its memories (R167,
R164); SIGTO, VARPORT and MIXER take the new ramp length, a ramp in progress restarting from its current value
and one at rest staying at rest (R288, R298, R302); an MTOT forgets its memo (R352). -/
def Obligations.SetcHooks : Prop :=
  ∀ (u : Byte) (v : Sample) (s : State) (U : DspUnit), liveUnit cfg s u.toNat = some U →
    (∀ b, U.body = .bsplit b → ∃ t V b', exec (.setc u 0#8 v) s = .next t ∧ s.Did cfg u.toNat t ∧
      liveUnit cfg t u.toNat = some V ∧ V.body = .bsplit b' ∧ b'.fmin = b.fmin ∧ b'.fmax = b.fmax ∧
      b'.init = b.init ∧ b'.bands = b.bands.map fun d =>
        let w0 := fdiv (fmul fTwoPi (fclamp d.bf f1 (fdiv cfg.sr (fRat 201 100)))) cfg.sr
        let alpha := fdiv (cfg.sin w0) (fmul f2 (fmax v cfg.qMin))
        { d with
          b0 := alpha
          b2 := fneg alpha
          a0inv := fdiv f1 (fadd f1 alpha)
          a1 := fmul fNeg2 (cfg.cos w0)
          a2 := fsub f1 alpha }) ∧
    (∀ g, U.body = .sigto g → ∃ t V, exec (.setc u 1#8 v) s = .next t ∧ s.Did cfg u.toNat t ∧
      liveUnit cfg t u.toNat = some V ∧ V.body = .sigto
        { n := rampLen cfg v
          rp := if g.rp.count < g.n then rampRetarget g.rp g.rp.last (rampLen cfg v)
            else { g.rp with count := rampLen cfg v } }) ∧
    (∀ p, U.body = .varport p → ∃ t V, exec (.setc u 1#8 v) s = .next t ∧ s.Did cfg u.toNat t ∧
      liveUnit cfg t u.toNat = some V ∧ V.body = .varport
        { n := rampLen cfg v
          timeout := rampLen cfg v + cfg.vpExtra
          active := p.active
          rp := if p.active = true ∧ p.rp.count < p.n then
              rampRetarget p.rp p.rp.last (rampLen cfg v)
            else if p.active = false then { p.rp with count := rampLen cfg v + cfg.vpExtra }
            else p.rp }) ∧
    (∀ m, U.body = .mixer m → ∃ t V, exec (.setc u 0#8 v) s = .next t ∧ s.Did cfg u.toNat t ∧
      liveUnit cfg t u.toNat = some V ∧ V.body = .mixer
        { outs := m.outs
          n := rampLen cfg v
          ins := m.ins.map fun e => { e with
            g := e.g.map fun g =>
              { target := g.target
                rp := if g.rp.count < m.n then rampRetarget g.rp g.rp.last (rampLen cfg v)
                  else { g.rp with count := rampLen cfg v } } } }) ∧
    (∀ c, U.body = .conv c → c.fn = 4 → ∃ t V, exec (.setc u 0#8 v) s = .next t ∧
      s.Did cfg u.toNat t ∧ liveUnit cfg t u.toNat = some V ∧
      V.body = .conv { c with valid := false })

/-- R133: SETS binds the stream; the constant of the slot stays, no hook runs. -/
def Obligations.SetsBindsTheStream : Prop :=
  ∀ (u slot : Byte) (h : Addr) (s : State) (U : DspUnit), State.Inv cfg s →
    liveUnit cfg s u.toNat = some U → slotClass U.body slot.toNat = some .param →
    bindOk cfg s u.toNat h cfg.bufsize = true →
      ∃ t V, exec (.sets u slot h) s = .next t ∧ s.Did cfg u.toNat t ∧
        liveUnit cfg t u.toNat = some V ∧
        V.slot slot.toNat = ⟨.stream, (U.slot slot.toNat).c, h⟩ ∧
        (∀ k, k ≠ slot.toNat → V.slot k = U.slot k) ∧
        V.nch = U.nch ∧ V.out = U.out ∧ V.inp = U.inp ∧ V.cb = U.cb ∧ V.body = U.body

/-- R219, R231: SETI on slot 2 of an IRWINSINC or IRPULSE clamps and stores the type and sets `dirty`, even
when the type does not change. -/
def Obligations.SetiStoresTheType : Prop :=
  ∀ (u : Byte) (v : Word) (s : State) (U : DspUnit) (g : IrTyped), liveUnit cfg s u.toNat = some U →
    (U.body = .irwinsinc g → ∃ t, exec (.seti u 2#8 v) s = .next t ∧ s.Did cfg u.toNat t ∧
      liveUnit cfg t u.toNat = some { U with
        body := .irwinsinc { g with type := min v.toNat 3, dirty := true } }) ∧
    (U.body = .irpulse g → ∃ t, exec (.seti u 2#8 v) s = .next t ∧ s.Did cfg u.toNat t ∧
      liveUnit cfg t u.toNat = some { U with
        body := .irpulse { g with type := min v.toNat 3, dirty := true } })

/-- R140: ACK clears the completion flag of any live unit and changes nothing else of it. R138: GETOUT returns
`0x80000000 + u * 2^22` and changes no state; the address names the unit's whole output. -/
def Obligations.AckAndGetout : Prop :=
  ∀ (u : Byte) (s : State) (U : DspUnit), liveUnit cfg s u.toNat = some U →
    (∃ t, exec (.ack u) s = .next t ∧ s.Did cfg u.toNat t ∧
      liveUnit cfg t u.toNat = some { U with cb := false }) ∧
    ∃ a : Addr, exec (.getout u) s = .next { s with port := .response ⟨.ok, a⟩ } ∧
      a.toNat = 0x80000000 + u.toNat * 2 ^ 22 ∧ inRegion cfg s a (U.nch * cfg.bufsize) = true ∧
      ∀ j, elemAt? cfg s a j = U.out[j]?

/-- R139, R26: RDCSR returns the register, changes no state, and refuses any other number. -/
def Obligations.RdcsrReturnsTheRegister : Prop :=
  ∀ s : State,
    (∀ r ∈ ([(0#8, cfg.sr), (1#8, BitVec.ofNat 32 cfg.bufsize), (2#8, BitVec.ofNat 32 cfg.nunits),
        (3#8, BitVec.ofNat 32 cfg.nchnls), (4#8, 1#32), (5#8, s.lasterr), (6#8, s.faults),
        (7#8, if irqLine s then 1#32 else 0#32), (8#8, cbFirst s)] : List (Byte × Word)),
      exec (.rdcsr r.1) s = .next { s with port := .response ⟨.ok, r.2⟩ }) ∧
    (∀ t, 1 ≤ t → t ≤ 19 → exec (.rdcsr (BitVec.ofNat 8 (0x20 + t))) s =
      .next { s with port := .response ⟨.ok, seedCount s t⟩ }) ∧
    ∀ n : Byte, 8 < n.toNat → n.toNat < 0x21 ∨ 0x33 < n.toNat →
      ∃ t, exec (.rdcsr n) s = .next t ∧ s.Erred .badSlot t

/-- R262: RESET zeroes every ring and damping state of a FREEVERB and nothing else: lengths, cursors, seed,
jitter, slots, output and completion flag stay. -/
def Obligations.ResetClearsFreeverb : Prop :=
  ∀ (u : Byte) (s : State) (U : DspUnit) (f : Freeverb), liveUnit cfg s u.toNat = some U →
    U.body = .freeverb f →
      ∃ t g, exec (.reset u) s = .next t ∧ s.Did cfg u.toNat t ∧
        liveUnit cfg t u.toNat = some { U with body := .freeverb g } ∧
        g.seed = f.seed ∧ g.jit = f.jit ∧ g.combs.length = f.combs.length ∧
        g.aps.length = f.aps.length ∧
        (∀ (k : Nat) (c d : Comb), f.combs[k]? = some c → g.combs[k]? = some d →
          d.pos = c.pos ∧ d.st = f0 ∧ d.buf.length = c.buf.length ∧ ∀ x ∈ d.buf, x = f0) ∧
        (∀ (k : Nat) (c d : Allpass), f.aps[k]? = some c → g.aps[k]? = some d →
          d.pos = c.pos ∧ d.buf.length = c.buf.length ∧ ∀ x ∈ d.buf, x = f0)

/-- R263: after RESET, a FREEVERB computes the block that a fresh instance with the same jitter computes from
the same input and parameters, wherever its cursors stand. The premises on its ring lengths and cursors are
part of `State.Inv`. -/
def Obligations.ResetMatchesAFreshFreeverb : Prop :=
  ∀ (u w : Byte) (s r : State) (U W : DspUnit) (f : Freeverb),
    Ready cfg u s U → U.body = .freeverb f →
    f.combs.map (fun c => c.buf.length) = combLens cfg (jitterOf cfg f.seed) →
    f.aps.map (fun a => a.buf.length) = apLens cfg (jitterOf cfg f.seed) →
    (∀ c ∈ f.combs, c.pos < c.buf.length) → (∀ a ∈ f.aps, a.pos < a.buf.length) →
    Ready cfg w r W → W.body = .freeverb (freshFreeverb cfg f.seed) →
    (∀ k i, k < 3 → i < cfg.bufsize → pval cfg s U k i = pval cfg r W k i) →
    (∀ i, i < cfg.bufsize → inputAt cfg s U i = inputAt cfg r W i) →
      ∃ s1 s2 r1 U2 W2, exec (.reset u) s = .next s1 ∧ exec (.compute u) s1 = .next s2 ∧
        exec (.compute w) r = .next r1 ∧ liveUnit cfg s2 u.toNat = some U2 ∧
        liveUnit cfg r1 w.toNat = some W2 ∧ U2.out = W2.out ∧ U2.out.length = cfg.bufsize

/-! ### COMPUTE (40_system.md R135, R136) -/

/-- R135: on a sound unit whose handles are live, COMPUTE ends `OK`, keeps the length of the output, and
touches nothing but its own unit; only a VARPORT may raise its completion flag. -/
def Obligations.ComputeCompletes : Prop :=
  ∀ (u : Byte) (s : State) (U : DspUnit), State.Inv cfg s → Ready cfg u s U →
    ∃ V, Computes cfg u s U V ∧ V.out.length = U.out.length ∧
      (V.cb = U.cb ∨ (V.cb = true ∧ typeCode U.body = 12))

/-- R165, R168, R164: a BSPLIT primes its memories once, then runs every band over the block; in stream mode
the coefficients are recomputed before each sample. `q i` are the bands before sample `i`. -/
def Obligations.ComputeBsplitBlock : Prop :=
  ∀ (u : Byte) (s : State) (U : DspUnit) (b : BSplit), Ready cfg u s U → U.body = .bsplit b →
    ∃ (V : DspUnit) (q : Nat → List Band), Computes cfg u s U V ∧ V.cb = U.cb ∧
      V.body = .bsplit { b with bands := q cfg.bufsize, init := false } ∧
      V.out.length = b.bands.length * cfg.bufsize ∧
      q 0 = (if b.init = true then b.bands.map fun d =>
          { d with
            x1 := inputAt cfg s U 0
            x2 := inputAt cfg s U 0
            y1 := inputAt cfg s U 0
            y2 := inputAt cfg s U 0 }
        else b.bands) ∧
      ∀ i, i < cfg.bufsize →
        (q (i + 1)).length = b.bands.length ∧
        ∀ j d, (q i)[j]? = some d →
          let x := inputAt cfg s U i
          let w0 := fdiv (fmul fTwoPi (fclamp d.bf f1 (fdiv cfg.sr (fRat 201 100)))) cfg.sr
          let alpha := fdiv (cfg.sin w0) (fmul f2 (fmax (pval cfg s U 0 i) cfg.qMin))
          let d' : Band := if (U.slot 0).mode = .stream then
            { d with
              b0 := alpha
              b2 := fneg alpha
              a0inv := fdiv f1 (fadd f1 alpha)
              a1 := fmul fNeg2 (cfg.cos w0)
              a2 := fsub f1 alpha } else d
          let val := fmul (fsub (fsub (fadd (fmul d'.b0 x) (fmul d'.b2 d'.x2)) (fmul d'.a1 d'.y1))
            (fmul d'.a2 d'.y2)) d'.a0inv
          (q (i + 1))[j]? = some { d' with y2 := d.y1, y1 := val, x2 := d.x1, x1 := x } ∧
          V.out[j * cfg.bufsize + i]? = some val

/-- R173 to R175, R178: a FOURBAND or MULTIBAND refreshes its coefficients once, then every section of the
cascade runs over the block on the one sample sequence it sees, in whatever order the sections are taken:
`sig k` is what reaches boundary `k`, `v k j` band `k` after the correction passes below boundary `j`. R171:
`lr4` is one sample through one section, its nine terms added left to right, its memories shifted. -/
def Obligations.ComputeSplitSectionBySection : Prop :=
  ∀ (u : Byte) (s : State) (U : DspUnit) (b : Split), State.Inv cfg s → Ready cfg u s U →
    (U.body = .fourband b ∨ U.body = .multiband b) →
    let lr4 : Ff → Co → Sec → Sample → Sec := fun ff c S x =>
      { x1 := x
        x2 := S.x1
        x3 := S.x2
        x4 := S.x3
        y1 := fsub (fsub (fsub (fsub (fadd (fadd (fadd (fadd (fmul ff.c0 x) (fmul ff.c1 S.x1))
          (fmul ff.c2 S.x2)) (fmul ff.c3 S.x3)) (fmul ff.c4 S.x4)) (fmul c.b1 S.y1))
          (fmul c.b2 S.y2)) (fmul c.b3 S.y3)) (fmul c.b4 S.y4)
        y2 := S.y1
        y3 := S.y2
        y4 := S.y3 }
    ∃ (V : DspUnit) (b' : Split) (co : Nat → Co) (lp hp : Nat → Nat → Sec)
      (al ah : Nat → Nat → Nat → Sec) (sig : Nat → Nat → Sample) (v : Nat → Nat → Nat → Sample),
      Computes cfg u s U V ∧ V.cb = U.cb ∧
      V.body = (match U.body with | .fourband _ => .fourband b' | _ => .multiband b') ∧
      b'.bounds.length = b.bounds.length ∧
      V.out.length = (b.bounds.length + 1) * cfg.bufsize ∧
      (∀ k d, b.bounds[k]? = some d →
        lp k 0 = d.lps ∧ hp k 0 = d.hps ∧
        co k = (if fne (pval cfg s U k 0) d.last then
          cfg.lr4Coeffs (fclamp (pval cfg s U k 0) f1 (fdiv cfg.sr (fRat 201 100))) cfg.sr
          else d.co) ∧
        ∀ m c, d.corr[m]? = some c → al k (k + 1 + m) 0 = c.alp ∧ ah k (k + 1 + m) 0 = c.ahp) ∧
      (∀ i, i < cfg.bufsize →
        sig 0 i = inputAt cfg s U i ∧
        (∀ k, k < b.bounds.length →
          lp k (i + 1) = lr4 (co k).lp (co k) (lp k i) (sig k i) ∧
          hp k (i + 1) = lr4 (co k).hp (co k) (hp k i) (sig k i) ∧
          sig (k + 1) i = (hp k (i + 1)).y1 ∧
          v k (k + 1) i = (lp k (i + 1)).y1 ∧
          (∀ j, k < j → j < b.bounds.length →
            al k j (i + 1) = lr4 (co j).lp (co j) (al k j i) (v k j i) ∧
            ah k j (i + 1) = lr4 (co j).hp (co j) (ah k j i) (v k j i) ∧
            v k (j + 1) i = fadd (al k j (i + 1)).y1 (ah k j (i + 1)).y1) ∧
          V.out[k * cfg.bufsize + i]? = some (v k b.bounds.length i)) ∧
        V.out[b.bounds.length * cfg.bufsize + i]? = some (sig b.bounds.length i)) ∧
      (∀ k d d', b.bounds[k]? = some d → b'.bounds[k]? = some d' →
        d'.co = co k ∧ d'.lps = lp k cfg.bufsize ∧ d'.hps = hp k cfg.bufsize ∧
        d'.last = (if fne (pval cfg s U k 0) d.last then pval cfg s U k 0 else d.last) ∧
        d'.corr.length = d.corr.length ∧
        ∀ m c, d'.corr[m]? = some c →
          c.alp = al k (k + 1 + m) cfg.bufsize ∧ c.ahp = ah k (k + 1 + m) cfg.bufsize)

/-- R205, R224, R200: CONVOLVE and IRAVERAGE run their engine over the block; no tap changes. -/
def Obligations.ComputeFixedImpulse : Prop :=
  ∀ (u : Byte) (s : State) (U : DspUnit), Ready cfg u s U →
    (∀ e, U.body = .convolve e → ∃ V e', Computes cfg u s U V ∧ V.cb = U.cb ∧ V.body = .convolve e' ∧
      e.Runs (inputAt cfg s U) cfg.bufsize e' V.out) ∧
    (∀ g, U.body = .iraverage g → ∃ V e', Computes cfg u s U V ∧ V.cb = U.cb ∧
      V.body = .iraverage { g with eng := e' } ∧
      g.eng.Runs (inputAt cfg s U) cfg.bufsize e' V.out)

/-- R217, R218, R230, R236: IRWINSINC, IRPULSE and IRFM compare their parameters with the cached ones, once
per block and exactly; on a change (or a type change) the impulse is rebuilt, ring and cursor are not, and the
new impulse applies from the first sample. R209, R212, R214 to R216: `WinSincTaps` says every tap of an
IRWINSINC's impulse, of all four types. -/
def Obligations.ComputeSynthesisedImpulse : Prop :=
  ∀ (u : Byte) (s : State) (U : DspUnit), Ready cfg u s U →
    let clampHz : Sample → Sample := fun x => fclamp x f1 (fdiv cfg.sr f2)
    let p : Nat → Sample := fun k => pval cfg s U k 0
    (∀ g, U.body = .irwinsinc g ∨ U.body = .irpulse g →
      ∃ V imp e' last bw, Computes cfg u s U V ∧ V.cb = U.cb ∧
        (if fne (p 0) g.lastf = true ∨ fne (p 1) g.lastbw = true ∨ g.dirty = true then
          last = p 0 ∧ bw = p 1 ∧
          (U.body = .irwinsinc g → WinSincTaps cfg g.type (p 0) (p 1) g.order imp) ∧
          (U.body = .irpulse g → imp = (List.range (g.order + 1)).map
            (cfg.irPulseSynth g.type (clampHz (p 0)) (clampHz (p 1)) g.order cfg.sr))
        else last = g.lastf ∧ bw = g.lastbw ∧ imp = g.eng.imp) ∧
        (U.body = .irwinsinc g → V.body = .irwinsinc
          { g with eng := e', lastf := last, lastbw := bw, dirty := false }) ∧
        (U.body = .irpulse g → V.body = .irpulse
          { g with eng := e', lastf := last, lastbw := bw, dirty := false }) ∧
        Engine.Runs (inputAt cfg s U) cfg.bufsize { g.eng with imp := imp } e' V.out) ∧
    (∀ g, U.body = .irfm g →
      ∃ V imp e' c r m, Computes cfg u s U V ∧ V.cb = U.cb ∧
        (if fne (p 0) g.lastc = true ∨ fne (p 1) g.lastr = true ∨ fne (p 2) g.lasti = true then
          c = p 0 ∧ r = p 1 ∧ m = p 2 ∧ imp = (List.range (g.order + 1)).map
            (cfg.irFmSynth (clampHz (p 0)) (p 1) (p 2) g.order cfg.sr)
        else c = g.lastc ∧ r = g.lastr ∧ m = g.lasti ∧ imp = g.eng.imp) ∧
        V.body = .irfm { g with eng := e', lastc := c, lastr := r, lasti := m } ∧
        Engine.Runs (inputAt cfg s U) cfg.bufsize { g.eng with imp := imp } e' V.out)

/-- R201: after `m` calls of ConvStep since construction, the ring holds the last inputs under the cursor and
`+0.0` elsewhere, whatever impulses the unit was given between the calls; the cursor stays in the ring; and a
regeneration of the impulse changes neither ring nor cursor. -/
def Obligations.ConvolutionHistory : Prop :=
  (∀ (N : Nat) (taps : List Sample) (imp : Nat → List Sample) (x : Nat → Sample) (q : Nat → Engine),
    1 ≤ N → q 0 = freshEngine taps N →
    (∀ m, q (m + 1) = (convStep { q m with imp := imp m } (x m)).1) →
      ∀ m, (q m).wc < N ∧ (q m).ring.length = N ∧
        ∀ d, d < N → (q m).ring[((q m).wc + 2 * N - 1 - d) % N]? =
          some (if d < m then x (m - 1 - d) else f0)) ∧
  (∀ (synth : Nat → Sample → Sample → Nat → List Sample) (f bw : Sample) (g : IrTyped),
    (typedRefresh synth f bw g).eng.ring = g.eng.ring ∧
    (typedRefresh synth f bw g).eng.wc = g.eng.wc) ∧
  (∀ (c r m : Sample) (g : IrFm), (fmRefresh cfg c r m g).eng.ring = g.eng.ring ∧
    (fmRefresh cfg c r m g).eng.wc = g.eng.wc)

/-- R202: for finite samples, the unit impulse reproduces the input (`-0.0` comes out as `+0.0`) and the
all-zero impulse gives silence, bit for bit. -/
def Obligations.ConvolutionIdentityAndSilence : Prop :=
  ∀ (e : Engine) (x : Sample), e.wc < e.ring.length → (∀ y ∈ e.ring, isFinite y = true) →
    isFinite x = true →
    (e.imp = f1 :: List.replicate (e.ring.length - 1) f0 →
      (convStep e x).2 = if x = 0x80000000#32 then f0 else x) ∧
    (e.imp = List.replicate e.ring.length f0 → (convStep e x).2 = f0)

/-- R220, from R215: the low-pass and the high-pass impulse hold the taps of R216, the high-pass one is the
spectral inversion of the low-pass one, so that with equal parameters their finite taps sum to exactly `+0.0` off the centre, and at the centre to `low + (-low + 1)`. -/
def Obligations.SpectralInversion : Prop :=
  ∀ (C : Cfg) (f bw : Sample) (order : Nat), order % 2 = 0 →
    let low := winSincImpulse C 0 f bw order
    let high := winSincImpulse C 1 f bw order
    WinSincTaps C 0 f bw order low ∧ WinSincTaps C 1 f bw order high ∧
    low.length = order + 1 ∧ high.length = order + 1 ∧
    ∀ i, i ≤ order → isFinite (low.getD i f0) = true →
      fadd (low.getD i f0) (high.getD i f0) =
        if i = order / 2 then fadd (low.getD i f0) (fadd (fneg (low.getD i f0)) f1) else f0

/-- R256, R254, R255, R257: a FREEVERB over a block. `q i` is its state before sample `i`, `acc i c` the sum of
the taps of the combs below `c`, `v i a` the signal entering all-pass `a`. The output is R256's expression also
where R256's corner case for `mx = 0.0` says otherwise, which is the model's choice (log 21). -/
def Obligations.ComputeFreeverbBlock : Prop :=
  ∀ (u : Byte) (s : State) (U : DspUnit) (f : Freeverb), Ready cfg u s U → U.body = .freeverb f →
    ∃ (V : DspUnit) (q : Nat → Freeverb) (acc v : Nat → Nat → Sample), Computes cfg u s U V ∧
      V.cb = U.cb ∧ V.body = .freeverb (q cfg.bufsize) ∧ V.out.length = cfg.bufsize ∧ q 0 = f ∧
      ∀ i, i < cfg.bufsize →
        let unit : Sample → Sample := fun x => fclamp x f0 f1
        let x := inputAt cfg s U i
        let fb := fadd (fmul (unit (pval cfg s U 0 i)) cfg.fbScale) cfg.fbOffset
        let dm := fmul (unit (pval cfg s U 1 i)) cfg.dampScale
        let mx := unit (pval cfg s U 2 i)
        (q (i + 1)).seed = f.seed ∧ (q (i + 1)).jit = f.jit ∧
        (q (i + 1)).combs.length = f.combs.length ∧ (q (i + 1)).aps.length = f.aps.length ∧
        acc i 0 = f0 ∧ v i 0 = acc i f.combs.length ∧
        (∀ k (c : Comb), (q i).combs[k]? = some c →
          let tap := c.buf.getD c.pos f0
          let st := fadd tap (fmul (fsub c.st tap) dm)
          acc i (k + 1) = fadd (acc i k) tap ∧
          (q (i + 1)).combs[k]? = some { buf := c.buf.set c.pos (fadd (fmul st fb) x)
                                         pos := (c.pos + 1) % c.buf.length
                                         st := st }) ∧
        (∀ k (c : Allpass), (q i).aps[k]? = some c →
          let r := c.buf.getD c.pos f0
          v i (k + 1) = fsub r (v i k) ∧
          (q (i + 1)).aps[k]? = some { buf := c.buf.set c.pos (fadd (fmul r fHalf) (v i k))
                                       pos := (c.pos + 1) % c.buf.length }) ∧
        V.out[i]? = some (fadd (fmul (fmul (v i f.aps.length) cfg.fvGain) (fsqrt mx))
          (fmul x (fsqrt (fsub f1 mx))))

/-- R260: each of `size`, `damp` and `mix` may be a constant or a stream; where every element of a stream is
the constant, state and output are the same, bit for bit, in all eight combinations. -/
def Obligations.FreeverbModeCombinations : Prop :=
  ∀ (u w : Byte) (s r : State) (U W : DspUnit) (f : Freeverb) (c : Nat → Sample),
    Ready cfg u s U → U.body = .freeverb f → Ready cfg w r W → W.body = .freeverb f →
    (∀ i, i < cfg.bufsize → inputAt cfg s U i = inputAt cfg r W i) →
    (∀ k, k < 3 → (U.slot k).mode = .const ∧ (U.slot k).c = c k) →
    (∀ k, k < 3 → ((W.slot k).mode = .const ∧ (W.slot k).c = c k) ∨
      ((W.slot k).mode = .stream ∧
        ∀ i, i < cfg.bufsize → elemAt? cfg r (W.slot k).h i = some (c k))) →
      ∃ V X, Computes cfg u s U V ∧ Computes cfg w r W X ∧ V.out = X.out ∧ V.body = X.body

/-- R282 to R284, R286: a retarget starts a ramp from the current value; before its last sample each sample
adds one rounded step, from the last sample on the value is exactly the target, and the counter saturates; with
a length of 0 every sample is the target. -/
def Obligations.RampReachesItsTarget : Prop :=
  ∀ (rp : Ramp) (t : Sample) (n k : Nat),
    let step := fdiv (fsub t rp.cur) (ofNat n)
    let q := (fun r => rampStep r n)^[k] (rampRetarget rp t n)
    q.last = t ∧ q.count = min k n ∧
    (k < n → q.cur = (fun y => fadd y step)^[k] rp.cur) ∧ (n ≤ k → q.cur = t)

/-- R282: the ramp length of a time is a natural number below 2^31: 0 where `t * SR` is not at least 1 (a NaN
included), the greatest where it is 2^31 or more, else its integer part. -/
def Obligations.RampLengthOfATime : Prop :=
  ∀ (C : Cfg) (t : Sample),
    let p := fmul t C.sr
    rampLen C t ≤ 2147483647 ∧
    (fge p f1 = false → rampLen C t = 0) ∧
    (fge p 0x4F000000#32 = true → rampLen C t = 2147483647) ∧
    (fge p f1 = true → fge p 0x4F000000#32 = false → (rampLen C t : Int) = ftrunc p)

/-- R281: a SIG outputs its parameter, sample by sample. R289: a SIGTO retargets at every sample whose target
differs from the last one seen, then takes one ramp step. `q i` is the ramp before sample `i`. -/
def Obligations.ComputeSigAndSigto : Prop :=
  ∀ (u : Byte) (s : State) (U : DspUnit), Ready cfg u s U →
    (U.body = .sig → ∃ V, Computes cfg u s U V ∧ V.cb = U.cb ∧ V.body = .sig ∧
      V.out.length = cfg.bufsize ∧
      ∀ i, i < cfg.bufsize → V.out[i]? = some (pval cfg s U 0 i)) ∧
    (∀ g, U.body = .sigto g → ∃ (V : DspUnit) (q : Nat → Ramp), Computes cfg u s U V ∧
      V.cb = U.cb ∧ V.body = .sigto { n := g.n, rp := q cfg.bufsize } ∧ q 0 = g.rp ∧
      V.out.length = cfg.bufsize ∧
      ∀ i, i < cfg.bufsize →
        q (i + 1) = rampStep (if fne (pval cfg s U 0 i) (q i).last = true then
          rampRetarget (q i) (pval cfg s U 0 i) g.n else q i) g.n ∧
        V.out[i]? = some (q (i + 1)).cur)

/-- R299: a VARPORT sees a new target once, at the start of the block, ramps, counts on to its timeout, and at
the end of the block in which the count reaches it becomes inactive and raises its completion flag. -/
def Obligations.ComputeVarportBlock : Prop :=
  ∀ (u : Byte) (s : State) (U : DspUnit) (p : VarPort), Ready cfg u s U → U.body = .varport p →
    ∃ (V : DspUnit) (q : Nat → Ramp), Computes cfg u s U V ∧ V.out.length = cfg.bufsize ∧
      let fresh := fne (U.slot 0).c p.rp.last
      let active := fresh || p.active
      let fired := active && decide (p.timeout ≤ (q cfg.bufsize).count)
      q 0 = (if fresh = true then rampRetarget p.rp (U.slot 0).c p.n else p.rp) ∧
      (∀ i, i < cfg.bufsize →
        q (i + 1) = (if active = false then q i
          else if (q i).count < p.n then rampStep (q i) p.n
          else if (q i).count < p.timeout then { q i with count := (q i).count + 1 }
          else q i) ∧
        V.out[i]? = some (q (i + 1)).cur) ∧
      V.body = .varport { p with rp := q cfg.bufsize, active := active && !fired } ∧
      V.cb = (fired || U.cb)

/-! ### MIXER, SCALE (44_ramp_mix.md) -/

/-- R303, R304, R305, R301: MIXADD registers an input, silent on every output, at the end or in the place of
its key; MIXDEL removes it and keeps the order of the others; MIXAMP sets one target and touches no ramp. -/
def Obligations.MixerCommands : Prop :=
  ∀ (u : Byte) (s : State) (U : DspUnit) (m : Mixer) (key : Word), State.Inv cfg s →
    liveUnit cfg s u.toNat = some U → U.body = .mixer m →
    let silent : Addr → MixIn := fun h =>
      ⟨key, h, List.replicate m.outs ⟨f0, { last := f0, cur := f0, step := f0, count := m.n }⟩⟩
    let known : Prop := ∃ e ∈ m.ins, e.key = key
    let becomes : Instr → List MixIn → Prop := fun i ins =>
      ∃ t, exec i s = .next t ∧ s.Did cfg u.toNat t ∧
        liveUnit cfg t u.toNat = some { U with body := .mixer { m with ins := ins } }
    (∀ h, bindOk cfg s u.toNat h cfg.bufsize = true → ¬ known → m.ins.length < cfg.maxmixin →
      becomes (.mixadd u key h) (m.ins ++ [silent h])) ∧
    (∀ h, bindOk cfg s u.toNat h cfg.bufsize = true → ∀ before old after,
      m.ins = before ++ old :: after → old.key = key →
        becomes (.mixadd u key h) (before ++ silent h :: after)) ∧
    (∀ before old after, m.ins = before ++ old :: after → old.key = key →
      becomes (.mixdel u key) (before ++ after)) ∧
    (∀ (vout : Byte) (gain : Sample) before old after, vout.toNat < m.outs →
      m.ins = before ++ old :: after → old.key = key →
        ∃ g, old.g[vout.toNat]? = some g ∧
          becomes (.mixamp u vout key gain)
            (before ++ { old with g := old.g.set vout.toNat { g with target := gain } } :: after))

/-- R306: a MIXER accumulates its entries in list order onto zeroed outputs; each gain retargets once at the
start of the block and takes one ramp step per sample. `acc e o i` is sample `i` of output `o` after the first
`e` entries, `r e o i` the ramp of that gain before sample `i`. -/
def Obligations.ComputeMixerBlock : Prop :=
  ∀ (u : Byte) (s : State) (U : DspUnit) (m : Mixer), State.Inv cfg s → Ready cfg u s U →
    U.body = .mixer m →
    ∃ (V : DspUnit) (m' : Mixer) (acc : Nat → Nat → Nat → Sample) (r : Nat → Nat → Nat → Ramp),
      Computes cfg u s U V ∧ V.cb = U.cb ∧ V.body = .mixer m' ∧ m'.outs = m.outs ∧ m'.n = m.n ∧
      m'.ins.length = m.ins.length ∧ V.out.length = m.outs * cfg.bufsize ∧
      (∀ o i, o < m.outs → i < cfg.bufsize →
        acc 0 o i = f0 ∧ V.out[o * cfg.bufsize + i]? = some (acc m.ins.length o i)) ∧
      ∀ k e, m.ins[k]? = some e →
        (∀ o g, e.g[o]? = some g →
          r k o 0 = (if fne g.target g.rp.last = true then rampRetarget g.rp g.target m.n else g.rp) ∧
          ∀ i, i < cfg.bufsize →
            r k o (i + 1) = rampStep (r k o i) m.n ∧
            acc (k + 1) o i =
              fadd (acc k o i) (fmul (elemAt cfg s e.h i) (r k o (i + 1)).cur)) ∧
        ∃ e', m'.ins[k]? = some e' ∧ e'.key = e.key ∧ e'.h = e.h ∧ e'.g.length = e.g.length ∧
          ∀ o g g', e.g[o]? = some g → e'.g[o]? = some g' →
            g'.target = g.target ∧ g'.rp = r k o cfg.bufsize

/-- R311: a SCALE maps its input range to its output range, either reversed or not, with the power law where
`exp` is not 1, and gives `outmin` where a range has zero width. -/
def Obligations.ComputeScaleBlock : Prop :=
  ∀ (u : Byte) (s : State) (U : DspUnit), Ready cfg u s U → U.body = .scale →
    ∃ V, Computes cfg u s U V ∧ V.cb = U.cb ∧ V.body = .scale ∧ V.out.length = cfg.bufsize ∧
      ∀ i, i < cfg.bufsize →
        let p : Nat → Sample := fun k => pval cfg s U k i
        let e := (U.slot 4).c
        let irev := fgt (p 0) (p 1)
        let orev := fgt (p 2) (p 3)
        let imin := if irev then p 1 else p 0
        let imax := if irev then p 0 else p 1
        let omin := if orev then p 3 else p 2
        let omax := if orev then p 2 else p 3
        let irange := fsub imax imin
        let orange := fsub omax omin
        let raw := fdiv (fsub (fclamp (inputAt cfg s U i) imin imax) imin) irange
        let nrm := if irev then fsub f1 raw else raw
        let bent := if feq e f1 then nrm else cfg.pow nrm e
        V.out[i]? = some (
          if feq irange f0 = true ∨ feq orange f0 = true then p 2
          else if orev then fsub omax (fmul bent orange) else fadd (fmul bent orange) omin)

/-- R312: input 0.5 from the range 0 to 1, or the reversed range 1 to 0, to the range 10 to 20 with `exp` 1
gives exactly 15.0. -/
def Obligations.ScaleIsExactAndSymmetric : Prop :=
  ∀ C : Cfg,
    scaleSample C 0x3F800000#32 0x3F000000#32 0x00000000#32 0x3F800000#32 0x41200000#32 0x41A00000#32 =
      0x41700000#32 ∧
    scaleSample C 0x3F800000#32 0x3F000000#32 0x3F800000#32 0x00000000#32 0x41200000#32 0x41A00000#32 =
      0x41700000#32

/-! ### Spatialisation, conversion, resampling (45_spatial_convert_resample.md) -/

/-- R330: the position saturates, its integer part is the lower channel, its fraction sets the two gains. So the
lower channel is at most `N - 2`; a NaN or negative position stands at channel 0, one past the
end at channel `N - 1`; at an integer position the gains are 1 and 0, in both laws. -/
def Obligations.CrossfadeAtIntegersAndEnds : Prop :=
  ∀ (N : Nat) (lin : Bool), 2 ≤ N → N ≤ 255 →
    (∀ pos,
      let hi := ofNat (N - 1)
      let t := if fge pos f0 = true then (if fgt pos hi = true then hi else pos) else f0
      let j := min (ftrunc t).toNat (N - 2)
      let f := fsub t (ofNat j)
      crossfade pos N lin =
        ⟨j, if lin then fsub f1 f else fsqrt (fsub f1 f), if lin then f else fsqrt f⟩) ∧
    (∀ pos, (crossfade pos N lin).j + 2 ≤ N) ∧
    (∀ pos, isNaN pos = true ∨ flt pos f0 = true → crossfade pos N lin = ⟨0, f1, f0⟩) ∧
    (∀ k, k + 1 < N → crossfade (ofNat k) N lin = ⟨k, f1, f0⟩) ∧
    (∀ pos, fge pos (ofNat (N - 1)) = true → crossfade pos N lin = ⟨N - 2, f0, f1⟩)

/-- R333, R341, R347: PAN and SWITCH spread their input over the two channels around the position, PAN's
scaled from `[0, 1]`; SELECTOR crossfades the two inputs around it and forms both products. -/
def Obligations.ComputeSpatialBlock : Prop :=
  ∀ (u : Byte) (s : State) (U : DspUnit), Ready cfg u s U →
    (∀ b, U.body = .pan b ∨ U.body = .switch b →
      ∃ V, Computes cfg u s U V ∧ V.cb = U.cb ∧ V.body = U.body ∧
        V.out.length = b.chnls * cfg.bufsize ∧
        ∀ c i, c < b.chnls → i < cfg.bufsize →
          let pos := if typeCode U.body = 16 then
            fmul (pval cfg s U 0 i) (ofNat (b.chnls - 1)) else pval cfg s U 0 i
          let xf := crossfade pos b.chnls b.lin
          V.out[c * cfg.bufsize + i]? = some (
            if c = xf.j then fmul (inputAt cfg s U i) xf.g0
            else if c = xf.j + 1 then fmul (inputAt cfg s U i) xf.g1 else f0)) ∧
    (∀ b, U.body = .selector b → 2 ≤ b.inh.length →
      ∃ V, Computes cfg u s U V ∧ V.cb = U.cb ∧ V.body = U.body ∧ V.out.length = cfg.bufsize ∧
        ∀ i, i < cfg.bufsize →
          ∃ lo hi, b.inh[(crossfade (pval cfg s U 0 i) b.inh.length b.lin).j]? = some lo ∧
            b.inh[(crossfade (pval cfg s U 0 i) b.inh.length b.lin).j + 1]? = some hi ∧
            V.out[i]? = some (fadd
              (fmul (elemAt cfg s lo i) (crossfade (pval cfg s U 0 i) b.inh.length b.lin).g0)
              (fmul (elemAt cfg s hi i) (crossfade (pval cfg s U 0 i) b.inh.length b.lin).g1)))

/-- R351, R353: the memo of a CONV cannot be seen. From a sound memo, every output sample is the conversion of
its input sample, or of the zero of the other sign where the input is a zero; and the memo stays sound. -/
def Obligations.ConversionMemoIsTransparent : Prop :=
  ∀ (u : Byte) (s : State) (U : DspUnit) (b : Conv), Ready cfg u s U → U.body = .conv b → b.fn ≤ 6 →
    let ck := (U.slot 0).c
    let convert : Sample → Sample := fun v =>
      match b.fn with
      | 0 => cfg.pow (ofNat 10) (fmul (fmax v (ofInt (-120))) (fRat 1 20))
      | 1 => if fle v 0x358637BD#32 then ofInt (-120) else fmul (ofNat 20) (cfg.log10 v)
      | 2 => fmul (ofNat 440) (cfg.pow f2 (fdiv (fsub v (ofNat 69)) (ofNat 12)))
      | 3 => fadd (fmul (ofNat 12) (cfg.log2 (fdiv v (ofNat 440)))) (ofNat 69)
      | 4 => cfg.pow f2 (fdiv (fsub v ck) (ofNat 12))
      | 5 => cfg.pow f2 (fdiv v (ofNat 1200))
      | _ => fmul (ofNat 1200) (cfg.log2 v)
    (b.valid = true → b.lastout = convert b.lastin) →
      ∃ V b', Computes cfg u s U V ∧ V.cb = U.cb ∧ V.body = .conv b' ∧ b'.fn = b.fn ∧
        b'.lastout = convert b'.lastin ∧ b'.valid = true ∧ V.out.length = cfg.bufsize ∧
        ∀ i, i < cfg.bufsize → ∃ y, V.out[i]? = some (convert y) ∧
          (y = inputAt cfg s U i ∨ (isZero y = true ∧ isZero (inputAt cfg s U i) = true))

/-- R361, R362: a RESAMPLE of mode 0 or 1 repeats each input sample `factor` times on the way up and keeps
every `factor`-th one on the way down; from mode 2 on its output and state are the configuration's. -/
def Obligations.ComputeResampleBlock : Prop :=
  ∀ (u : Byte) (s : State) (U : DspUnit) (r : Resample), State.Inv cfg s → Ready cfg u s U →
    U.body = .resample r →
      ∃ V rs, Computes cfg u s U V ∧ V.cb = U.cb ∧ V.body = .resample { r with rs := rs } ∧
        V.out.length = cfg.bufsize ∧
        (r.mode ≤ 1 → rs = r.rs ∧
          (r.dir = .up → r.lin * r.factor = cfg.bufsize ∧
            ∀ k m, k < r.lin → m < r.factor →
              V.out[k * r.factor + m]? = some (elemAt cfg s U.inp k)) ∧
          (r.dir = .down → r.lin = cfg.bufsize * r.factor ∧
            ∀ k, k < cfg.bufsize → V.out[k]? = some (elemAt cfg s U.inp (k * r.factor)))) ∧
        (2 ≤ r.mode →
          rs = (cfg.resampleStep r.dir r.factor r.mode r.rs (memRead cfg s U.inp r.lin)).2 ∧
          ∀ i, i < cfg.bufsize → V.out[i]? =
            some ((cfg.resampleStep r.dir r.factor r.mode r.rs (memRead cfg s U.inp r.lin)).1 i))

/-! ### Constructors (40_system.md R141) -/

/-- R160 to R166, R170, R181, R183 to R185: what NEW.BSPLIT, NEW.FOURBAND and NEW.MULTIBAND build. -/
def Obligations.NewBandSplitters : Prop :=
  ∀ (u : Byte) (inp : Addr) (s : State), slotFree cfg s u.toNat = true →
    let zero : Sec := ⟨f0, f0, f0, f0, f0, f0, f0, f0⟩
    let split : Nat → Split := fun B => ⟨(List.range B).map fun k =>
      { last := 0xBF800000#32
        co := ⟨⟨f0, f0, f0, f0, f0⟩, ⟨f0, f0, f0, f0, f0⟩, f0, f0, f0, f0⟩
        lps := zero
        hps := zero
        corr := List.replicate (B - 1 - k) ⟨zero, zero⟩ }⟩
    (∀ (bands : Byte) (mn mx : Sample) (q : XOp), Bindable cfg s u.toNat [inp] [q] →
      let nb := min (max bands.toNat 1) cfg.maxbands
      Builds cfg (.newBsplit u bands inp mn mx q) u.toNat nb inp [xslot q]
        (.bsplit
          { fmin := mn
            fmax := mx
            init := true
            bands := (List.range nb).map fun j =>
              let bf := fmul mn (cfg.pow (fdiv mx mn) (fdiv (ofNat j) (ofNat nb)))
              match q with
              | .stream _ => ⟨bf, f0, f0, f0, f0, f0, f0, f0, f0, f0⟩
              | .const c =>
                let w0 := fdiv (fmul fTwoPi (fclamp bf f1 (fdiv cfg.sr (fRat 201 100)))) cfg.sr
                let alpha := fdiv (cfg.sin w0) (fmul f2 (fmax c cfg.qMin))
                ⟨bf, alpha, fneg alpha, fdiv f1 (fadd f1 alpha), fmul fNeg2 (cfg.cos w0),
                  fsub f1 alpha, f0, f0, f0, f0⟩ }) s) ∧
    (∀ x1 x2 x3 : XOp, Bindable cfg s u.toNat [inp] [x1, x2, x3] →
      Builds cfg (.newFourband u inp x1 x2 x3) u.toNat 4 inp [xslot x1, xslot x2, xslot x3]
        (.fourband (split 3)) s) ∧
    (∀ bands : Byte, Bindable cfg s u.toNat [inp] [] →
      let nb := min (max bands.toNat 2) 16
      Builds cfg (.newMultiband u bands inp) u.toNat nb inp
        ((List.range (nb - 1)).map fun k => ⟨.const,
          fadd (fmul (cfg.pow (fdiv (ofNat (k + 1)) (ofNat nb)) (ofNat 3))
            (fsub cfg.mbMaxFreq cfg.mbMinFreq)) cfg.mbMinFreq, nullAddr⟩)
        (.multiband (split (nb - 1))) s)

/-- R203, R207, R210, R211, R222, R223, R227, R233: what the five convolution constructors build. The order is
even, at least 2, and fits `MAXTAPS`. `AverageTaps` says every tap of an average (R209, R212, R223). -/
def Obligations.NewConvolutionUnits : Prop :=
  ∀ (u : Byte) (inp : Addr) (s : State), slotFree cfg s u.toNat = true →
    let engine : List Sample → Nat → Engine := fun imp n => ⟨imp, List.replicate n f0, 0⟩
    (∀ taps : List Sample, Bindable cfg s u.toNat [inp] [] → 1 ≤ taps.length →
      taps.length ≤ cfg.maxtaps →
        Builds cfg (.newConvolve u inp taps) u.toNat 1 inp [] (.convolve (engine taps taps.length))
          s) ∧
    ∀ order : Word, ∃ o maxord : Nat,
      maxord % 2 = 0 ∧ maxord ≤ cfg.maxtaps - 1 ∧ cfg.maxtaps - 1 ≤ maxord + 1 ∧
      o = max (min order.toNat maxord + min order.toNat maxord % 2) 2 ∧ o % 2 = 0 ∧
      o + 1 ≤ cfg.maxtaps ∧
      (Bindable cfg s u.toNat [inp] [] → ∃ taps, AverageTaps cfg o taps ∧
        Builds cfg (.newIraverage u inp order) u.toNat 1 inp []
          (.iraverage ⟨engine taps (o + 1), o⟩) s) ∧
      (∀ (type : Byte) (f bw : XOp), Bindable cfg s u.toNat [inp] [f, bw] →
        let state : IrTyped :=
          { eng := engine (List.replicate (o + 1) f0) (o + 1)
            order := o
            type := min type.toNat 3
            lastf := 0xBF800000#32
            lastbw := 0xBF800000#32
            dirty := true }
        Builds cfg (.newIrwinsinc u type inp f bw order) u.toNat 1 inp [xslot f, xslot bw]
          (.irwinsinc state) s ∧
        Builds cfg (.newIrpulse u type inp f bw order) u.toNat 1 inp [xslot f, xslot bw]
          (.irpulse state) s) ∧
      (∀ c r m : XOp, Bindable cfg s u.toNat [inp] [c, r, m] →
        Builds cfg (.newIrfm u inp c r m order) u.toNat 1 inp [xslot c, xslot r, xslot m]
          (.irfm
            { eng := engine (List.replicate (o + 1) f0) (o + 1)
              order := o
              lastc := 0xBF800000#32
              lastr := 0xBF800000#32
              lasti := 0xBF800000#32 }) s)

/-- R250, R252, R253, R27: NEW.FREEVERB draws the next seed, jitters all twelve lengths by one amount, and
builds the rings at `+0.0` with their cursors at 0; nothing else changes but the seed counter. Where a length
exceeds `MAXDELAY` it answers E_ALLOC, and no seed is drawn. -/
def Obligations.NewFreeverbDrawsItsSeed : Prop :=
  ∀ (u : Byte) (inp : Addr) (size damp mix : XOp) (s : State), slotFree cfg s u.toNat = true →
    Bindable cfg s u.toNat [inp] [size, damp, mix] →
    let seed := cfg.seedGen 9 (seedCount s 9)
    let J : Nat := (fround (fmul (fadd (ofNat 10) (fmul (ofNat 20) (cfg.rngUniform seed 0)))
      (fdiv cfg.sr (ofNat 44100)))).toNat
    let len : Sample → Nat := fun base =>
      (max (fround (fmul (fdiv base (ofNat 44100)) cfg.sr) + (J : Int)) 1).toNat
    let fits : Prop := (∀ c, c < 8 → len (cfg.combBase c) ≤ cfg.maxdelay) ∧
      ∀ a, a < 4 → len (cfg.apBase a) ≤ cfg.maxdelay
    (fits →
      ∃ t U, exec (.newFreeverb u inp size damp mix) s = .next t ∧
        t.port = .response ⟨.ok, 0#32⟩ ∧ liveUnit cfg t u.toNat = some U ∧
        U.Fresh cfg 1 inp [xslot size, xslot damp, xslot mix] ∧
        U.body = .freeverb
          { seed := seed
            jit := J
            combs := (List.range 8).map fun c =>
              ⟨List.replicate (len (cfg.combBase c)) f0, 0, f0⟩
            aps := (List.range 4).map fun a => ⟨List.replicate (len (cfg.apBase a)) f0, 0⟩ } ∧
        seedCount t 9 = seedCount s 9 + 1#32 ∧
        (∀ k, 1 ≤ k → k ≤ 19 → k ≠ 9 → seedCount t k = seedCount s k) ∧
        (∀ v, v ≠ u.toNat → tableGet t.units v = tableGet s.units v) ∧ t.hb = s.hb ∧
        t.lasterr = s.lasterr ∧ t.faults = s.faults ∧ t.input = s.input ∧ t.epoch = s.epoch ∧
        ∀ (a : Addr) (j : Nat), ¬ (kindOf a = 2 ∧ indexOf a = u.toNat) →
          elemAt? cfg t a j = elemAt? cfg s a j) ∧
    (¬ fits → ∃ t, exec (.newFreeverb u inp size damp mix) s = .next t ∧ s.Erred .alloc t)

/-- R280, R285, R295, R297, R300, R310: what NEW.SIG, NEW.SIGTO, NEW.VARPORT, NEW.MIXER and NEW.SCALE
build. -/
def Obligations.NewRampMixScaleUnits : Prop :=
  ∀ (u : Byte) (s : State), slotFree cfg s u.toNat = true →
    let num : Sample → Slot := fun c => ⟨.const, c, nullAddr⟩
    let rest : Sample → Nat → Ramp := fun v n => { last := v, cur := v, step := f0, count := n }
    (∀ value : XOp, Bindable cfg s u.toNat [] [value] →
      Builds cfg (.newSig u value) u.toNat 1 nullAddr [xslot value] .sig s ∧
      ∀ time init : Sample,
        Builds cfg (.newSigto u value time init) u.toNat 1 nullAddr [xslot value, num time]
          (.sigto ⟨rest init (rampLen cfg time), rampLen cfg time⟩) s) ∧
    (∀ value time init : Sample,
      Builds cfg (.newVarport u value time init) u.toNat 1 nullAddr [num value, num time]
        (.varport
          { rp := rest init (rampLen cfg time + cfg.vpExtra)
            n := rampLen cfg time
            timeout := rampLen cfg time + cfg.vpExtra
            active := false }) s) ∧
    (∀ (outs : Byte) (time : Sample),
      Builds cfg (.newMixer u outs time) u.toNat (max outs.toNat 1) nullAddr [num time]
        (.mixer { outs := max outs.toNat 1, n := rampLen cfg time, ins := [] }) s) ∧
    (∀ (inp : Addr) (a b c d : XOp) (e : Sample), Bindable cfg s u.toNat [inp] [a, b, c, d] →
      Builds cfg (.newScale u inp a b c d e) u.toNat 1 inp
        [xslot a, xslot b, xslot c, xslot d, num e] .scale s)

/-- R331, R332, R340, R345, R346: what NEW.PAN, NEW.SWITCH and NEW.SELECTOR build. -/
def Obligations.NewSpatialUnits : Prop :=
  ∀ (u n : Byte) (lin : Bool) (x : XOp) (s : State), slotFree cfg s u.toNat = true →
    (∀ inp, Bindable cfg s u.toNat [inp] [x] →
      Builds cfg (.newPan u n lin inp x) u.toNat (max n.toNat 2) inp [xslot x]
        (.pan { chnls := max n.toNat 2, lin := lin }) s ∧
      Builds cfg (.newSwitch u n lin inp x) u.toNat (max n.toNat 2) inp [xslot x]
        (.switch { chnls := max n.toNat 2, lin := lin }) s) ∧
    (∀ inputs, inputs.length = max n.toNat 2 → Bindable cfg s u.toNat inputs [x] →
      Builds cfg (.newSelector u n lin x inputs) u.toNat 1 nullAddr [xslot x]
        (.selector { inh := inputs, lin := lin }) s)

/-- R350, R97, R360, R104: what the seven conversions and NEW.RESAMPLE build. -/
def Obligations.NewConversionsAndResample : Prop :=
  ∀ (u : Byte) (inp : Addr) (s : State), slotFree cfg s u.toNat = true →
    let memo : Nat → Body := fun fn =>
      .conv { fn := fn, valid := false, lastin := f0, lastout := f0 }
    (bindOk cfg s u.toNat inp cfg.bufsize = true →
      Builds cfg (.newDbtoa u inp) u.toNat 1 inp [] (memo 0) s ∧
      Builds cfg (.newAtodb u inp) u.toNat 1 inp [] (memo 1) s ∧
      Builds cfg (.newMtof u inp) u.toNat 1 inp [] (memo 2) s ∧
      Builds cfg (.newFtom u inp) u.toNat 1 inp [] (memo 3) s ∧
      (∀ ck : Sample,
        Builds cfg (.newMtot u inp ck) u.toNat 1 inp [⟨.const, ck, nullAddr⟩] (memo 4) s) ∧
      Builds cfg (.newCentstotranspo u inp) u.toNat 1 inp [] (memo 5) s ∧
      Builds cfg (.newTranspotocents u inp) u.toNat 1 inp [] (memo 6) s) ∧
    ∀ (factor : BitVec 7) (mode : Byte),
      let n := max factor.toNat 1
      let rs : Dir → List Word := fun d =>
        if mode.toNat ≤ 1 then [] else cfg.rsImpulse d n mode.toNat
      (cfg.bufsize % n = 0 → bindOk cfg s u.toNat inp (cfg.bufsize / n) = true →
        Builds cfg (.newResample u .up factor mode inp) u.toNat 1 inp []
          (.resample ⟨.up, n, mode.toNat, cfg.bufsize / n, rs .up⟩) s) ∧
      (bindOk cfg s u.toNat inp (cfg.bufsize * n) = true →
        Builds cfg (.newResample u .down factor mode inp) u.toNat 1 inp []
          (.resample ⟨.down, n, mode.toNat, cfg.bufsize * n, rs .down⟩) s)
end

