-- ==== Sys2Proof/Laws/Config.lean ====
section
/-! SUPPORT. Laws of the configuration: what `Cfg.normalize` gives meets the constraints of 00_scope.md R4, a
record that meets them is left as it is, and the hardware's own configuration meets them. -/

namespace Sys2Proof

theorem within_ge {lo hi x : Nat} : lo ≤ within lo hi x := by unfold within; split <;> omega

theorem within_le {lo hi x : Nat} (h : lo ≤ hi) : within lo hi x ≤ hi := by
  unfold within; split <;> omega

theorem within_eq {lo hi x : Nat} (h : lo ≤ x) (h' : x ≤ hi) : within lo hi x = x := by
  simp [within, h, h']

/-- `Cfg.normalize` gives a record that meets every constraint. -/
theorem normalize_valid (R : Cfg) : R.normalize.Valid where
  sr_pos := by simp only [Cfg.normalize]; split <;> first | assumption | decide
  bufsize_pos := within_ge
  bufsize_le := within_le (by decide)
  nchnls_lt := Nat.lt_of_le_of_lt (within_le (Nat.zero_le _)) (by decide)
  nunits_le := within_le (by decide)
  nhostbuf_le := within_le (by decide)
  hblen_ge := within_ge
  hblen_le := within_le (Nat.le_trans (within_le (by decide)) (by decide))
  maxtaps_ge := Nat.le_max_left _ _
  maxbands_ge := within_ge
  maxbands_le := within_le (by decide)
  maxmixin_ge := Nat.le_max_left _ _
  qMin_pos := by simp only [Cfg.normalize]; split <;> first | assumption | decide
  vpExtra_ge := Nat.le_max_left _ _
  rng_unit seed k := by simp only [Cfg.normalize]; split <;> first | assumption | decide

/-- A record that meets the constraints is not changed. -/
theorem normalize_of_valid {R : Cfg} (h : R.Valid) : R.normalize = R := by
  have e1 := within_eq h.bufsize_pos h.bufsize_le
  have e2 := within_eq (Nat.zero_le R.nchnls) (Nat.le_sub_one_of_lt h.nchnls_lt)
  have e3 := within_eq (Nat.zero_le R.nunits) h.nunits_le
  have e4 := within_eq (Nat.zero_le R.nhostbuf) h.nhostbuf_le
  have e5 := within_eq h.hblen_ge h.hblen_le
  have e6 := within_eq h.maxbands_ge h.maxbands_le
  have e7 := Nat.max_eq_right h.maxtaps_ge
  have e8 := Nat.max_eq_right h.maxmixin_ge
  have e9 := Nat.max_eq_right h.vpExtra_ge
  simp only [Cfg.normalize, h.sr_pos, h.qMin_pos, h.rng_unit, if_true, e1, e2, e3, e4, e5, e6, e7, e8,
    e9]

@[simp] theorem cfg_nunits : Config.cfg.nunits = 256 := rfl

@[simp] theorem cfg_nhostbuf : Config.cfg.nhostbuf = 256 := rfl

/-- The hardware's own configuration meets the constraints. -/
theorem cfg_valid : Config.cfg.Valid :=
  have h := normalize_valid Config.implementation
  { h with nunits_le := Nat.le_refl 256, nhostbuf_le := Nat.le_refl 256 }

end Sys2Proof
end

