-- ==== Sys2Proof/Laws/Table.lean ====
section
/-! SUPPORT. Laws of sparse tables: read after write, and that every operation keeps the canonical order. -/

namespace Sys2Proof.Machine

variable {α : Type}

@[simp] theorem tableGet_nil (i : Nat) : tableGet ([] : Table α) i = none := rfl

/-- Looking up after a write: the written key holds the written value, every other key what it held. -/
theorem tableGet_tableSet (t : Table α) (i j : Nat) (x : α) :
    tableGet (tableSet t i x) j = if j = i then some x else tableGet t j := by
  induction t with
  | nil => simp [tableSet, tableGet]
  | cons e t ih =>
    obtain ⟨k, v⟩ := e
    by_cases h1 : i < k
    · simp [tableSet, h1, tableGet]
    · by_cases h2 : i = k
      · subst h2
        by_cases hj : j = i <;> simp [tableSet, tableGet, hj]
      · by_cases hk : j = k
        · simp [tableSet, h1, h2, tableGet, hk]
          intro h; exact absurd h.symm h2
        · simp [tableSet, h1, h2, tableGet, hk, ih]

@[simp] theorem tableGet_tableSet_self (t : Table α) (i : Nat) (x : α) :
    tableGet (tableSet t i x) i = some x := by simp [tableGet_tableSet]

theorem tableGet_tableSet_of_ne (t : Table α) {i j : Nat} (x : α) (h : j ≠ i) :
    tableGet (tableSet t i x) j = tableGet t j := by simp [tableGet_tableSet, h]

/-- Looking up after an erasure: the erased key holds nothing, every other key what it held. -/
theorem tableGet_tableErase (t : Table α) (i j : Nat) :
    tableGet (tableErase t i) j = if j = i then none else tableGet t j := by
  induction t with
  | nil => simp [tableErase, tableGet]
  | cons e t ih =>
    obtain ⟨k, v⟩ := e
    by_cases h2 : i = k
    · subst h2
      by_cases hj : j = i
      · simpa [tableErase, hj] using ih
      · simp [tableErase, tableGet, hj, ih]
    · by_cases hk : j = k
      · have : k ≠ i := fun h => h2 h.symm
        simp [tableErase, h2, tableGet, hk, this]
      · simp [tableErase, h2, tableGet, hk, ih]

@[simp] theorem tableGet_tableErase_self (t : Table α) (i : Nat) :
    tableGet (tableErase t i) i = none := by simp [tableGet_tableErase]

theorem tableGet_tableErase_of_ne (t : Table α) {i j : Nat} (h : j ≠ i) :
    tableGet (tableErase t i) j = tableGet t j := by simp [tableGet_tableErase, h]

/-- What is found is listed. -/
theorem mem_of_tableGet {t : Table α} {i : Nat} {x : α} (h : tableGet t i = some x) : (i, x) ∈ t := by
  induction t with
  | nil => simp at h
  | cons e t ih =>
    obtain ⟨k, v⟩ := e
    by_cases hk : i = k
    · subst hk
      simp [tableGet] at h
      simp [h]
    · simp [tableGet, hk] at h
      exact List.mem_cons_of_mem _ (ih h)

/-- What a write lists: the new entry and entries that were there. -/
theorem mem_tableSet {t : Table α} {i : Nat} {x : α} {e : Nat × α} (h : e ∈ tableSet t i x) :
    e = (i, x) ∨ e ∈ t := by
  induction t with
  | nil => simpa [tableSet] using h
  | cons f t ih =>
    obtain ⟨k, v⟩ := f
    unfold tableSet at h
    split at h
    · simpa using h
    · split at h
      · rcases List.mem_cons.1 h with h | h
        · exact .inl h
        · exact .inr (List.mem_cons_of_mem _ h)
      · rcases List.mem_cons.1 h with h | h
        · exact .inr (h ▸ List.mem_cons_self)
        · exact (ih h).imp_right (List.mem_cons_of_mem _)

/-- An erasure lists only entries that were there, none under the erased key. -/
theorem mem_tableErase {t : Table α} {i : Nat} {e : Nat × α} :
    e ∈ tableErase t i ↔ e ∈ t ∧ e.1 ≠ i := by
  induction t with
  | nil => simp [tableErase]
  | cons f t ih =>
    obtain ⟨k, v⟩ := f
    by_cases h : i = k
    · subst h
      simp only [tableErase, if_true, ih, List.mem_cons]
      constructor
      · rintro ⟨h1, h2⟩; exact ⟨.inr h1, h2⟩
      · rintro ⟨rfl | h1, h2⟩
        · exact absurd rfl h2
        · exact ⟨h1, h2⟩
    · simp [tableErase, h, ih]
      constructor
      · rintro (rfl | ⟨h1, h2⟩)
        · exact ⟨.inl rfl, fun e => h e.symm⟩
        · exact ⟨.inr h1, h2⟩
      · rintro ⟨rfl | h1, h2⟩
        · exact .inl rfl
        · exact .inr ⟨h1, h2⟩

theorem keysFrom_mono {lo lo' : Nat} (h : lo' ≤ lo) {t : Table α} (ht : keysFrom lo t = true) :
    keysFrom lo' t = true := by
  cases t with
  | nil => rfl
  | cons e t =>
    obtain ⟨k, v⟩ := e
    simp only [keysFrom, Bool.and_eq_true, decide_eq_true_eq] at ht ⊢
    exact ⟨le_trans h ht.1, ht.2⟩

/-- In a table whose keys rise from `lo`, every key is at least `lo`. -/
theorem le_of_mem_keysFrom {t : Table α} : ∀ {lo : Nat}, keysFrom lo t = true → ∀ e ∈ t, lo ≤ e.1 := by
  induction t with
  | nil => simp
  | cons f t ih =>
    obtain ⟨k, v⟩ := f
    intro lo h e he
    simp only [keysFrom, Bool.and_eq_true, decide_eq_true_eq] at h
    rcases List.mem_cons.1 he with rfl | he
    · exact h.1
    · exact le_trans h.1 (le_trans (Nat.le_succ k) (ih h.2 e he))

theorem keysFrom_tableSet {t : Table α} (i : Nat) (x : α) :
    ∀ {lo : Nat}, lo ≤ i → keysFrom lo t = true → keysFrom lo (tableSet t i x) = true := by
  induction t with
  | nil => intro lo hi _; simp [tableSet, keysFrom, hi]
  | cons f t ih =>
    obtain ⟨k, v⟩ := f
    intro lo hi h
    simp only [keysFrom, Bool.and_eq_true, decide_eq_true_eq] at h
    by_cases h1 : i < k
    · simp only [tableSet, h1, if_true, keysFrom, Bool.and_eq_true, decide_eq_true_eq]
      exact ⟨hi, h1, h.2⟩
    · by_cases h2 : i = k
      · subst h2
        simp [tableSet, keysFrom, hi, h.2]
      · have : k + 1 ≤ i := by omega
        simp [tableSet, h1, h2, keysFrom, h.1, ih this h.2]

theorem keysFrom_tableErase {t : Table α} (i : Nat) :
    ∀ {lo : Nat}, keysFrom lo t = true → keysFrom lo (tableErase t i) = true := by
  induction t with
  | nil => intro lo _; rfl
  | cons f t ih =>
    obtain ⟨k, v⟩ := f
    intro lo h
    simp only [keysFrom, Bool.and_eq_true, decide_eq_true_eq] at h
    by_cases h2 : i = k
    · subst h2
      simp only [tableErase, if_true]
      exact keysFrom_mono (le_trans h.1 (Nat.le_succ i)) (ih h.2)
    · simp [tableErase, h2, keysFrom, h.1, ih h.2]

/-- A write keeps the canonical order. -/
theorem tableSorted_tableSet {t : Table α} (i : Nat) (x : α) (h : tableSorted t = true) :
    tableSorted (tableSet t i x) = true := keysFrom_tableSet i x (Nat.zero_le i) h

/-- An erasure keeps the canonical order. -/
theorem tableSorted_tableErase {t : Table α} (i : Nat) (h : tableSorted t = true) :
    tableSorted (tableErase t i) = true := keysFrom_tableErase i h

/-- In canonical order, what is listed is what is found. -/
theorem tableGet_of_mem {t : Table α} {e : Nat × α} :
    ∀ {lo : Nat}, keysFrom lo t = true → e ∈ t → tableGet t e.1 = some e.2 := by
  induction t with
  | nil => simp
  | cons f t ih =>
    obtain ⟨k, v⟩ := f
    intro lo h he
    simp only [keysFrom, Bool.and_eq_true, decide_eq_true_eq] at h
    rcases List.mem_cons.1 he with rfl | he
    · simp [tableGet]
    · have := le_of_mem_keysFrom h.2 e he
      have hne : e.1 ≠ k := by omega
      simp [tableGet, hne, ih h.2 he]

/-- In canonical order nothing is found under a key below the least. -/
theorem tableGet_eq_none_of_lt {t : Table α} {lo i : Nat} (h : keysFrom lo t = true) (hi : i < lo) :
    tableGet t i = none := by
  cases hg : tableGet t i with
  | none => rfl
  | some x =>
    have := le_of_mem_keysFrom h _ (mem_of_tableGet hg)
    exact absurd this (by simp; omega)

/-- Tables in canonical order that hold the same under every key are the same list. -/
theorem table_ext {t : Table α} :
    ∀ {t' : Table α} {lo : Nat}, keysFrom lo t = true → keysFrom lo t' = true →
      (∀ i, tableGet t i = tableGet t' i) → t = t' := by
  induction t with
  | nil =>
    intro t' lo _ _ h
    cases t' with
    | nil => rfl
    | cons e t' => simpa [tableGet] using h e.1
  | cons e t ih =>
    intro t' lo ht ht' h
    obtain ⟨k, v⟩ := e
    cases t' with
    | nil => simpa [tableGet] using h k
    | cons e' t' =>
      obtain ⟨k', v'⟩ := e'
      simp only [keysFrom, Bool.and_eq_true, decide_eq_true_eq] at ht ht'
      have hkk : k = k' := by
        rcases lt_trichotomy k k' with hlt | heq | hgt
        · have := h k
          simp [tableGet, tableGet_eq_none_of_lt ht'.2 (by omega : k < k' + 1)] at this
          exact this.1
        · exact heq
        · have := h k'
          simp [tableGet, tableGet_eq_none_of_lt ht.2 (by omega : k' < k + 1)] at this
          exact this.1.symm
      subst hkk
      have hv : v = v' := by simpa [tableGet] using h k
      subst hv
      have : t = t' := ih ht.2 ht'.2 fun i => by
        by_cases hi : i = k
        · subst hi
          rw [tableGet_eq_none_of_lt ht.2 (Nat.lt_succ_self i),
            tableGet_eq_none_of_lt ht'.2 (Nat.lt_succ_self i)]
        · simpa [tableGet, hi] using h i
      rw [this]

end Sys2Proof.Machine
end

