-- ==== Sys2Proof/Laws/State.lean ====
section
/-! SUPPORT. One lemma per field per update of the state, so that no later proof unfolds a record update;
and what the unit table and the seed registry hold after each. -/

namespace Sys2Proof.Machine

/-! ### `State.answer` -/

section answer
variable (s : State) (c : Code) (v : Word)
@[simp] theorem answer_units : (s.answer c v).units = s.units := rfl
@[simp] theorem answer_hb : (s.answer c v).hb = s.hb := rfl
@[simp] theorem answer_seedcnt : (s.answer c v).seedcnt = s.seedcnt := rfl
@[simp] theorem answer_lasterr : (s.answer c v).lasterr = s.lasterr := rfl
@[simp] theorem answer_faults : (s.answer c v).faults = s.faults := rfl
@[simp] theorem answer_input : (s.answer c v).input = s.input := rfl
@[simp] theorem answer_port : (s.answer c v).port = .response ⟨c, v⟩ := rfl
@[simp] theorem answer_epoch : (s.answer c v).epoch = s.epoch := rfl
end answer

/-! ### `putUnit` and `dropUnit` -/

section units
variable (u : Nat) (U : DspUnit) (s : State)
@[simp] theorem putUnit_units : (putUnit u U s).units = tableSet s.units u U := rfl
@[simp] theorem putUnit_hb : (putUnit u U s).hb = s.hb := rfl
@[simp] theorem putUnit_seedcnt : (putUnit u U s).seedcnt = s.seedcnt := rfl
@[simp] theorem putUnit_lasterr : (putUnit u U s).lasterr = s.lasterr := rfl
@[simp] theorem putUnit_faults : (putUnit u U s).faults = s.faults := rfl
@[simp] theorem putUnit_input : (putUnit u U s).input = s.input := rfl
@[simp] theorem putUnit_port : (putUnit u U s).port = s.port := rfl
@[simp] theorem putUnit_epoch : (putUnit u U s).epoch = s.epoch := rfl
@[simp] theorem dropUnit_units : (dropUnit u s).units = tableErase s.units u := rfl
@[simp] theorem dropUnit_hb : (dropUnit u s).hb = s.hb := rfl
@[simp] theorem dropUnit_seedcnt : (dropUnit u s).seedcnt = s.seedcnt := rfl
@[simp] theorem dropUnit_lasterr : (dropUnit u s).lasterr = s.lasterr := rfl
@[simp] theorem dropUnit_faults : (dropUnit u s).faults = s.faults := rfl
@[simp] theorem dropUnit_input : (dropUnit u s).input = s.input := rfl
@[simp] theorem dropUnit_port : (dropUnit u s).port = s.port := rfl
@[simp] theorem dropUnit_epoch : (dropUnit u s).epoch = s.epoch := rfl
end units

/-! ### `putHostElem` -/

section hostElem
variable (C : Cfg) (h k : Nat) (v : Sample) (s : State)
@[simp] theorem putHostElem_units : (putHostElem C h k v s).units = s.units := rfl
@[simp] theorem putHostElem_seedcnt : (putHostElem C h k v s).seedcnt = s.seedcnt := rfl
@[simp] theorem putHostElem_lasterr : (putHostElem C h k v s).lasterr = s.lasterr := rfl
@[simp] theorem putHostElem_faults : (putHostElem C h k v s).faults = s.faults := rfl
@[simp] theorem putHostElem_input : (putHostElem C h k v s).input = s.input := rfl
@[simp] theorem putHostElem_port : (putHostElem C h k v s).port = s.port := rfl
@[simp] theorem putHostElem_epoch : (putHostElem C h k v s).epoch = s.epoch := rfl
end hostElem

/-! ### `drawSeed` -/

section seed
variable (t : Nat) (s : State)
@[simp] theorem drawSeed_units : (drawSeed t s).units = s.units := rfl
@[simp] theorem drawSeed_hb : (drawSeed t s).hb = s.hb := rfl
@[simp] theorem drawSeed_lasterr : (drawSeed t s).lasterr = s.lasterr := rfl
@[simp] theorem drawSeed_faults : (drawSeed t s).faults = s.faults := rfl
@[simp] theorem drawSeed_input : (drawSeed t s).input = s.input := rfl
@[simp] theorem drawSeed_port : (drawSeed t s).port = s.port := rfl
@[simp] theorem drawSeed_epoch : (drawSeed t s).epoch = s.epoch := rfl

/-- `NewSeed(t)` moves counter `t` by one, modulo 2^32, and no other. -/
theorem seedCount_drawSeed {t r : Nat} (ht : 1 ≤ t) (ht' : t ≤ 19) (hr : 1 ≤ r) :
    seedCount (drawSeed t s) r = if r = t then seedCount s t + 1#32 else seedCount s r := by
  unfold drawSeed
  by_cases h : r = t
  · subst h
    simp [seedCount, (by omega : r - 1 < 19)]
  · have : t - 1 ≠ r - 1 := by omega
    simp [seedCount, this, h]
end seed

/-! ### Reset -/

section hardReset
variable (s : State)
@[simp] theorem reset_units : State.reset.units = [] := rfl
@[simp] theorem reset_hb : State.reset.hb = [] := rfl
@[simp] theorem reset_lasterr : State.reset.lasterr = 0#32 := rfl
@[simp] theorem reset_faults : State.reset.faults = 0#32 := rfl
@[simp] theorem reset_input : State.reset.input = [] := rfl
@[simp] theorem reset_port : State.reset.port = .idle := rfl
@[simp] theorem reset_epoch : State.reset.epoch = 0 := rfl
@[simp] theorem hardReset_units : (hardReset s).units = [] := rfl
@[simp] theorem hardReset_hb : (hardReset s).hb = [] := rfl
@[simp] theorem hardReset_seedcnt : (hardReset s).seedcnt = State.reset.seedcnt := rfl
@[simp] theorem hardReset_lasterr : (hardReset s).lasterr = 0#32 := rfl
@[simp] theorem hardReset_faults : (hardReset s).faults = 0#32 := rfl
@[simp] theorem hardReset_input : (hardReset s).input = s.input := rfl
@[simp] theorem hardReset_port : (hardReset s).port = .idle := rfl
@[simp] theorem hardReset_epoch : (hardReset s).epoch = s.epoch + 1 := rfl
end hardReset

/-! ### The unit table -/

@[simp] theorem liveUnit_answer (C : Cfg) (s : State) (c : Code) (v : Word) (w : Nat) :
    liveUnit C (s.answer c v) w = liveUnit C s w := rfl

@[simp] theorem liveUnit_drawSeed (C : Cfg) (s : State) (t w : Nat) :
    liveUnit C (drawSeed t s) w = liveUnit C s w := rfl

/-- A slot holds what was last put in it. -/
theorem liveUnit_putUnit (C : Cfg) (u : Nat) (U : DspUnit) (s : State) (w : Nat) :
    liveUnit C (putUnit u U s) w =
      if w = u then (if u < C.nunits then some U else none) else liveUnit C s w := by
  unfold liveUnit
  by_cases h : w = u
  · subst h; simp
  · simp [h, tableGet_tableSet_of_ne]

theorem liveUnit_putUnit_of_ne (C : Cfg) {u w : Nat} (U : DspUnit) (s : State) (h : w ≠ u) :
    liveUnit C (putUnit u U s) w = liveUnit C s w := by simp [liveUnit_putUnit, h]

theorem liveUnit_putUnit_self {C : Cfg} {u : Nat} (U : DspUnit) (s : State) (h : u < C.nunits) :
    liveUnit C (putUnit u U s) u = some U := by simp [liveUnit_putUnit, h]

/-- A released slot is FREE, and no other slot changes. -/
theorem liveUnit_dropUnit (C : Cfg) (u : Nat) (s : State) (w : Nat) :
    liveUnit C (dropUnit u s) w = if w = u then none else liveUnit C s w := by
  unfold liveUnit
  by_cases h : w = u
  · subst h; simp
  · simp [h, tableGet_tableErase_of_ne]

/-- A live unit is in a slot that exists. -/
theorem lt_of_liveUnit {C : Cfg} {s : State} {u : Nat} {U : DspUnit} (h : liveUnit C s u = some U) :
    u < C.nunits := by
  unfold liveUnit at h
  split at h
  · assumption
  · cases h

/-- A live unit is what the table lists. -/
theorem tableGet_of_liveUnit {C : Cfg} {s : State} {u : Nat} {U : DspUnit}
    (h : liveUnit C s u = some U) : tableGet s.units u = some U := by
  unfold liveUnit at h
  split at h
  · assumption
  · cases h

/-- A slot that exists is FREE or live. -/
theorem slotFree_iff {C : Cfg} {s : State} {u : Nat} :
    slotFree C s u = true ↔ u < C.nunits ∧ liveUnit C s u = none := by
  unfold slotFree liveUnit
  by_cases h : u < C.nunits <;> simp [h]

end Sys2Proof.Machine
end

