-- ==== Sys2Proof/Laws/Memory.lean ====
section
/-! SUPPORT. Laws of buffer space: reading one element after each operation, and that every operation on
the host buffers keeps their canonical form. -/

namespace Sys2Proof.Machine

/-! ### Addresses -/

theorem indexOf_lt (a : Addr) : indexOf a < 256 := Nat.mod_lt _ (by decide)

theorem offsetOf_lt (a : Addr) : offsetOf a < 2 ^ 22 := Nat.mod_lt _ (by decide)

theorem addrNum_kind {h k : Nat} (_ : h < 256) (hk : k < 2 ^ 22) : addrNum 1 h k / 2 ^ 30 = 1 := by
  unfold addrNum; omega

theorem addrNum_index {h k : Nat} (hh : h < 256) (hk : k < 2 ^ 22) :
    addrNum 1 h k / 2 ^ 22 % 2 ^ 8 = h := by unfold addrNum; omega

theorem addrNum_offset {h k : Nat} (hk : k < 2 ^ 22) : addrNum 1 h k % 2 ^ 22 = k := by
  unfold addrNum; omega

theorem addrNum_inj {h k h' k' : Nat} (hk : k < 2 ^ 22) (hk' : k' < 2 ^ 22) : addrNum 1 h k = addrNum 1 h' k' ↔ h = h' ∧ k = k' := by
  unfold addrNum
  constructor
  · intro e; constructor <;> omega
  · rintro ⟨rfl, rfl⟩; rfl

/-- The fields of the address of a unit's output (40_system.md R138). -/
theorem outAddr_toNat {u : Nat} (hu : u < 256) : (outAddr u).toNat = 2 ^ 31 + u * 2 ^ 22 := by
  unfold outAddr addrNum
  rw [BitVec.toNat_ofNat]; omega

/-! ### Host elements -/

/-- Reading a host element after a write: the written element holds the written Sample. -/
theorem hostElem_putHostElem_self (C : Cfg) (h k : Nat) (v : Sample) (s : State) :
    hostElem C (putHostElem C h k v s) h k = v := by
  unfold hostElem putHostElem
  by_cases hv : v = unwritten C s.epoch h k <;> simp [hv]

/-- Every other host element is as before. -/
theorem hostElem_putHostElem_of_ne (C : Cfg) {h k h' k' : Nat} (v : Sample) (s : State)
    (hne : addrNum 1 h' k' ≠ addrNum 1 h k) :
    hostElem C (putHostElem C h k v s) h' k' = hostElem C s h' k' := by
  unfold hostElem putHostElem
  by_cases hv : v = unwritten C s.epoch h k
  · simp [hv, tableGet_tableErase_of_ne _ hne]
  · simp [hv, tableGet_tableSet_of_ne _ _ hne]

/-! ### Elements of buffer space -/

/-- What one element reads as depends on the host buffers, the draw and the unit table only. -/
theorem elemAt?_congr {C : Cfg} {s t : State} (hb : t.hb = s.hb) (he : t.epoch = s.epoch) {a : Addr}
    (hu : kindOf a = 2 → tableGet t.units (indexOf a) = tableGet s.units (indexOf a)) (i : Nat) :
    elemAt? C t a i = elemAt? C s a i := by
  unfold elemAt? hostElem liveUnit
  rw [hb, he]
  split <;> rename_i hk
  · rfl
  · rw [hu hk]
  · rfl

@[simp] theorem elemAt?_answer (C : Cfg) (s : State) (c : Code) (v : Word) (a : Addr) (i : Nat) :
    elemAt? C (s.answer c v) a i = elemAt? C s a i := rfl

@[simp] theorem elemAt?_drawSeed (C : Cfg) (s : State) (t : Nat) (a : Addr) (i : Nat) :
    elemAt? C (drawSeed t s) a i = elemAt? C s a i := rfl

/-- Putting a unit in slot `u` changes no element outside the output of unit `u`. -/
theorem elemAt?_putUnit {C : Cfg} {u : Nat} (U : DspUnit) (s : State) {a : Addr}
    (h : ¬ (kindOf a = 2 ∧ indexOf a = u)) (i : Nat) :
    elemAt? C (putUnit u U s) a i = elemAt? C s a i :=
  elemAt?_congr (by rfl) (by rfl)
    (fun hk => tableGet_tableSet_of_ne _ _ fun hi => h ⟨hk, hi⟩) i

/-- Releasing slot `u` changes no element outside the output of unit `u`. -/
theorem elemAt?_dropUnit {C : Cfg} {u : Nat} (s : State) {a : Addr}
    (h : ¬ (kindOf a = 2 ∧ indexOf a = u)) (i : Nat) :
    elemAt? C (dropUnit u s) a i = elemAt? C s a i :=
  elemAt?_congr (by rfl) (by rfl)
    (fun hk => tableGet_tableErase_of_ne _ fun hi => h ⟨hk, hi⟩) i

/-- Inside a region every element exists, in a unit's output as long as the buffer has its length. -/
theorem elemAt?_isSome {C : Cfg} {s : State} {a : Addr} {n : Nat} (h : inRegion C s a n = true)
    (hlen : ∀ U, liveUnit C s (indexOf a) = some U → U.out.length = U.nch * C.bufsize)
    {i : Nat} (hi : i < n) : (elemAt? C s a i).isSome = true := by
  unfold inRegion at h
  unfold elemAt?
  split at h
  · simp only [Bool.and_eq_true, decide_eq_true_eq] at h
    simp [*, (by omega : offsetOf a + i < C.hblen)]
  · split at h
    · rename_i hU
      simp only [decide_eq_true_eq] at h
      have := hlen _ hU
      simp [*]
      omega
    · cases h
  · cases h

/-- Where an element exists, reading it gives it. -/
theorem elemAt_of_some {C : Cfg} {s : State} {a : Addr} {i : Nat} {v : Sample}
    (h : elemAt? C s a i = some v) : elemAt C s a i = v := by simp [elemAt, h]

/-- `MemRead` gives `n` Samples, element by element. -/
@[simp] theorem memRead_length (C : Cfg) (s : State) (a : Addr) (n : Nat) :
    (memRead C s a n).length = n := by simp [memRead]

theorem memRead_getD (C : Cfg) (s : State) (a : Addr) {n i : Nat} (h : i < n) :
    (memRead C s a n).getD i f0 = elemAt C s a i := by simp [memRead, h]

/-! ### The canonical form -/

theorem memory_wf_nil (C : Cfg) (epoch : Nat) : Memory.wf C epoch [] = true := rfl

/-- Writing a host element keeps the canonical form. -/
theorem putHostElem_wf {C : Cfg} {s : State} {h k : Nat} (v : Sample)
    (hh : h < C.nhostbuf) (hn : C.nhostbuf ≤ 256) (hk : k < C.hblen) (hl : C.hblen ≤ 2 ^ 22)
    (w : Memory.wf C s.epoch s.hb = true) :
    Memory.wf C s.epoch (putHostElem C h k v s).hb = true := by
  have h256 : h < 256 := by omega
  have hk22 : k < 2 ^ 22 := by omega
  unfold Memory.wf at w ⊢
  simp only [Bool.and_eq_true, List.all_eq_true] at w ⊢
  unfold putHostElem
  by_cases hv : v = unwritten C s.epoch h k
  · simp only [hv, if_true]
    exact ⟨tableSorted_tableErase _ w.1, fun e he => w.2 e (mem_tableErase.1 he).1⟩
  · simp only [hv, if_false]
    refine ⟨tableSorted_tableSet _ _ w.1, fun e he => ?_⟩
    rcases mem_tableSet he with rfl | he
    · unfold Memory.cellOk
      simp only [addrNum_kind h256 hk22, addrNum_index h256 hk22, addrNum_offset hk22, hh, hk, hv,
        decide_true, Bool.and_self, ne_eq, not_false_iff]
    · exact w.2 e he

/-- Reset leaves the host buffers in canonical form. -/
theorem reset_hb_wf (C : Cfg) : Memory.wf C State.reset.epoch State.reset.hb = true := rfl

/-- Host buffers in canonical form that read alike are the same data. -/
theorem memory_ext {C : Cfg} {s t : State} (hs : Memory.wf C s.epoch s.hb = true)
    (ht : Memory.wf C t.epoch t.hb = true) (he : s.epoch = t.epoch)
    (h : ∀ i k, i < C.nhostbuf → k < C.hblen → hostElem C s i k = hostElem C t i k) : s.hb = t.hb := by
  simp only [Memory.wf, Bool.and_eq_true, List.all_eq_true] at hs ht
  have key : ∀ (a b : State), (∀ e ∈ a.hb, Memory.cellOk C a.epoch e = true) → a.epoch = b.epoch →
      (∀ i k, i < C.nhostbuf → k < C.hblen → hostElem C a i k = hostElem C b i k) →
      ∀ n x, tableGet a.hb n = some x → tableGet b.hb n = some x := by
    intro a b ha hab hr n x hx
    have hc := ha _ (mem_of_tableGet hx)
    simp only [Memory.cellOk, Bool.and_eq_true, decide_eq_true_eq] at hc
    obtain ⟨⟨⟨h1, h2⟩, h3⟩, h4⟩ := hc
    have hn : addrNum 1 (n / 2 ^ 22 % 2 ^ 8) (n % 2 ^ 22) = n := by unfold addrNum; omega
    have he := hr _ _ h2 h3
    simp only [hostElem, hn, hx, Option.getD_some] at he
    cases hb : tableGet b.hb n with
    | none => rw [hb, Option.getD_none, ← hab] at he; exact absurd he h4
    | some y => rw [hb, Option.getD_some] at he; rw [he]
  refine table_ext hs.1 ht.1 fun n => ?_
  cases hx : tableGet s.hb n with
  | some x => exact (key s t hs.2 he h n x hx).symm
  | none =>
    cases hy : tableGet t.hb n with
    | none => rfl
    | some y =>
      have := key t s ht.2 he.symm (fun i k hi hk => (h i k hi hk).symm) n y hy
      rw [hx] at this; cases this

/-! ### The frame of the unit operations -/

/-- Every command that ends by putting its unit back touches nothing else. -/
theorem did_putUnit (C : Cfg) (u : Nat) (U : DspUnit) (s : State) :
    s.Did C u ((putUnit u U s).answer .ok 0#32) where
  units _ hv := tableGet_tableSet_of_ne _ _ hv
  hb := rfl
  elements _ i ha := elemAt?_putUnit U s ha i
  seedcnt := rfl
  lasterr := rfl
  faults := rfl
  input := rfl
  epoch := rfl
  port := rfl

/-- Releasing a unit touches nothing else. -/
theorem did_dropUnit (C : Cfg) (u : Nat) (s : State) :
    s.Did C u ((dropUnit u s).answer .ok 0#32) where
  units _ hv := tableGet_tableErase_of_ne _ hv
  hb := rfl
  elements _ i ha := elemAt?_dropUnit s ha i
  seedcnt := rfl
  lasterr := rfl
  faults := rfl
  input := rfl
  epoch := rfl
  port := rfl

end Sys2Proof.Machine
end

