-- ==== Sys2Proof/Laws/Run.lean ====
section
/-! SUPPORT. Laws of running over a block: `scan` and `channelMajor`. -/

namespace Sys2Proof.Machine

section scan
variable {σ β α : Type} (f : σ → β → σ × α)

@[simp] theorem scan_nil (st : σ) : scan f st [] = (st, []) := rfl

theorem scan_cons (st : σ) (x : β) (xs : List β) :
    scan f st (x :: xs) = ((scan f (f st x).1 xs).1, (f st x).2 :: (scan f (f st x).1 xs).2) := rfl

@[simp] theorem scan_length (st : σ) (xs : List β) : (scan f st xs).2.length = xs.length := by
  induction xs generalizing st with
  | nil => rfl
  | cons x xs ih => simp [scan_cons, ih]

/-- Running over two stretches is running over the second from where the first ended. -/
theorem scan_append (st : σ) (xs ys : List β) :
    scan f st (xs ++ ys) =
      ((scan f (scan f st xs).1 ys).1, (scan f st xs).2 ++ (scan f (scan f st xs).1 ys).2) := by
  induction xs generalizing st with
  | nil => rfl
  | cons x xs ih => simp [scan_cons, ih]

/-- What every step keeps, the run keeps. -/
theorem scan_keeps {P : σ → Prop} (h : ∀ st x, P st → P (f st x).1) {st : σ} (h0 : P st)
    (xs : List β) : P (scan f st xs).1 := by
  induction xs generalizing st with
  | nil => exact h0
  | cons x xs ih => exact ih (h st x h0)

/-- What holds of every result of a step holds of every result of the run. -/
theorem scan_results {P : σ → Prop} {Q : α → Prop} (hP : ∀ st x, P st → P (f st x).1)
    (hQ : ∀ st x, P st → Q (f st x).2) {st : σ} (h0 : P st) (xs : List β) :
    ∀ y ∈ (scan f st xs).2, Q y := by
  induction xs generalizing st with
  | nil => simp
  | cons x xs ih =>
    intro y hy
    rcases List.mem_cons.1 hy with rfl | hy
    · exact hQ st x h0
    · exact ih (hP st x h0) y hy

end scan

section range
variable {σ α : Type} (f : σ → Nat → σ × α)

theorem scan_range_succ (st : σ) (n : Nat) :
    scan f st (List.range (n + 1)) =
      ((f (scan f st (List.range n)).1 n).1,
        (scan f st (List.range n)).2 ++ [(f (scan f st (List.range n)).1 n).2]) := by
  rw [List.range_succ, scan_append]
  rfl

/-- A run over the samples `0 .. n-1` goes through states `q 0, .., q n`; result `i` is that of the step
from `q i`. -/
theorem scan_range_spec (st : σ) (n : Nat) :
    ∃ q : Nat → σ, q 0 = st ∧ (∀ i, q (i + 1) = (f (q i) i).1) ∧
      (scan f st (List.range n)).1 = q n ∧
      ∀ i, i < n → (scan f st (List.range n)).2[i]? = some (f (q i) i).2 := by
  refine ⟨fun i => (scan f st (List.range i)).1, rfl,
    fun i => congrArg Prod.fst (scan_range_succ f st i), rfl, ?_⟩
  induction n with
  | zero => intro i hi; omega
  | succ n ih =>
    intro i hi
    rw [scan_range_succ]
    by_cases h : i < n
    · rw [List.getElem?_append_left (by simpa using h)]
      exact ih i h
    · have : i = n := by omega
      subst this
      rw [List.getElem?_append_right (by simp)]
      simp

end range

/-! ### Output buffers -/

theorem channelMajor_length (nch : Nat) (rows : List (List Sample)) :
    (channelMajor nch rows).length = nch * rows.length := by
  simp [channelMajor]

/-- Sample `i` of channel `c` is at element `c * BUFSIZE + i` (10_state.md R29). -/
theorem channelMajor_getElem? {nch c i : Nat} (rows : List (List Sample)) (hc : c < nch)
    (hi : i < rows.length) :
    (channelMajor nch rows)[c * rows.length + i]? = some ((rows[i]).getD c f0) := by
  unfold channelMajor
  induction nch with
  | zero => omega
  | succ n ih =>
    have hlen := channelMajor_length n rows
    unfold channelMajor at hlen
    rw [List.range_succ, List.flatMap_append]
    by_cases h : c < n
    · rw [List.getElem?_append_left]
      · exact ih h
      · rw [hlen]
        calc c * rows.length + i < c * rows.length + rows.length := by omega
          _ = (c + 1) * rows.length := by rw [Nat.succ_mul]
          _ ≤ n * rows.length := Nat.mul_le_mul_right _ h
    · have : c = n := by omega
      subst this
      rw [List.getElem?_append_right (by rw [hlen]; omega), hlen]
      simp [hi]

/-- A buffer of `rows.length` samples per channel, at the element of any instant of any channel. -/
theorem channelMajor_at {nch c i n : Nat} {rows : List (List Sample)} (hn : rows.length = n)
    (hc : c < nch) (hi : i < n) {row : List Sample} (hrow : rows[i]? = some row) :
    (channelMajor nch rows)[c * n + i]? = some (row.getD c f0) := by
  subst hn
  rw [channelMajor_getElem? rows hc hi]
  rw [List.getElem?_eq_getElem hi] at hrow
  simp only [Option.some.injEq] at hrow
  rw [hrow]

/-! ### Slots of a new unit -/

@[simp] theorem slotBank_length (xs : List Slot) : (slotBank xs).length = 16 := by
  simp [slotBank]

/-- The first slots are the given ones, the rest blank. -/
theorem slotBank_getD {xs : List Slot} (h : xs.length ≤ 16) (k : Nat) :
    (slotBank xs).getD k blankSlot = xs.getD k blankSlot := by
  unfold slotBank
  simp only [List.getD_eq_getElem?_getD, List.getElem?_take]
  by_cases hk : k < 16
  · simp only [hk, if_true]
    by_cases hx : k < xs.length
    · rw [List.getElem?_append_left hx]
    · rw [List.getElem?_append_right (by omega), List.getElem?_eq_none (by omega : xs.length ≤ k)]
      simp only [List.getElem?_replicate, Option.getD_none]
      split <;> rfl
  · simp only [hk, if_false, Option.getD_none]
    rw [List.getElem?_eq_none (by omega : xs.length ≤ k)]
    rfl

end Sys2Proof.Machine
end

