-- ==== Sys2Proof/Laws/Commands.lean ====
section
/-! SUPPORT. What the shared operations of the commands can do, said once: raising, ending `OK`, needing a
live unit or a MIXER, building a unit. -/

namespace Sys2Proof.Machine

/-! ### Ends of a command -/

theorem done_eq (s : State) : done s = .next (s.answer .ok 0#32) := rfl

theorem doneWith_eq (v : Word) (s : State) : doneWith v s = .next (s.answer .ok v) := rfl

/-- `raise` answers a next state, and its whole effect is that of R372. -/
theorem raise_next {e : Code} {s t : State} : raise e s = .next t ↔ s.Erred e t := by
  unfold raise State.Erred
  constructor
  · intro h; injection h with h; exact h.symm
  · rintro rfl; rfl

theorem erred_raise (e : Code) (s : State) : ∃ t, raise e s = .next t ∧ s.Erred e t :=
  ⟨_, rfl, rfl⟩

/-! ### Commands on a live unit -/

theorem withLive_some {C : Cfg} {u : Byte} {s : State} {k : DspUnit → Result} {U : DspUnit}
    (h : liveUnit C s u.toNat = some U) : withLive C u s k = k U := by simp [withLive, h]

theorem withLive_none {C : Cfg} {u : Byte} {s : State} {k : DspUnit → Result}
    (h : liveUnit C s u.toNat = none) : withLive C u s k = raise .badUnit s := by simp [withLive, h]

/-- A command that needs a live unit finds one or raises E_BADUNIT. -/
theorem withLive_cases (C : Cfg) (u : Byte) (s : State) (k : DspUnit → Result) :
    withLive C u s k = raise .badUnit s ∨
      ∃ U, liveUnit C s u.toNat = some U ∧ withLive C u s k = k U := by
  cases h : liveUnit C s u.toNat with
  | none => exact .inl (withLive_none h)
  | some U => exact .inr ⟨U, rfl, withLive_some h⟩

theorem withMixer_some {C : Cfg} {u : Byte} {s : State} {k : DspUnit → Mixer → Result} {U : DspUnit}
    {m : Mixer} (h : liveUnit C s u.toNat = some U) (hm : U.body = .mixer m) :
    withMixer C u s k = k U m := by simp [withMixer, h, hm]

/-- A Mixer command finds a MIXER, or raises E_BADUNIT or E_BADTYPE. -/
theorem withMixer_cases (C : Cfg) (u : Byte) (s : State) (k : DspUnit → Mixer → Result) :
    (∃ e, e ≠ .ok ∧ withMixer C u s k = raise e s) ∨
      ∃ U m, liveUnit C s u.toNat = some U ∧ U.body = .mixer m ∧ withMixer C u s k = k U m := by
  cases h : liveUnit C s u.toNat with
  | none => exact .inl ⟨.badUnit, by decide, by simp [withMixer, h]⟩
  | some U =>
    cases hb : U.body
    case mixer m => exact .inr ⟨U, m, rfl, hb, withMixer_some h hb⟩
    all_goals exact .inl ⟨.badType, by decide, by simp [withMixer, h, hb]⟩

/-! ### What COMPUTE reads -/

/-- The handles a COMPUTE reads: the unit's input, its streamed slots, its further inputs. -/
theorem mem_readHandles {C : Cfg} {U : DspUnit} {x : Addr × Nat} :
    x ∈ readHandles C U ↔
      (readsInput U.body = true ∧ x = (U.inp, inputLength C U.body)) ∨
      (∃ p ∈ U.p, p.mode = .stream ∧ x = (p.h, C.bufsize)) ∨
      ∃ a ∈ extraInputs U.body, x = (a, C.bufsize) := by
  unfold readHandles
  cases hr : readsInput U.body <;> simp [eq_comm, and_assoc]

/-- The handles are live when each of them names a region. -/
theorem handlesLive_iff {C : Cfg} {s : State} {U : DspUnit} :
    handlesLive C s U = true ↔ ∀ x ∈ readHandles C U, inRegion C s x.1 x.2 = true := by
  simp [handlesLive]

/-! ### Building a unit -/

/-- No check of a `NEW.*` fails exactly when the slot is FREE, every handle binds, the argument check and
the capacity check hold. -/
theorem newCheck_eq_none {C : Cfg} {s : State} {u : Nat} {hs : List (Addr × Nat)} {argOk capOk : Bool} :
    newCheck C s u hs argOk capOk = none ↔
      slotFree C s u = true ∧ (∀ h ∈ hs, bindOk C s u h.1 h.2 = true) ∧ argOk = true ∧ capOk = true := by
  unfold newCheck
  cases hf : slotFree C s u <;> cases hb : hs.all fun h => bindOk C s u h.1 h.2 <;>
    cases argOk <;> cases capOk <;> simp_all

/-- The code of a failing check is never `OK`. -/
theorem newCheck_ne_ok {C : Cfg} {s : State} {u : Nat} {hs : List (Addr × Nat)} {argOk capOk : Bool}
    {e : Code} (h : newCheck C s u hs argOk capOk = some e) : e ≠ .ok := by
  unfold newCheck at h
  split at h
  · cases h; decide
  · split at h
    · cases h; decide
    · split at h
      · cases h; decide
      · split at h
        · cases h; decide
        · cases h

/-- A `NEW.*` whose checks hold puts its unit in the slot. -/
theorem newUnit_ok {C : Cfg} {u : Byte} {hs : List (Addr × Nat)} {argOk capOk : Bool} {U : DspUnit}
    {s : State} (hf : slotFree C s u.toNat = true) (hb : ∀ h ∈ hs, bindOk C s u.toNat h.1 h.2 = true)
    (ha : argOk = true) (hc : capOk = true) :
    newUnit C u hs argOk capOk U s = done (putUnit u.toNat U s) := by
  simp [newUnit, newCheck_eq_none.2 ⟨hf, hb, ha, hc⟩]

/-- A `NEW.*` raises an error, or its checks hold and the unit is in its slot. -/
theorem newUnit_cases (C : Cfg) (u : Byte) (hs : List (Addr × Nat)) (argOk capOk : Bool) (U : DspUnit)
    (s : State) :
    (∃ e, e ≠ .ok ∧ newUnit C u hs argOk capOk U s = raise e s) ∨
      (slotFree C s u.toNat = true ∧ (∀ h ∈ hs, bindOk C s u.toNat h.1 h.2 = true) ∧ argOk = true ∧
        capOk = true ∧ newUnit C u hs argOk capOk U s = done (putUnit u.toNat U s)) := by
  cases h : newCheck C s u.toNat hs argOk capOk with
  | some e => exact .inl ⟨e, newCheck_ne_ok h, by simp [newUnit, h]⟩
  | none =>
    obtain ⟨hf, hb, ha, hc⟩ := newCheck_eq_none.1 h
    exact .inr ⟨hf, hb, ha, hc, newUnit_ok hf hb ha hc⟩

/-- NEW.FREEVERB raises an error, or its checks hold, the seed is drawn and the unit is in its slot. -/
theorem newFreeverbOn_cases (C : Cfg) (u : Byte) (inp : Addr) (size damp mix : XOp) (s : State) :
    (∃ e, e ≠ .ok ∧ newFreeverbOn C u inp size damp mix s = raise e s) ∨
      (slotFree C s u.toNat = true ∧
        (∀ h ∈ (inp, C.bufsize) :: streamHandles C [size, damp, mix],
          bindOk C s u.toNat h.1 h.2 = true) ∧
        delaysFit C (jitterOf C (nextSeed C s 9)) = true ∧
        newFreeverbOn C u inp size damp mix s =
          done (putUnit u.toNat
            (freshUnit C 1 inp [xslot size, xslot damp, xslot mix]
              (.freeverb (freshFreeverb C (nextSeed C s 9)))) (drawSeed 9 s))) := by
  cases h : newCheck C s u.toNat ((inp, C.bufsize) :: streamHandles C [size, damp, mix]) true
      (delaysFit C (jitterOf C (nextSeed C s 9))) with
  | some e => exact .inl ⟨e, newCheck_ne_ok h, by simp [newFreeverbOn, freeverbType, h]⟩
  | none =>
    obtain ⟨hf, hb, _, hc⟩ := newCheck_eq_none.1 h
    exact .inr ⟨hf, hb, hc, by simp [newFreeverbOn, freeverbType, h]⟩

/-- A new unit has the common fields of R141. -/
theorem fresh_freshUnit (C : Cfg) (nch : Nat) (inh : Addr) {slots : List Slot} (body : Body)
    (h : slots.length ≤ 16) : (freshUnit C nch inh slots body).Fresh C nch inh slots where
  nch_eq := rfl
  out_length := List.length_replicate
  out_zero _ hx := List.eq_of_mem_replicate hx
  inp_eq := rfl
  cb_eq := rfl
  slots_length := slotBank_length slots
  slots_eq k := slotBank_getD h k

/-- The stream operands are the handles a constructor checks, each for one block. -/
theorem mem_streamHandles {C : Cfg} {xs : List XOp} {h : Addr × Nat} :
    h ∈ streamHandles C xs ↔ .stream h.1 ∈ xs ∧ h.2 = C.bufsize := by
  unfold streamHandles
  rw [List.mem_filterMap]
  constructor
  · rintro ⟨x, hx, he⟩
    cases x with
    | const c => cases he
    | stream a => injection he with he; subst he; exact ⟨hx, rfl⟩
  · rintro ⟨hx, hn⟩
    exact ⟨_, hx, by rw [← hn]⟩

/-- A constructor whose handles are bindable passes its handle check. -/
theorem bindable_handles {C : Cfg} {s : State} {u : Nat} {inputs : List Addr} {xs : List XOp}
    (h : Bindable C s u inputs xs) :
    (∀ p ∈ inputs.map fun a => (a, C.bufsize), bindOk C s u p.1 p.2 = true) ∧
      ∀ p ∈ streamHandles C xs, bindOk C s u p.1 p.2 = true := by
  constructor
  · intro p hp
    obtain ⟨a, ha, rfl⟩ := List.mem_map.1 hp
    exact h.1 a ha
  · intro p hp
    obtain ⟨hx, hn⟩ := mem_streamHandles.1 hp
    rw [hn]
    exact h.2 _ hx

end Sys2Proof.Machine
end

