-- ==== Sys2Proof/Laws/Compute.lean ====
section
/-! SUPPORT. What COMPUTE does on a unit whose handles are live, said once for every type: the unit becomes
`computeUnit`, which keeps its channels, its input, its slots and its type (40_system.md R135, R136). -/

namespace Sys2Proof.Machine

open Sys2Proof.Config (cfg)

/-- The compute rules write only the output, the completion flag and the type-specific state. -/
theorem computeUnit_same (C : Cfg) (s : State) (U : DspUnit) : U.Same (computeUnit C s U) := by
  unfold computeUnit
  split <;> rename_i h <;>
    exact ⟨rfl, rfl, rfl, by simp [h, typeCode, computeBsplit, computeFourband, computeMultiband,
      computeConvolve, computeIrwinsinc, computeIraverage, computeIrpulse, computeIrfm, computeFreeverb,
      computeSig, computeSigto, computeVarport, computeMixer, computeScale, computeResample, computePan,
      computeSwitch, computeSelector, computeConv]⟩

/-- COMPUTE on a live unit whose handles are live. -/
theorem exec_compute_of_ready {u : Byte} {s : State} {U : DspUnit} (h : Ready cfg u s U) :
    exec (.compute u) s = done (putUnit u.toNat (computeUnit cfg s U) s) := by
  show computeOn cfg u s = _
  unfold computeOn
  rw [withLive_some h.1, if_pos h.2]

/-- COMPUTE turns the unit into `computeUnit` of it and touches nothing else. -/
theorem computes_of_ready {u : Byte} {s : State} {U : DspUnit} (h : Ready cfg u s U) :
    Computes cfg u s U (computeUnit cfg s U) :=
  ⟨_, (exec_compute_of_ready h).trans (done_eq _), did_putUnit cfg _ _ s,
    liveUnit_putUnit_self _ _ (lt_of_liveUnit h.1), computeUnit_same cfg s U⟩

end Sys2Proof.Machine
end

