-- ==== Sys2Proof/Laws/Decode.lean ====
section
/-! SUPPORT. Laws of the header word, of the mode mask and of the two directions of the encoding. -/

namespace Sys2Proof

/-! ### The fields of a header -/

section header
variable (op u s a : Byte)

@[simp] theorem opOf_mkHeader : opOf (mkHeader op u s a) = op := by
  apply BitVec.eq_of_getLsbD_eq; intro i hi
  simp only [opOf, mkHeader, BitVec.getLsbD_extractLsb', BitVec.getLsbD_append, hi, decide_true,
    Bool.true_and]
  have h1 : ¬ (24 + i < 8) := by omega
  have h2 : ¬ (24 + i - 8 < 8) := by omega
  have h3 : ¬ (24 + i - 8 - 8 < 8) := by omega
  simp [h1, h2, h3, (by omega : 24 + i - 8 - 8 - 8 = i)]

@[simp] theorem unitOf_mkHeader : unitOf (mkHeader op u s a) = u := by
  apply BitVec.eq_of_getLsbD_eq; intro i hi
  simp only [unitOf, mkHeader, BitVec.getLsbD_extractLsb', BitVec.getLsbD_append, hi, decide_true,
    Bool.true_and]
  have h1 : ¬ (16 + i < 8) := by omega
  have h2 : ¬ (16 + i - 8 < 8) := by omega
  simp only [h1, h2, hi, if_false, if_true, (by omega : 16 + i - 8 - 8 = i)]

@[simp] theorem selOf_mkHeader : selOf (mkHeader op u s a) = s := by
  apply BitVec.eq_of_getLsbD_eq; intro i hi
  simp only [selOf, mkHeader, BitVec.getLsbD_extractLsb', BitVec.getLsbD_append, hi, decide_true,
    Bool.true_and]
  have h1 : ¬ (8 + i < 8) := by omega
  simp only [h1, hi, if_false, if_true, (by omega : 8 + i - 8 = i)]

@[simp] theorem argOf_mkHeader : argOf (mkHeader op u s a) = a := by
  apply BitVec.eq_of_getLsbD_eq; intro i hi
  simp only [argOf, mkHeader, BitVec.getLsbD_extractLsb', BitVec.getLsbD_append, hi, decide_true,
    Bool.true_and]
  simp [hi]

/-- A header is the concatenation of its four fields. -/
theorem mkHeader_fields (h : Word) : mkHeader (opOf h) (unitOf h) (selOf h) (argOf h) = h := by
  apply BitVec.eq_of_getLsbD_eq; intro i hi
  simp only [mkHeader, opOf, unitOf, selOf, argOf, BitVec.getLsbD_append, BitVec.getLsbD_extractLsb']
  by_cases h1 : i < 8
  · simp [h1]
  · by_cases h2 : i - 8 < 8
    · simp [h1, h2, (by omega : 8 + (i - 8) = i)]
    · by_cases h3 : i - 8 - 8 < 8
      · simp [h1, h2, h3, (by omega : 16 + (i - 8 - 8) = i)]
      · simp [h1, h2, h3, (by omega : i - 8 - 8 - 8 < 8), (by omega : 24 + (i - 8 - 8 - 8) = i)]

/-- A mask acts on each field by itself. -/
theorem mkHeader_and (op' u' s' a' : Byte) :
    mkHeader op u s a &&& mkHeader op' u' s' a' =
      mkHeader (op &&& op') (u &&& u') (s &&& s') (a &&& a') := by
  unfold mkHeader
  erw [BitVec.and_append, BitVec.and_append, BitVec.and_append]

theorem mkHeader_inj {op u s a op' u' s' a' : Byte} :
    mkHeader op u s a = mkHeader op' u' s' a' ↔ op = op' ∧ u = u' ∧ s = s' ∧ a = a' := by
  constructor
  · intro h
    have h1 := congrArg opOf h
    have h2 := congrArg unitOf h
    have h3 := congrArg selOf h
    have h4 := congrArg argOf h
    simp only [opOf_mkHeader, unitOf_mkHeader, selOf_mkHeader, argOf_mkHeader] at h1 h2 h3 h4
    exact ⟨h1, h2, h3, h4⟩
  · rintro ⟨rfl, rfl, rfl, rfl⟩; rfl

end header

/-! ### The mode mask (30_encoding.md R93) -/

/-- Reading an operand back under its own mask bit gives it. -/
@[simp] theorem xop_of_bit (x : XOp) : (if x.bit then XOp.stream x.word else .const x.word) = x := by
  cases x <;> rfl

section selBits
variable (b0 b1 b2 b3 b7 : Bool)

@[simp] theorem selBits_0 : (selBits b0 b1 b2 b3 b7).getLsbD 0 = b0 := by
  revert b0 b1 b2 b3 b7; decide
@[simp] theorem selBits_1 : (selBits b0 b1 b2 b3 b7).getLsbD 1 = b1 := by
  revert b0 b1 b2 b3 b7; decide
@[simp] theorem selBits_2 : (selBits b0 b1 b2 b3 b7).getLsbD 2 = b2 := by
  revert b0 b1 b2 b3 b7; decide
@[simp] theorem selBits_3 : (selBits b0 b1 b2 b3 b7).getLsbD 3 = b3 := by
  revert b0 b1 b2 b3 b7; decide
@[simp] theorem selBits_7 : (selBits b0 b1 b2 b3 b7).getLsbD 7 = b7 := by
  revert b0 b1 b2 b3 b7; decide


/-- `selBits_7` as `simp` spells the bit. -/
@[simp] theorem selBits_lin : (selBits b0 b1 b2 b3 b7)[7] = b7 := by
  revert b0 b1 b2 b3 b7; decide

end selBits

/-- Slot `s` reads its own operand back. -/
theorem xopOf_bit {sel : Byte} {s : Nat} (x : XOp) (h : sel.getLsbD s = x.bit) :
    xopOf sel s x.word = x := by
  unfold xopOf; rw [h]; exact xop_of_bit x

section xops
variable (x : XOp) (b0 b1 b2 b3 b7 : Bool)
@[simp] theorem xopOf_slot0 : xopOf (selBits x.bit b1 b2 b3 b7) 0 x.word = x :=
  xopOf_bit x (selBits_0 ..)
@[simp] theorem xopOf_slot1 : xopOf (selBits b0 x.bit b2 b3 b7) 1 x.word = x :=
  xopOf_bit x (selBits_1 ..)
@[simp] theorem xopOf_slot2 : xopOf (selBits b0 b1 x.bit b3 b7) 2 x.word = x :=
  xopOf_bit x (selBits_2 ..)
@[simp] theorem xopOf_slot3 : xopOf (selBits b0 b1 b2 x.bit b7) 3 x.word = x :=
  xopOf_bit x (selBits_3 ..)
end xops

@[simp] theorem dirOf_bit (d : Dir) (f : BitVec 7) : dirOf (BitVec.ofBool d.bit ++ f) = d := by
  have h : (BitVec.ofBool d.bit ++ f).getLsbD 7 = d.bit := by
    erw [BitVec.getLsbD_append]; cases d <;> rfl
  unfold dirOf; rw [h]; cases d <;> rfl

@[simp] theorem factor_of_sel (b : Bool) (f : BitVec 7) :
    (BitVec.ofBool b ++ f).extractLsb' 0 7 = f := by
  apply BitVec.eq_of_getLsbD_eq; intro i hi
  rw [BitVec.getLsbD_extractLsb']
  simp only [hi, decide_true, Bool.true_and, Nat.zero_add]
  erw [BitVec.getLsbD_append]
  simp [hi]

/-! ### Decoding -/

section words
variable (w1 w2 w3 w4 w5 w6 : Word) (ws : List Word)
@[simp] theorem words0_nil (i : Instr) : words0 i [] = some i := rfl
@[simp] theorem words1_one (k : Word → Instr) : words1 k [w1] = some (k w1) := rfl
@[simp] theorem words2_two (k : Word → Word → Instr) : words2 k [w1, w2] = some (k w1 w2) := rfl
@[simp] theorem words3_three (k : Word → Word → Word → Instr) :
    words3 k [w1, w2, w3] = some (k w1 w2 w3) := rfl
@[simp] theorem words4_four (k : Word → Word → Word → Word → Instr) :
    words4 k [w1, w2, w3, w4] = some (k w1 w2 w3 w4) := rfl
@[simp] theorem words5_five (k : Word → Word → Word → Word → Word → Instr) :
    words5 k [w1, w2, w3, w4, w5] = some (k w1 w2 w3 w4 w5) := rfl
@[simp] theorem words6_six (k : Word → Word → Word → Word → Word → Word → Instr) :
    words6 k [w1, w2, w3, w4, w5, w6] = some (k w1 w2 w3 w4 w5 w6) := rfl
@[simp] theorem wordsFrom1_cons (k : Word → List Word → Instr) :
    wordsFrom1 k (w1 :: ws) = some (k w1 ws) := rfl
@[simp] theorem wordsFrom2_cons (k : Word → Word → List Word → Instr) :
    wordsFrom2 k (w1 :: w2 :: ws) = some (k w1 w2 ws) := rfl

/-! The operand words of a command that a fixed-length list gives. -/

theorem words0_some {i j : Instr} (h : words0 i ws = some j) : ws = [] ∧ i = j := by
  cases ws with
  | nil => exact ⟨rfl, Option.some.inj h⟩
  | cons _ _ => cases h

theorem words1_some {k : Word → Instr} {j : Instr} (h : words1 k ws = some j) :
    ∃ a, ws = [a] ∧ k a = j := by
  match ws, h with
  | [a], h => exact ⟨a, rfl, Option.some.inj h⟩

theorem words2_some {k : Word → Word → Instr} {j : Instr} (h : words2 k ws = some j) :
    ∃ a b, ws = [a, b] ∧ k a b = j := by
  match ws, h with
  | [a, b], h => exact ⟨a, b, rfl, Option.some.inj h⟩

theorem words3_some {k : Word → Word → Word → Instr} {j : Instr} (h : words3 k ws = some j) :
    ∃ a b c, ws = [a, b, c] ∧ k a b c = j := by
  match ws, h with
  | [a, b, c], h => exact ⟨a, b, c, rfl, Option.some.inj h⟩

theorem words4_some {k : Word → Word → Word → Word → Instr} {j : Instr} (h : words4 k ws = some j) :
    ∃ a b c d, ws = [a, b, c, d] ∧ k a b c d = j := by
  match ws, h with
  | [a, b, c, d], h => exact ⟨a, b, c, d, rfl, Option.some.inj h⟩

theorem words5_some {k : Word → Word → Word → Word → Word → Instr} {j : Instr}
    (h : words5 k ws = some j) : ∃ a b c d e, ws = [a, b, c, d, e] ∧ k a b c d e = j := by
  match ws, h with
  | [a, b, c, d, e], h => exact ⟨a, b, c, d, e, rfl, Option.some.inj h⟩

theorem words6_some {k : Word → Word → Word → Word → Word → Word → Instr} {j : Instr}
    (h : words6 k ws = some j) : ∃ a b c d e f, ws = [a, b, c, d, e, f] ∧ k a b c d e f = j := by
  match ws, h with
  | [a, b, c, d, e, f], h => exact ⟨a, b, c, d, e, f, rfl, Option.some.inj h⟩

theorem wordsFrom1_some {k : Word → List Word → Instr} {j : Instr} (h : wordsFrom1 k ws = some j) :
    ∃ a as, ws = a :: as ∧ k a as = j := by
  match ws, h with
  | a :: as, h => exact ⟨a, as, rfl, Option.some.inj h⟩

theorem wordsFrom2_some {k : Word → Word → List Word → Instr} {j : Instr}
    (h : wordsFrom2 k ws = some j) : ∃ a b as, ws = a :: b :: as ∧ k a b as = j := by
  match ws, h with
  | a :: b :: as, h => exact ⟨a, b, as, rfl, Option.some.inj h⟩
end words

/-- Decoding in terms of the header's fields: the four steps of R95. -/
theorem decode_mkHeader (op u s a : Byte) (ws : List Word) {mask : Word}
    (hm : reservedBits op.toNat = some mask) (h22 : ¬ (op = 0x22#8 ∧ 6 < a.toNat))
    (hr : mkHeader op u s a &&& mask = 0#32)
    (hl : operandCount (mkHeader op u s a) ws = some ws.length) {i : Instr}
    (hi : assemble (mkHeader op u s a) ws = some i) :
    decode ⟨mkHeader op u s a, ws⟩ = .command i := by
  unfold decode
  simp only [opOf_mkHeader, argOf_mkHeader, hm, if_neg h22, hr, hl, hi, ne_eq, not_true_eq_false,
    if_false]

end Sys2Proof
end

