-- ==== Sys2Proof/Laws/Exec.lean ====
section
/-! SUPPORT. Everything a command can do to the state, said once (`exec_cases`): later proofs cite it and
do not unfold the meanings. -/

namespace Sys2Proof.Machine

/-- What command `i` does in state `s`: refused, or done with one of five kinds of effect. -/
inductive Effect (i : Instr) (s : State) : Result → Prop where
  /-- an error of R371 -/
  | refused (e : Code) (h : e ≠ .ok) : Effect i s (raise e s)
  /-- no effect on the units; a value is returned by GETOUT and RDCSR only -/
  | value (v : Word) (h : v = 0#32 ∨ (∃ u, i = .getout u) ∨ ∃ n, i = .rdcsr n) :
      Effect i s (doneWith v s)
  /-- DEL -/
  | release (u : Byte) (U : DspUnit) (hi : i = .del u) (hU : liveUnit Config.cfg s u.toNat = some U) :
      Effect i s (done (dropUnit u.toNat s))
  /-- a command on a live unit -/
  | update (u : Byte) (U V : DspUnit) (hi : unitField i = some u) (hn : isNew i = false)
      (hU : liveUnit Config.cfg s u.toNat = some U) : Effect i s (done (putUnit u.toNat V s))
  /-- a `NEW.*` that draws no seed -/
  | build (u : Byte) (V : DspUnit) (hi : unitField i = some u) (hn : isNew i = true)
      (hf : slotFree Config.cfg s u.toNat = true) : Effect i s (done (putUnit u.toNat V s))
  /-- NEW.FREEVERB -/
  | seeded (u : Byte) (inp : Addr) (size damp mix : XOp) (V : DspUnit)
      (hi : i = .newFreeverb u inp size damp mix) (hf : slotFree Config.cfg s u.toNat = true) :
      Effect i s (done (putUnit u.toNat V (drawSeed 9 s)))

/-- A command on a live unit that ends by putting the unit back. -/
theorem withLive_effect {i : Instr} {u : Byte} {s : State} {k : DspUnit → Result}
    (h : ∀ U, liveUnit Config.cfg s u.toNat = some U → Effect i s (k U)) :
    Effect i s (withLive Config.cfg u s k) := by
  rcases withLive_cases Config.cfg u s k with he | ⟨U, hU, he⟩
  · rw [he]; exact .refused _ (by decide)
  · rw [he]; exact h U hU

theorem withMixer_effect {i : Instr} {u : Byte} {s : State} {k : DspUnit → Mixer → Result}
    (h : ∀ U m, liveUnit Config.cfg s u.toNat = some U → Effect i s (k U m)) :
    Effect i s (withMixer Config.cfg u s k) := by
  rcases withMixer_cases Config.cfg u s k with ⟨e, hne, he⟩ | ⟨U, m, hU, _, he⟩
  · rw [he]; exact .refused _ hne
  · rw [he]; exact h U m hU

theorem newUnit_effect {i : Instr} {u : Byte} {hs : List (Addr × Nat)} {a c : Bool} {V : DspUnit}
    {s : State} (hi : unitField i = some u) (hn : isNew i = true) :
    Effect i s (newUnit Config.cfg u hs a c V s) := by
  rcases newUnit_cases Config.cfg u hs a c V s with ⟨e, hne, he⟩ | ⟨hf, _, _, _, he⟩
  · rw [he]; exact .refused _ hne
  · rw [he]; exact .build u V hi hn hf

/-- Every command has one of the effects. -/
theorem exec_effect (i : Instr) (s : State) : Effect i s (exec i s) := by
  cases i
  case nop => exact .value 0#32 (.inl rfl)
  case del u => exact withLive_effect fun U hU => .release u U rfl hU
  case setc u slot v =>
    refine withLive_effect fun U hU => ?_
    split
    · exact .update u U _ rfl rfl hU
    · exact .refused _ (by decide)
  case sets u slot h =>
    refine withLive_effect fun U hU => ?_
    split
    · exact .refused _ (by decide)
    · split
      · exact .refused _ (by decide)
      · exact .update u U _ rfl rfl hU
  case compute u =>
    refine withLive_effect fun U hU => ?_
    split
    · exact .update u U _ rfl rfl hU
    · exact .refused _ (by decide)
  case reset u =>
    refine withLive_effect fun U hU => ?_
    split
    · exact .update u U _ rfl rfl hU
    · exact .refused _ (by decide)
  case getout u => exact withLive_effect fun U hU => .value _ (.inr (.inl ⟨u, rfl⟩))
  case rdcsr n =>
    show Effect _ s (rdcsrOn Config.cfg n s)
    unfold rdcsrOn
    split
    · exact .refused _ (by decide)
    · exact .value _ (.inr (.inr ⟨n, rfl⟩))
  case ack u => exact withLive_effect fun U hU => .update u U _ rfl rfl hU
  case mixadd u key h =>
    refine withMixer_effect fun U m hU => ?_
    split
    · exact .refused _ (by decide)
    · split
      · exact .refused _ (by decide)
      · exact .update u U _ rfl rfl hU
  case mixdel u key =>
    refine withMixer_effect fun U m hU => ?_
    split
    · exact .refused _ (by decide)
    · exact .update u U _ rfl rfl hU
  case mixamp u vout key gain =>
    refine withMixer_effect fun U m hU => ?_
    split
    · exact .refused _ (by decide)
    · split
      · exact .refused _ (by decide)
      · exact .update u U _ rfl rfl hU
  case seti u slot v =>
    refine withLive_effect fun U hU => ?_
    split
    · exact .update u U _ rfl rfl hU
    · exact .refused _ (by decide)
  case newFreeverb u inp size damp mix =>
    show Effect _ s (newFreeverbOn Config.cfg u inp size damp mix s)
    rcases newFreeverbOn_cases Config.cfg u inp size damp mix s with ⟨e, hne, he⟩ | ⟨hf, _, _, he⟩
    · rw [he]; exact .refused _ hne
    · rw [he]; exact .seeded u inp size damp mix _ rfl hf
  all_goals exact newUnit_effect rfl rfl

/-- Every command answers a next state: nothing faults and nothing is refused. -/
theorem effect_next {i : Instr} {s : State} {r : Result} (h : Effect i s r) :
    ∃ t c v, r = .next t ∧ t.port = .response ⟨c, v⟩ := by
  cases h <;> exact ⟨_, _, _, rfl, rfl⟩

end Sys2Proof.Machine
end

