-- ==== Sys2Proof/Laws/Sound.lean ====
section
/-! SUPPORT. Computing keeps a unit sound, type by type (10_state.md R42): lengths, cursors, counters and the
output buffer. -/

namespace Sys2Proof.Machine

/-! ### Convolution engines -/

/-- One sample keeps an engine sound. -/
theorem convStep_wf {C : Cfg} {e : Engine} (h : e.Wf C) (x : Sample) : (convStep e x).1.Wf C where
  ring_pos := by simpa [convStep] using h.ring_pos
  ring_le := by simpa [convStep] using h.ring_le
  imp_length := by simpa [convStep] using h.imp_length
  wc_lt := by simpa [convStep] using Nat.mod_lt _ h.ring_pos

/-- One sample changes neither the length of the ring nor the impulse. -/
theorem convStep_ring_length (e : Engine) (x : Sample) :
    (convStep e x).1.ring.length = e.ring.length := by simp [convStep]

theorem convStep_ordered {C : Cfg} {o : Nat} {e : Engine} (h : e.Ordered C o) (x : Sample) :
    (convStep e x).1.Ordered C o :=
  { convStep_wf h.toWf x with
    length_eq := (convStep_ring_length e x).trans h.length_eq
    even := h.even
    two_le := h.two_le }

theorem convBlock_wf {C : Cfg} {e : Engine} (h : e.Wf C) (x : Nat → Sample) : (convBlock C x e).1.Wf C :=
  scan_keeps (P := fun e : Engine => e.Wf C) _ (fun _ _ h => convStep_wf h _) h _

theorem convBlock_ordered {C : Cfg} {o : Nat} {e : Engine} (h : e.Ordered C o) (x : Nat → Sample) :
    (convBlock C x e).1.Ordered C o :=
  scan_keeps (P := fun e : Engine => e.Ordered C o) _ (fun _ _ h => convStep_ordered h _) h _

@[simp] theorem convBlock_length (C : Cfg) (x : Nat → Sample) (e : Engine) :
    (convBlock C x e).2.length = C.bufsize := by simp [convBlock]

/-! ### Synthesised impulses have `order + 1` taps -/

@[simp] theorem normalizeTaps_length (t : List Sample) : (normalizeTaps t).length = t.length := by
  unfold normalizeTaps; dsimp only; split <;> simp

@[simp] theorem lowPass_length (C : Cfg) (f : Sample) (o : Nat) : (lowPass C f o).length = o + 1 := by
  simp [lowPass]

@[simp] theorem invertTaps_length (t : List Sample) (o : Nat) : (invertTaps t o).length = t.length := by
  simp [invertTaps]

@[simp] theorem bandReject_length (C : Cfg) (f b : Sample) (o : Nat) : (bandReject C f b o).length = o + 1 := by
  simp [bandReject]

@[simp] theorem winSincImpulse_length (C : Cfg) (t : Nat) (f b : Sample) (o : Nat) :
    (winSincImpulse C t f b o).length = o + 1 := by
  unfold winSincImpulse; dsimp only; split <;> simp

@[simp] theorem pulseImpulse_length (C : Cfg) (t : Nat) (f b : Sample) (o : Nat) :
    (pulseImpulse C t f b o).length = o + 1 := by simp [pulseImpulse]

@[simp] theorem fmImpulse_length (C : Cfg) (c r m : Sample) (o : Nat) :
    (fmImpulse C c r m o).length = o + 1 := by simp [fmImpulse]

@[simp] theorem averageImpulse_length (C : Cfg) (o : Nat) : (averageImpulse C o).length = o + 1 := by
  simp [averageImpulse]

/-- A new impulse of the right length keeps an engine sound. -/
theorem ordered_with_imp {C : Cfg} {o : Nat} {e : Engine} (h : e.Ordered C o) {imp : List Sample}
    (hi : imp.length = o + 1) : Engine.Ordered C o { e with imp := imp } where
  ring_pos := h.ring_pos
  ring_le := h.ring_le
  imp_length := hi.trans h.length_eq.symm
  wc_lt := h.wc_lt
  length_eq := h.length_eq
  even := h.even
  two_le := h.two_le

/-- The refresh of IRWINSINC and IRPULSE keeps order, type and a sound engine. -/
theorem typedRefresh_sound {C : Cfg} {synth : Nat → Sample → Sample → Nat → List Sample}
    (hs : ∀ t f b o, (synth t f b o).length = o + 1) (f b : Sample) {t : IrTyped}
    (h : t.eng.Ordered C t.order) :
    (typedRefresh synth f b t).order = t.order ∧ (typedRefresh synth f b t).type = t.type ∧
      (typedRefresh synth f b t).eng.Ordered C t.order := by
  unfold typedRefresh
  split
  · exact ⟨rfl, rfl, ordered_with_imp h (hs _ _ _ _)⟩
  · exact ⟨rfl, rfl, h⟩

/-- The refresh of IRFM keeps order and a sound engine. -/
theorem fmRefresh_sound {C : Cfg} (c r m : Sample) {t : IrFm} (h : t.eng.Ordered C t.order) :
    (fmRefresh C c r m t).order = t.order ∧ (fmRefresh C c r m t).eng.Ordered C t.order := by
  unfold fmRefresh
  split
  · exact ⟨rfl, ordered_with_imp h (fmImpulse_length _ _ _ _ _)⟩
  · exact ⟨rfl, h⟩

/-! ### Splits -/

/-- The bounds `bs` have the shape of `as`: as many, each with as many correction sections. -/
def sameShape (as bs : List Boundary) : Prop := as.map (·.corr.length) = bs.map (·.corr.length)

theorem boundsShaped_of_sameShape : ∀ {as bs : List Boundary}, sameShape as bs → boundsShaped as →
    boundsShaped bs
  | [], [], _, _ => trivial
  | [], b :: bs, h, _ => by simp [sameShape] at h
  | a :: as, [], h, _ => by simp [sameShape] at h
  | a :: as, b :: bs, h, ha => by
    simp only [sameShape, List.map_cons, List.cons.injEq] at h
    have hl := congrArg List.length h.2
    simp only [List.length_map] at hl
    exact ⟨by rw [← h.1, ha.1, hl], boundsShaped_of_sameShape h.2 ha.2⟩

theorem sameShape_length {as bs : List Boundary} (h : sameShape as bs) : as.length = bs.length := by
  simpa using congrArg List.length h

theorem refreshCoeffs_shape (C : Cfg) (f : Nat → Sample) (k : Nat) (bs : List Boundary) :
    sameShape bs (refreshCoeffs C f k bs) := by
  induction bs generalizing k with
  | nil => rfl
  | cons b bs ih =>
    have e : (refreshBoundary C (f k) b).corr = b.corr := by unfold refreshBoundary; split <;> rfl
    simp only [sameShape, refreshCoeffs, List.map_cons, e]
    exact congrArg _ (ih (k + 1))

theorem corrPass_length (cos : List Co) (cs : List Corr) (v : Sample) (h : cos.length = cs.length) :
    (corrPass cos cs v).1.length = cs.length := by
  induction cos generalizing cs v with
  | nil => simp [corrPass]
  | cons co cos ih =>
    cases cs with
    | nil => simp at h
    | cons c cs => simp [corrPass, ih cs _ (by simpa using h)]

theorem splitSample_shape (bs : List Boundary) (s : Sample) (h : boundsShaped bs) :
    sameShape bs (splitSample bs s).1 := by
  induction bs generalizing s with
  | nil => rfl
  | cons b bs ih =>
    simp only [sameShape, splitSample, List.map_cons]
    rw [corrPass_length _ _ _ (by simp [h.1])]
    exact congrArg _ (ih _ h.2)

theorem splitBlock_shape (C : Cfg) (s : State) (U : DspUnit) {b : Split} (h : boundsShaped b.bounds) :
    sameShape b.bounds (splitBlock C s U b).1 := by
  have h0 := refreshCoeffs_shape C (pval0 C s U) 0 b.bounds
  exact scan_keeps (P := fun bs => sameShape b.bounds bs) _
    (fun bs i hb => hb.trans (splitSample_shape bs _ (boundsShaped_of_sameShape hb h))) h0 _

/-! ### Freeverb -/

theorem combBank_spec (x fb dm : Sample) (cs : List Comb) (acc : Sample) :
    (combBank x fb dm cs acc).1 = cs.map fun c => (combStep x fb dm c).1 := by
  induction cs generalizing acc with
  | nil => rfl
  | cons c cs ih => simp [combBank, ih]

theorem allpassChain_lengths (as : List Allpass) (v : Sample) :
    ((allpassChain as v).1.map fun a => a.buf.length) = as.map fun a => a.buf.length := by
  induction as generalizing v with
  | nil => rfl
  | cons a as ih => simp [allpassChain, allpassStep, ih]

theorem allpassChain_pos (as : List Allpass) (v : Sample) (h : ∀ a ∈ as, a.pos < a.buf.length) :
    ∀ a ∈ (allpassChain as v).1, a.pos < a.buf.length := by
  induction as generalizing v with
  | nil => simp [allpassChain]
  | cons a as ih =>
    intro b hb
    simp only [allpassChain, List.mem_cons] at hb
    rcases hb with rfl | hb
    · have := h a (by simp)
      simp only [allpassStep, List.length_set]
      exact Nat.mod_lt _ (by omega)
    · exact ih _ (fun a ha => h a (by simp [ha])) b hb

/-- One sample keeps a FREEVERB sound. -/
theorem freeverbSample_wf {C : Cfg} {f : Freeverb} (h : f.Wf C) (size damp mix x : Nat → Sample) (i : Nat) :
    (freeverbSample C size damp mix x f i).1.Wf C where
  jit_eq := h.jit_eq
  comb_lengths := by
    refine Eq.trans ?_ h.comb_lengths
    simp [freeverbSample, combBank_spec, combStep, Function.comp_def]
  ap_lengths := by
    refine Eq.trans ?_ h.ap_lengths
    exact allpassChain_lengths _ _
  fits := h.fits
  comb_pos := by
    intro c hc
    simp only [freeverbSample, combBank_spec, List.mem_map] at hc
    obtain ⟨d, hd, rfl⟩ := hc
    have := h.comb_pos d hd
    simp only [combStep, List.length_set]
    exact Nat.mod_lt _ (by omega)
  ap_pos := allpassChain_pos _ _ h.ap_pos

/-- RESET keeps a FREEVERB sound. -/
theorem clearFreeverb_wf {C : Cfg} {f : Freeverb} (h : f.Wf C) : (clearFreeverb f).Wf C where
  jit_eq := h.jit_eq
  comb_lengths := by
    refine Eq.trans ?_ h.comb_lengths
    simp [clearFreeverb, Function.comp_def]
  ap_lengths := by
    refine Eq.trans ?_ h.ap_lengths
    simp [clearFreeverb, Function.comp_def]
  fits := h.fits
  comb_pos := by
    intro c hc
    simp only [clearFreeverb, List.mem_map] at hc
    obtain ⟨d, hd, rfl⟩ := hc
    simpa using h.comb_pos d hd
  ap_pos := by
    intro a ha
    simp only [clearFreeverb, List.mem_map] at ha
    obtain ⟨d, hd, rfl⟩ := ha
    simpa using h.ap_pos d hd

/-- A fresh FREEVERB whose lengths fit is sound. -/
theorem freshFreeverb_wf {C : Cfg} {seed : Word} (h : delaysFit C (jitterOf C seed) = true) :
    (freshFreeverb C seed).Wf C where
  jit_eq := rfl
  comb_lengths := by simp [freshFreeverb, Function.comp_def]
  ap_lengths := by simp [freshFreeverb, Function.comp_def]
  fits := h
  comb_pos := by
    intro c hc
    simp only [freshFreeverb, combLens, List.map_map, List.mem_map] at hc
    obtain ⟨k, _, rfl⟩ := hc
    simp [delayLen]
  ap_pos := by
    intro a ha
    simp only [freshFreeverb, apLens, List.map_map, List.mem_map] at ha
    obtain ⟨k, _, rfl⟩ := ha
    simp [delayLen]

/-! ### Ramps -/

theorem rampRetarget_count (rp : Ramp) (t : Sample) (n : Nat) : (rampRetarget rp t n).count = 0 := by
  unfold rampRetarget; split <;> rfl

theorem rampStep_count {rp : Ramp} {n : Nat} (h : rp.count ≤ n) : (rampStep rp n).count ≤ n := by
  unfold rampStep
  split
  · simp only; omega
  · exact h

theorem rampSee_count {rp : Ramp} {n : Nat} (t : Sample) (h : rp.count ≤ n) : (rampSee rp t n).count ≤ n := by
  unfold rampSee
  split
  · rw [rampRetarget_count]; omega
  · exact h

theorem rampNewTime_count (rp : Ramp) (nold n : Nat) : (rampNewTime rp nold n).count ≤ n := by
  unfold rampNewTime
  split
  · rw [rampRetarget_count]; omega
  · exact Nat.le_refl n

/-! ### Mixers -/

/-- One gain over a block keeps its counter saturated and its target. -/
theorem gainBlock_spec (C : Cfg) {n : Nat} {g : Gain} (h : g.rp.count ≤ n) :
    (gainBlock C n g).1.rp.count ≤ n ∧ (gainBlock C n g).1.target = g.target ∧
      (gainBlock C n g).2.length = C.bufsize := by
  refine ⟨?_, rfl, by simp [gainBlock]⟩
  exact scan_keeps (P := fun rp : Ramp => rp.count ≤ n) _ (fun _ _ h => rampStep_count h)
    (rampSee_count _ h) _

/-- One entry keeps the number and the length of the rows, and the entry's key and handle. -/
theorem mixEntry_spec (C : Cfg) (s : State) (n : Nat) {outs : Nat} {rows : List (List Sample)} {e : MixIn}
    (hr : rows.length = outs) (hl : ∀ row ∈ rows, row.length = C.bufsize) (hg : e.g.length = outs)
    (hc : ∀ g ∈ e.g, g.rp.count ≤ n) :
    (mixEntry C s n rows e).1.length = outs ∧
      (∀ row ∈ (mixEntry C s n rows e).1, row.length = C.bufsize) ∧
      (mixEntry C s n rows e).2.key = e.key ∧ (mixEntry C s n rows e).2.h = e.h ∧
      (mixEntry C s n rows e).2.g.length = outs ∧
      ∀ g ∈ (mixEntry C s n rows e).2.g, g.rp.count ≤ n := by
  refine ⟨by simp [mixEntry, hr, hg], ?_, rfl, rfl, by simp [mixEntry, hg], ?_⟩
  · intro row hrow
    simp only [mixEntry] at hrow
    obtain ⟨k, hk, rfl⟩ := List.mem_iff_getElem.1 hrow
    simp only [List.getElem_zipWith, List.getElem_map, mixRow, List.length_zipWith, memRead_length]
    rw [hl _ (List.getElem_mem _), (gainBlock_spec C (hc _ (List.getElem_mem _))).2.2]
    simp
  · intro g hg'
    simp only [mixEntry, List.map_map, List.mem_map] at hg'
    obtain ⟨g0, h0, rfl⟩ := hg'
    exact (gainBlock_spec C (hc g0 h0)).1

/-- The entries of a MIXER over a block: as many rows of one block each, and every entry with its key, its
handle, as many gains, and saturated counters. -/
theorem mixScan_spec (C : Cfg) (s : State) (n : Nat) {outs : Nat} (ins : List MixIn)
    (hg : ∀ e ∈ ins, e.g.length = outs) (hc : ∀ e ∈ ins, ∀ g ∈ e.g, g.rp.count ≤ n) :
    ∀ rows : List (List Sample), rows.length = outs → (∀ row ∈ rows, row.length = C.bufsize) →
      (scan (mixEntry C s n) rows ins).1.length = outs ∧
      (∀ row ∈ (scan (mixEntry C s n) rows ins).1, row.length = C.bufsize) ∧
      (scan (mixEntry C s n) rows ins).2.map (·.key) = ins.map (·.key) ∧
      (scan (mixEntry C s n) rows ins).2.map (·.h) = ins.map (·.h) ∧
      (∀ e ∈ (scan (mixEntry C s n) rows ins).2, e.g.length = outs) ∧
      ∀ e ∈ (scan (mixEntry C s n) rows ins).2, ∀ g ∈ e.g, g.rp.count ≤ n := by
  induction ins with
  | nil => intro rows hr hl; exact ⟨hr, hl, rfl, rfl, by simp, by simp⟩
  | cons e es ih =>
    intro rows hr hl
    obtain ⟨h1, h2, h3, h4, h5, h6⟩ := mixEntry_spec C s n hr hl (hg e (by simp)) (hc e (by simp))
    obtain ⟨i1, i2, i3, i4, i5, i6⟩ := ih (fun e he => hg e (by simp [he])) (fun e he => hc e (by simp [he]))
      _ h1 h2
    refine ⟨i1, i2, ?_, ?_, ?_, ?_⟩
    · simp [scan_cons, h3, i3]
    · simp [scan_cons, h4, i4]
    · intro e' he'
      rcases List.mem_cons.1 he' with rfl | he'
      · exact h5
      · exact i5 e' he'
    · intro e' he'
      rcases List.mem_cons.1 he' with rfl | he'
      · exact h6
      · exact i6 e' he'

/-- The output of a MIXER: `outs` rows of one block. -/
theorem flatten_length_of_rows {rows : List (List Sample)} {n : Nat} (h : ∀ row ∈ rows, row.length = n) :
    rows.flatten.length = rows.length * n := by
  induction rows with
  | nil => simp
  | cons r rs ih =>
    simp only [List.flatten_cons, List.length_append, List.length_cons, Nat.add_mul, Nat.one_mul]
    rw [h r (by simp), ih fun row hr => h row (by simp [hr])]
    omega

/-! ### Every type -/

/-- What the compute rules keep of a sound type-specific state: soundness, the channels, the classes of the
slots, the handles beyond `in`, the length of the input block; and the output has a block per channel. -/
theorem computeUnit_body {C : Cfg} {s : State} {u : Nat} {U : DspUnit} (h : U.Wf C u) :
    (computeUnit C s U).body.Wf C ∧ (computeUnit C s U).body.channels = U.body.channels ∧
      (∀ k, slotClass (computeUnit C s U).body k = slotClass U.body k) ∧
      extraInputs (computeUnit C s U).body = extraInputs U.body ∧
      inputLength C (computeUnit C s U).body = inputLength C U.body ∧
      (computeUnit C s U).out.length = U.body.channels * C.bufsize := by
  have hb := h.body
  unfold computeUnit
  split <;> rename_i b hU <;> simp only [hU, Body.Wf] at hb
  · -- BSPLIT
    have hl : ∀ {bs : List Band}, bs.length = b.bands.length →
        (scan (bsplitSample C (decide ((U.slot 0).mode = .stream)) (pval C s U 0) (inputAt C s U)) bs
          (List.range C.bufsize)).1.length = b.bands.length := fun h0 =>
      scan_keeps (P := fun bs : List Band => bs.length = b.bands.length) _
        (fun bs i hbs => by simp only [bsplitSample, List.length_map]; split <;> simp [hbs]) h0 _
    have hl' := @hl (if b.init then b.bands.map (primeBand (inputAt C s U 0)) else b.bands)
      (by split <;> simp)
    refine ⟨?_, ?_, fun k => ?_, by rw [hU]; rfl, by rw [hU]; rfl, ?_⟩
    · show 1 ≤ List.length _ ∧ List.length _ ≤ _
      rw [hl']; exact hb
    · rw [hU]; exact hl'
    · rw [hU]; rfl
    · rw [hU]; simp [computeBsplit, channelMajor_length, Body.channels]
  · -- FOURBAND
    have hs := splitBlock_shape C s U hb.2
    refine ⟨⟨(sameShape_length hs).symm.trans hb.1, boundsShaped_of_sameShape hs hb.2⟩, ?_, fun k => ?_, by rw [hU]; rfl,
      by rw [hU]; rfl, ?_⟩
    · rw [hU]; exact congrArg (· + 1) (sameShape_length hs).symm
    · rw [hU]; rfl
    · rw [hU]; simp [computeFourband, channelMajor_length, Body.channels, splitBlock]
  · -- MULTIBAND
    have hs := splitBlock_shape C s U hb.2.2
    have hl := sameShape_length hs
    refine ⟨⟨?_, ?_, boundsShaped_of_sameShape hs hb.2.2⟩, ?_, fun k => ?_, by rw [hU]; rfl, by rw [hU]; rfl, ?_⟩
    · show 1 ≤ List.length _
      rw [← hl]; exact hb.1
    · show List.length _ ≤ _
      rw [← hl]; exact hb.2.1
    · rw [hU]; exact congrArg (· + 1) hl.symm
    · rw [hU]
      show (if k < List.length _ then _ else _) = _
      rw [← hl]; rfl
    · rw [hU]; simp [computeMultiband, channelMajor_length, Body.channels, splitBlock]
  · refine ⟨convBlock_wf hb _, ?_, fun k => ?_, ?_, ?_, ?_⟩ <;> rw [hU]
    all_goals first | rfl | simp [computeConvolve, Body.channels]
  · obtain ⟨h1, h2, h3⟩ := typedRefresh_sound (C := C) (winSincImpulse_length C) (pval0 C s U 0)
      (pval0 C s U 1) hb.1
    refine ⟨⟨?_, ?_⟩, ?_, fun k => ?_, ?_, ?_, ?_⟩
    · show Engine.Ordered C (typedRefresh _ _ _ _).order _
      rw [h1]; exact convBlock_ordered h3 _
    · show (typedRefresh _ _ _ _).type ≤ 3
      rw [h2]; exact hb.2
    all_goals rw [hU]
    all_goals first | rfl | simp [computeIrwinsinc, Body.channels]
  · refine ⟨convBlock_ordered hb _, ?_, fun k => ?_, ?_, ?_, ?_⟩ <;> rw [hU]
    all_goals first | rfl | simp [computeIraverage, Body.channels]
  · obtain ⟨h1, h2, h3⟩ := typedRefresh_sound (C := C) (pulseImpulse_length C) (pval0 C s U 0)
      (pval0 C s U 1) hb.1
    refine ⟨⟨?_, ?_⟩, ?_, fun k => ?_, ?_, ?_, ?_⟩
    · show Engine.Ordered C (typedRefresh _ _ _ _).order _
      rw [h1]; exact convBlock_ordered h3 _
    · show (typedRefresh _ _ _ _).type ≤ 3
      rw [h2]; exact hb.2
    all_goals rw [hU]
    all_goals first | rfl | simp [computeIrpulse, Body.channels]
  · obtain ⟨h1, h3⟩ := fmRefresh_sound (C := C) (pval0 C s U 0) (pval0 C s U 1) (pval0 C s U 2) hb
    refine ⟨?_, ?_, fun k => ?_, ?_, ?_, ?_⟩
    · show Engine.Ordered C (fmRefresh _ _ _ _ _).order _
      rw [h1]; exact convBlock_ordered h3 _
    all_goals rw [hU]
    all_goals first | rfl | simp [computeIrfm, Body.channels]
  · refine ⟨scan_keeps (P := fun f : Freeverb => f.Wf C) _ (fun _ _ h => freeverbSample_wf h _ _ _ _ _) hb _, ?_,
      fun k => ?_, ?_, ?_, ?_⟩ <;> rw [hU]
    all_goals first | rfl | simp [computeFreeverb, Body.channels]
  · refine ⟨?_, ?_, fun k => ?_, ?_, ?_, ?_⟩ <;> simp [computeSig, hU, Body.Wf, Body.channels]
  · refine ⟨scan_keeps (P := fun rp : Ramp => rp.count ≤ b.n) _
      (fun _ _ h => rampStep_count (rampSee_count _ h)) hb _, ?_, fun k => ?_, ?_, ?_, ?_⟩ <;> rw [hU]
    all_goals first | rfl | simp [computeSigto, Body.channels]
  · have hv : (scan varportSample (varportSee (U.slot 0).c b) (List.range C.bufsize)).1.timeout =
        (scan varportSample (varportSee (U.slot 0).c b) (List.range C.bufsize)).1.n + C.vpExtra := by
      refine scan_keeps (P := fun v : VarPort => v.timeout = v.n + C.vpExtra) _ (fun _ _ h => h) ?_ _
      unfold varportSee
      split <;> exact hb
    refine ⟨?_, ?_, fun k => ?_, ?_, ?_, ?_⟩
    · show (if _ then _ else _ : VarPort).timeout = (if _ then _ else _ : VarPort).n + _
      split <;> exact hv
    all_goals rw [hU]
    all_goals first | rfl | simp [computeVarport, Body.channels]
  · obtain ⟨h1, h2, h3, h4, h5, h6⟩ := mixScan_spec C s b.n b.ins hb.gains hb.counts
      (List.replicate b.outs (List.replicate C.bufsize f0)) (by simp) (by simp)
    have hlen : (scan (mixEntry C s b.n) (List.replicate b.outs (List.replicate C.bufsize f0)) b.ins).2.length =
        b.ins.length := scan_length _ _ _
    refine ⟨⟨hb.outs_pos, hb.outs_le, ?_, ?_, h5, h6⟩, ?_, fun k => ?_, ?_, ?_, ?_⟩
    · show List.length _ ≤ _
      rw [hlen]; exact hb.ins_le
    · show (List.map _ _).Nodup
      rw [h3]; exact hb.keys
    all_goals rw [hU]
    · rfl
    · rfl
    · exact h4
    · rfl
    · show (List.flatten _).length = b.outs * _
      rw [flatten_length_of_rows h2, h1]
  · refine ⟨?_, ?_, fun k => ?_, ?_, ?_, ?_⟩ <;> simp [computeScale, hU, Body.Wf, Body.channels]
  · refine ⟨⟨hb.factor_pos, hb.factor_le, hb.mode_le, hb.lin_eq, hb.divides⟩, ?_, fun k => ?_, ?_, ?_, ?_⟩ <;> rw [hU]
    all_goals first | rfl | simp [computeResample, Body.channels]
  · refine ⟨?_, ?_, fun k => ?_, ?_, ?_, ?_⟩ <;>
      simp [computePan, hU, Body.Wf, Body.channels, channelMajor_length, hb]
  · refine ⟨?_, ?_, fun k => ?_, ?_, ?_, ?_⟩ <;>
      simp [computeSwitch, hU, Body.Wf, Body.channels, channelMajor_length, hb]
  · refine ⟨?_, ?_, fun k => ?_, ?_, ?_, ?_⟩ <;> simp [computeSelector, hU, Body.Wf, Body.channels, hb]
  · have hf : (scan (convSample C (U.slot 0).c (inputAt C s U)) b (List.range C.bufsize)).1.fn = b.fn :=
      scan_keeps (P := fun v : Conv => v.fn = b.fn) _
        (fun v _ h => by unfold convSample; dsimp only; split <;> exact h) rfl _
    refine ⟨?_, ?_, fun k => ?_, ?_, ?_, ?_⟩
    · show Conv.fn _ ≤ 6
      rw [hf]; exact hb
    · rw [hU]; rfl
    · rw [hU]
      show (if Conv.fn _ = 4 ∧ k = 0 then _ else _) = _
      rw [hf]; rfl
    · rw [hU]; rfl
    · rw [hU]; rfl
    · rw [hU]; simp [computeConv, Body.channels]

end Sys2Proof.Machine
end

