-- ==== Sys2Proof/Laws/Impulse.lean ====
section
/-! SUPPORT. What the synthesis of impulses gives, tap by tap: one lemma per operation (42_convolution.md R209,
R212, R214, R215, R223). -/

namespace Sys2Proof.Machine

/-- `Normalize` divides every tap by their sum unless that is zero (R209). -/
theorem normalizeTaps_spec (t : List Sample) : NormalisedTaps t (normalizeTaps t) := by
  have hsum : ((t.take t.length).foldl fadd f0) = t.foldl fadd f0 := by rw [List.take_length]
  refine ⟨fun i => (t.take i).foldl fadd f0, rfl, fun i x h => ?_, by simp, fun i x h => ?_⟩
  · simp only [List.take_add_one, h, List.foldl_append]; rfl
  · simp only [hsum, normalizeTaps]
    split <;> simp [h]

/-- `Win` is the interpolated table (R212). -/
theorem window_spec (C : Cfg) (i order : Nat) : WindowTap C order i (window C i order) :=
  ⟨fun h => if_pos h, fun h => if_neg (by omega)⟩

/-- The taps of `LowPass` (R214). -/
theorem lowPass_spec (C : Cfg) (fhz : Sample) (order : Nat) : LowPassTaps C fhz order (lowPass C fhz order) := by
  refine ⟨_, fun i => window C i order, by simp, fun i hi => ⟨window_spec C i order, ?_⟩,
    normalizeTaps_spec _⟩
  have hz : ((i : Int) - ((order / 2 : Nat) : Int) = 0) = (i = order / 2) := propext (by omega)
  rw [List.getElem?_map, List.getElem?_range (by omega)]
  simp only [Option.map_some, sincTap, hz]

/-- The taps of `Invert` (R215). -/
theorem invertTaps_spec (t : List Sample) (order : Nat) : InvertedTaps t order (invertTaps t order) := by
  refine ⟨by simp, fun i x h => ?_⟩
  obtain ⟨hi, rfl⟩ := List.getElem?_eq_some_iff.1 h
  by_cases e : order / 2 = i
  · subst e; simp [invertTaps, hi]
  · simp [invertTaps, List.getElem_set_ne e, hi, Ne.symm e]

/-- The taps of `AverageImpulse` (R223). -/
theorem averageImpulse_spec (C : Cfg) (order : Nat) : AverageTaps C order (averageImpulse C order) :=
  ⟨_, by simp, fun i hi => ⟨_, window_spec C i order, by
    rw [List.getElem?_map, List.getElem?_range (by omega)]; rfl⟩, normalizeTaps_spec _⟩

end Sys2Proof.Machine
end

