-- ==== Sys2Proof/Laws/PerInstr.lean ====
section
/-! SUPPORT. Per command: the header its encoding has is selected by the command's own row of the opcode
table (30_encoding.md R96). -/

namespace Sys2Proof.Laws.TableRow

-- One proof at a time: waiting side by side, these proofs hold a thread and its stack each.
set_option Elab.async false

open Sys2Proof Sys2Proof.Machine

/-- The header of the encoding is selected by the row of the command. -/
def Statement (i : Instr) : Prop := (encode i).header &&& (rowOf i).mask = (rowOf i).pattern

/-- A mask over a header, field by field. -/
theorem header_selected {h m p : Word} (ho : opOf h &&& opOf m = opOf p)
    (hu : unitOf h &&& unitOf m = unitOf p) (hs : selOf h &&& selOf m = selOf p)
    (ha : argOf h &&& argOf m = argOf p) : h &&& m = p := by
  rw [← mkHeader_fields h, ← mkHeader_fields m, ← mkHeader_fields p, mkHeader_and, ho, hu, hs, ha]

/-- A field the mask leaves out can hold anything. -/
theorem field_free {x m p : Byte} (hm : m = 0#8) (hp : p = 0#8) : x &&& m = p := by
  rw [hm, hp]; exact BitVec.and_zero

/-! The mode-mask and `lin` bits of `sel` that a row allows (R93, R96). -/

theorem sel_one : ∀ b0 : Bool, selBits b0 false false false false &&& 0xFE#8 = 0#8 := by decide

theorem sel_two : ∀ b0 b1 : Bool, selBits b0 b1 false false false &&& 0xFC#8 = 0#8 := by decide

theorem sel_three : ∀ b0 b1 b2 : Bool, selBits b0 b1 b2 false false &&& 0xF8#8 = 0#8 := by decide

theorem sel_four : ∀ b0 b1 b2 b3 : Bool, selBits b0 b1 b2 b3 false &&& 0xF0#8 = 0#8 := by decide

theorem sel_lin : ∀ b0 b4 : Bool, selBits b0 false false false b4 &&& 0x7E#8 = 0#8 := by decide

theorem nop : Statement (.nop) :=
  header_selected (by rw [encode, opOf_mkHeader, rowOf]; exact rfl)
    (by rw [encode, unitOf_mkHeader, rowOf]; exact rfl)
    (by rw [encode, selOf_mkHeader, rowOf]; exact rfl)
    (by rw [encode, argOf_mkHeader, rowOf]; exact rfl)

theorem del (u : Byte) : Statement (.del u) :=
  header_selected (by rw [encode, opOf_mkHeader, rowOf]; exact rfl)
    (by rw [encode, unitOf_mkHeader, rowOf]; exact field_free rfl rfl)
    (by rw [encode, selOf_mkHeader, rowOf]; exact rfl)
    (by rw [encode, argOf_mkHeader, rowOf]; exact rfl)

theorem setc (u slot : Byte) (value : Sample) : Statement (.setc u slot value) :=
  header_selected (by rw [encode, opOf_mkHeader, rowOf]; exact rfl)
    (by rw [encode, unitOf_mkHeader, rowOf]; exact field_free rfl rfl)
    (by rw [encode, selOf_mkHeader, rowOf]; exact field_free rfl rfl)
    (by rw [encode, argOf_mkHeader, rowOf]; exact rfl)

theorem sets (u slot : Byte) (handle : Addr) : Statement (.sets u slot handle) :=
  header_selected (by rw [encode, opOf_mkHeader, rowOf]; exact rfl)
    (by rw [encode, unitOf_mkHeader, rowOf]; exact field_free rfl rfl)
    (by rw [encode, selOf_mkHeader, rowOf]; exact field_free rfl rfl)
    (by rw [encode, argOf_mkHeader, rowOf]; exact rfl)

theorem compute (u : Byte) : Statement (.compute u) :=
  header_selected (by rw [encode, opOf_mkHeader, rowOf]; exact rfl)
    (by rw [encode, unitOf_mkHeader, rowOf]; exact field_free rfl rfl)
    (by rw [encode, selOf_mkHeader, rowOf]; exact rfl)
    (by rw [encode, argOf_mkHeader, rowOf]; exact rfl)

theorem reset (u : Byte) : Statement (.reset u) :=
  header_selected (by rw [encode, opOf_mkHeader, rowOf]; exact rfl)
    (by rw [encode, unitOf_mkHeader, rowOf]; exact field_free rfl rfl)
    (by rw [encode, selOf_mkHeader, rowOf]; exact rfl)
    (by rw [encode, argOf_mkHeader, rowOf]; exact rfl)

theorem getout (u : Byte) : Statement (.getout u) :=
  header_selected (by rw [encode, opOf_mkHeader, rowOf]; exact rfl)
    (by rw [encode, unitOf_mkHeader, rowOf]; exact field_free rfl rfl)
    (by rw [encode, selOf_mkHeader, rowOf]; exact rfl)
    (by rw [encode, argOf_mkHeader, rowOf]; exact rfl)

theorem rdcsr (csr : Byte) : Statement (.rdcsr csr) :=
  header_selected (by rw [encode, opOf_mkHeader, rowOf]; exact rfl)
    (by rw [encode, unitOf_mkHeader, rowOf]; exact rfl)
    (by rw [encode, selOf_mkHeader, rowOf]; exact field_free rfl rfl)
    (by rw [encode, argOf_mkHeader, rowOf]; exact rfl)

theorem ack (u : Byte) : Statement (.ack u) :=
  header_selected (by rw [encode, opOf_mkHeader, rowOf]; exact rfl)
    (by rw [encode, unitOf_mkHeader, rowOf]; exact field_free rfl rfl)
    (by rw [encode, selOf_mkHeader, rowOf]; exact rfl)
    (by rw [encode, argOf_mkHeader, rowOf]; exact rfl)

theorem mixadd (u : Byte) (key : Word) (handle : Addr) : Statement (.mixadd u key handle) :=
  header_selected (by rw [encode, opOf_mkHeader, rowOf]; exact rfl)
    (by rw [encode, unitOf_mkHeader, rowOf]; exact field_free rfl rfl)
    (by rw [encode, selOf_mkHeader, rowOf]; exact rfl)
    (by rw [encode, argOf_mkHeader, rowOf]; exact rfl)

theorem mixdel (u : Byte) (key : Word) : Statement (.mixdel u key) :=
  header_selected (by rw [encode, opOf_mkHeader, rowOf]; exact rfl)
    (by rw [encode, unitOf_mkHeader, rowOf]; exact field_free rfl rfl)
    (by rw [encode, selOf_mkHeader, rowOf]; exact rfl)
    (by rw [encode, argOf_mkHeader, rowOf]; exact rfl)

theorem mixamp (u vout : Byte) (key : Word) (gain : Sample) : Statement (.mixamp u vout key gain) :=
  header_selected (by rw [encode, opOf_mkHeader, rowOf]; exact rfl)
    (by rw [encode, unitOf_mkHeader, rowOf]; exact field_free rfl rfl)
    (by rw [encode, selOf_mkHeader, rowOf]; exact rfl)
    (by rw [encode, argOf_mkHeader, rowOf]; exact field_free rfl rfl)

theorem seti (u slot : Byte) (value : Word) : Statement (.seti u slot value) :=
  header_selected (by rw [encode, opOf_mkHeader, rowOf]; exact rfl)
    (by rw [encode, unitOf_mkHeader, rowOf]; exact field_free rfl rfl)
    (by rw [encode, selOf_mkHeader, rowOf]; exact field_free rfl rfl)
    (by rw [encode, argOf_mkHeader, rowOf]; exact rfl)

theorem newBsplit (u bands : Byte) (inp : Addr) (min max : Sample) (q : XOp) :
    Statement (.newBsplit u bands inp min max q) :=
  header_selected (by rw [encode, opOf_mkHeader, rowOf]; exact rfl)
    (by rw [encode, unitOf_mkHeader, rowOf]; exact field_free rfl rfl)
    (by
      rw [encode, selOf_mkHeader, rowOf]
      exact sel_one q.bit)
    (by rw [encode, argOf_mkHeader, rowOf]; exact field_free rfl rfl)

theorem newFourband (u : Byte) (inp : Addr) (freq1 freq2 freq3 : XOp) :
    Statement (.newFourband u inp freq1 freq2 freq3) :=
  header_selected (by rw [encode, opOf_mkHeader, rowOf]; exact rfl)
    (by rw [encode, unitOf_mkHeader, rowOf]; exact field_free rfl rfl)
    (by
      rw [encode, selOf_mkHeader, rowOf]
      exact sel_three freq1.bit freq2.bit freq3.bit)
    (by rw [encode, argOf_mkHeader, rowOf]; exact rfl)

theorem newMultiband (u bands : Byte) (inp : Addr) : Statement (.newMultiband u bands inp) :=
  header_selected (by rw [encode, opOf_mkHeader, rowOf]; exact rfl)
    (by rw [encode, unitOf_mkHeader, rowOf]; exact field_free rfl rfl)
    (by rw [encode, selOf_mkHeader, rowOf]; exact rfl)
    (by rw [encode, argOf_mkHeader, rowOf]; exact field_free rfl rfl)

theorem newConvolve (u : Byte) (inp : Addr) (taps : List Sample) :
    Statement (.newConvolve u inp taps) :=
  header_selected (by rw [encode, opOf_mkHeader, rowOf]; exact rfl)
    (by rw [encode, unitOf_mkHeader, rowOf]; exact field_free rfl rfl)
    (by rw [encode, selOf_mkHeader, rowOf]; exact rfl)
    (by rw [encode, argOf_mkHeader, rowOf]; exact rfl)

theorem newIrwinsinc (u type : Byte) (inp : Addr) (freq bw : XOp) (order : Word) :
    Statement (.newIrwinsinc u type inp freq bw order) :=
  header_selected (by rw [encode, opOf_mkHeader, rowOf]; exact rfl)
    (by rw [encode, unitOf_mkHeader, rowOf]; exact field_free rfl rfl)
    (by
      rw [encode, selOf_mkHeader, rowOf]
      exact sel_two freq.bit bw.bit)
    (by rw [encode, argOf_mkHeader, rowOf]; exact field_free rfl rfl)

theorem newIraverage (u : Byte) (inp : Addr) (order : Word) :
    Statement (.newIraverage u inp order) :=
  header_selected (by rw [encode, opOf_mkHeader, rowOf]; exact rfl)
    (by rw [encode, unitOf_mkHeader, rowOf]; exact field_free rfl rfl)
    (by rw [encode, selOf_mkHeader, rowOf]; exact rfl)
    (by rw [encode, argOf_mkHeader, rowOf]; exact rfl)

theorem newIrpulse (u type : Byte) (inp : Addr) (freq bw : XOp) (order : Word) :
    Statement (.newIrpulse u type inp freq bw order) :=
  header_selected (by rw [encode, opOf_mkHeader, rowOf]; exact rfl)
    (by rw [encode, unitOf_mkHeader, rowOf]; exact field_free rfl rfl)
    (by
      rw [encode, selOf_mkHeader, rowOf]
      exact sel_two freq.bit bw.bit)
    (by rw [encode, argOf_mkHeader, rowOf]; exact field_free rfl rfl)

theorem newIrfm (u : Byte) (inp : Addr) (carrier ratio index : XOp) (order : Word) :
    Statement (.newIrfm u inp carrier ratio index order) :=
  header_selected (by rw [encode, opOf_mkHeader, rowOf]; exact rfl)
    (by rw [encode, unitOf_mkHeader, rowOf]; exact field_free rfl rfl)
    (by
      rw [encode, selOf_mkHeader, rowOf]
      exact sel_three carrier.bit ratio.bit index.bit)
    (by rw [encode, argOf_mkHeader, rowOf]; exact rfl)

theorem newFreeverb (u : Byte) (inp : Addr) (size damp mix : XOp) :
    Statement (.newFreeverb u inp size damp mix) :=
  header_selected (by rw [encode, opOf_mkHeader, rowOf]; exact rfl)
    (by rw [encode, unitOf_mkHeader, rowOf]; exact field_free rfl rfl)
    (by
      rw [encode, selOf_mkHeader, rowOf]
      exact sel_three size.bit damp.bit mix.bit)
    (by rw [encode, argOf_mkHeader, rowOf]; exact rfl)

theorem newSig (u : Byte) (value : XOp) : Statement (.newSig u value) :=
  header_selected (by rw [encode, opOf_mkHeader, rowOf]; exact rfl)
    (by rw [encode, unitOf_mkHeader, rowOf]; exact field_free rfl rfl)
    (by
      rw [encode, selOf_mkHeader, rowOf]
      exact sel_one value.bit)
    (by rw [encode, argOf_mkHeader, rowOf]; exact rfl)

theorem newSigto (u : Byte) (value : XOp) (time init : Sample) :
    Statement (.newSigto u value time init) :=
  header_selected (by rw [encode, opOf_mkHeader, rowOf]; exact rfl)
    (by rw [encode, unitOf_mkHeader, rowOf]; exact field_free rfl rfl)
    (by
      rw [encode, selOf_mkHeader, rowOf]
      exact sel_one value.bit)
    (by rw [encode, argOf_mkHeader, rowOf]; exact rfl)

theorem newVarport (u : Byte) (value time init : Sample) :
    Statement (.newVarport u value time init) :=
  header_selected (by rw [encode, opOf_mkHeader, rowOf]; exact rfl)
    (by rw [encode, unitOf_mkHeader, rowOf]; exact field_free rfl rfl)
    (by rw [encode, selOf_mkHeader, rowOf]; exact rfl)
    (by rw [encode, argOf_mkHeader, rowOf]; exact rfl)

theorem newMixer (u outs : Byte) (time : Sample) : Statement (.newMixer u outs time) :=
  header_selected (by rw [encode, opOf_mkHeader, rowOf]; exact rfl)
    (by rw [encode, unitOf_mkHeader, rowOf]; exact field_free rfl rfl)
    (by rw [encode, selOf_mkHeader, rowOf]; exact rfl)
    (by rw [encode, argOf_mkHeader, rowOf]; exact field_free rfl rfl)

theorem newScale (u : Byte) (inp : Addr) (inmin inmax outmin outmax : XOp) (exp : Sample) :
    Statement (.newScale u inp inmin inmax outmin outmax exp) :=
  header_selected (by rw [encode, opOf_mkHeader, rowOf]; exact rfl)
    (by rw [encode, unitOf_mkHeader, rowOf]; exact field_free rfl rfl)
    (by
      rw [encode, selOf_mkHeader, rowOf]
      exact sel_four inmin.bit inmax.bit outmin.bit outmax.bit)
    (by rw [encode, argOf_mkHeader, rowOf]; exact rfl)

theorem newResample (u : Byte) (dir : Dir) (factor : BitVec 7) (mode : Byte) (inp : Addr) :
    Statement (.newResample u dir factor mode inp) :=
  header_selected (by rw [encode, opOf_mkHeader, rowOf]; exact rfl)
    (by rw [encode, unitOf_mkHeader, rowOf]; exact field_free rfl rfl)
    (by rw [encode, selOf_mkHeader, rowOf]; exact field_free rfl rfl)
    (by rw [encode, argOf_mkHeader, rowOf]; exact field_free rfl rfl)

theorem newPan (u chnls : Byte) (lin : Bool) (inp : Addr) (pan : XOp) :
    Statement (.newPan u chnls lin inp pan) :=
  header_selected (by rw [encode, opOf_mkHeader, rowOf]; exact rfl)
    (by rw [encode, unitOf_mkHeader, rowOf]; exact field_free rfl rfl)
    (by
      rw [encode, selOf_mkHeader, rowOf]
      exact sel_lin pan.bit lin)
    (by rw [encode, argOf_mkHeader, rowOf]; exact field_free rfl rfl)

theorem newSwitch (u chnls : Byte) (lin : Bool) (inp : Addr) (voice : XOp) :
    Statement (.newSwitch u chnls lin inp voice) :=
  header_selected (by rw [encode, opOf_mkHeader, rowOf]; exact rfl)
    (by rw [encode, unitOf_mkHeader, rowOf]; exact field_free rfl rfl)
    (by
      rw [encode, selOf_mkHeader, rowOf]
      exact sel_lin voice.bit lin)
    (by rw [encode, argOf_mkHeader, rowOf]; exact field_free rfl rfl)

theorem newSelector (u nin : Byte) (lin : Bool) (voice : XOp) (inputs : List Addr) :
    Statement (.newSelector u nin lin voice inputs) :=
  header_selected (by rw [encode, opOf_mkHeader, rowOf]; exact rfl)
    (by rw [encode, unitOf_mkHeader, rowOf]; exact field_free rfl rfl)
    (by
      rw [encode, selOf_mkHeader, rowOf]
      exact sel_lin voice.bit lin)
    (by rw [encode, argOf_mkHeader, rowOf]; exact field_free rfl rfl)

theorem newDbtoa (u : Byte) (inp : Addr) : Statement (.newDbtoa u inp) :=
  header_selected (by rw [encode, opOf_mkHeader, rowOf]; exact rfl)
    (by rw [encode, unitOf_mkHeader, rowOf]; exact field_free rfl rfl)
    (by rw [encode, selOf_mkHeader, rowOf]; exact rfl)
    (by rw [encode, argOf_mkHeader, rowOf]; exact rfl)

theorem newAtodb (u : Byte) (inp : Addr) : Statement (.newAtodb u inp) :=
  header_selected (by rw [encode, opOf_mkHeader, rowOf]; exact rfl)
    (by rw [encode, unitOf_mkHeader, rowOf]; exact field_free rfl rfl)
    (by rw [encode, selOf_mkHeader, rowOf]; exact rfl)
    (by rw [encode, argOf_mkHeader, rowOf]; exact rfl)

theorem newMtof (u : Byte) (inp : Addr) : Statement (.newMtof u inp) :=
  header_selected (by rw [encode, opOf_mkHeader, rowOf]; exact rfl)
    (by rw [encode, unitOf_mkHeader, rowOf]; exact field_free rfl rfl)
    (by rw [encode, selOf_mkHeader, rowOf]; exact rfl)
    (by rw [encode, argOf_mkHeader, rowOf]; exact rfl)

theorem newFtom (u : Byte) (inp : Addr) : Statement (.newFtom u inp) :=
  header_selected (by rw [encode, opOf_mkHeader, rowOf]; exact rfl)
    (by rw [encode, unitOf_mkHeader, rowOf]; exact field_free rfl rfl)
    (by rw [encode, selOf_mkHeader, rowOf]; exact rfl)
    (by rw [encode, argOf_mkHeader, rowOf]; exact rfl)

theorem newMtot (u : Byte) (inp : Addr) (centralkey : Sample) :
    Statement (.newMtot u inp centralkey) :=
  header_selected (by rw [encode, opOf_mkHeader, rowOf]; exact rfl)
    (by rw [encode, unitOf_mkHeader, rowOf]; exact field_free rfl rfl)
    (by rw [encode, selOf_mkHeader, rowOf]; exact rfl)
    (by rw [encode, argOf_mkHeader, rowOf]; exact rfl)

theorem newCentstotranspo (u : Byte) (inp : Addr) : Statement (.newCentstotranspo u inp) :=
  header_selected (by rw [encode, opOf_mkHeader, rowOf]; exact rfl)
    (by rw [encode, unitOf_mkHeader, rowOf]; exact field_free rfl rfl)
    (by rw [encode, selOf_mkHeader, rowOf]; exact rfl)
    (by rw [encode, argOf_mkHeader, rowOf]; exact rfl)

theorem newTranspotocents (u : Byte) (inp : Addr) : Statement (.newTranspotocents u inp) :=
  header_selected (by rw [encode, opOf_mkHeader, rowOf]; exact rfl)
    (by rw [encode, unitOf_mkHeader, rowOf]; exact field_free rfl rfl)
    (by rw [encode, selOf_mkHeader, rowOf]; exact rfl)
    (by rw [encode, argOf_mkHeader, rowOf]; exact rfl)

end Sys2Proof.Laws.TableRow
end

