-- ==== Sys2Proof/Tests/Slice0.lean ====
section
/-! SUPPORT. Tests: the well-formedness smoke, one written-out packet per command (95_test_vectors.md V1,
30_encoding.md R96), one small step per command, and for every statement with hypotheses a witness that meets
them. Expected values come from spec/, by the vector named at each test. -/

namespace Sys2Proof.Tests

-- One proof at a time: waiting side by side, these proofs hold a thread and its stack each.
set_option Elab.async false

open Sys2Proof Sys2Proof.Machine
open Sys2Proof.Config (cfg)

/-! ### WellFormed -/

/-- A tap list that no count word can describe is refused. -/
theorem test_illformed_taps : (Instr.newConvolve 0#8 0x40000000#32 (List.replicate (2 ^ 32) 0#32)).wellFormed
    = false := by
  simp only [Instr.wellFormed, tapsFit, List.length_replicate]; decide

/-- `arg` 1 stands for two inputs (R346), so one input is refused. -/
theorem test_illformed_selector :
    (Instr.newSelector 5#8 1#8 false (.const 0#32) [0x40000000#32]).wellFormed = false := by decide

theorem test_wellformed_selector :
    (Instr.newSelector 5#8 1#8 false (.const 0#32) [0x40000000#32, 0x40400000#32]).wellFormed = true := by
  decide

/-! ### Decoding: words written out from R91, R93 and R96 (V1) -/

theorem test_decode_nop : decode ⟨0x00000000#32, []⟩ = .command .nop := by decide
theorem test_decode_del : decode ⟨0x01030000#32, []⟩ = .command (.del 3#8) := by decide
theorem test_decode_setc :
    decode ⟨0x02030000#32, [0x40200000#32]⟩ = .command (.setc 3#8 0#8 0x40200000#32) := by decide
theorem test_decode_sets :
    decode ⟨0x03030000#32, [0x81400000#32]⟩ = .command (.sets 3#8 0#8 0x81400000#32) := by decide
theorem test_decode_seti :
    decode ⟨0x0C040200#32, [1#32]⟩ = .command (.seti 4#8 2#8 1#32) := by decide
theorem test_decode_compute : decode ⟨0x04030000#32, []⟩ = .command (.compute 3#8) := by decide
theorem test_decode_reset : decode ⟨0x05020000#32, []⟩ = .command (.reset 2#8) := by decide
theorem test_decode_getout : decode ⟨0x06050000#32, []⟩ = .command (.getout 5#8) := by decide
theorem test_decode_rdcsr : decode ⟨0x07000600#32, []⟩ = .command (.rdcsr 6#8) := by decide
theorem test_decode_ack : decode ⟨0x08070000#32, []⟩ = .command (.ack 7#8) := by decide
theorem test_decode_mixadd : decode ⟨0x09080000#32, [7#32, 0x40000000#32]⟩ =
    .command (.mixadd 8#8 7#32 0x40000000#32) := by decide
theorem test_decode_mixdel : decode ⟨0x0A080000#32, [7#32]⟩ = .command (.mixdel 8#8 7#32) := by decide
theorem test_decode_mixamp : decode ⟨0x0B080001#32, [7#32, 0x3F000000#32]⟩ =
    .command (.mixamp 8#8 1#8 7#32 0x3F000000#32) := by decide
theorem test_decode_newBsplit :
    decode ⟨0x10010004#32, [0x40000000#32, 0x42C80000#32, 0x461C4000#32, 0x3F800000#32]⟩ =
      .command (.newBsplit 1#8 4#8 0x40000000#32 0x42C80000#32 0x461C4000#32 (.const 0x3F800000#32)) := by
  decide
theorem test_decode_newFourband :
    decode ⟨0x11010000#32, [0x40000000#32, 0x43160000#32, 0x43FA0000#32, 0x44FA0000#32]⟩ =
      .command (.newFourband 1#8 0x40000000#32 (.const 0x43160000#32) (.const 0x43FA0000#32)
        (.const 0x44FA0000#32)) := by decide
theorem test_decode_newMultiband :
    decode ⟨0x12010003#32, [0x40000000#32]⟩ = .command (.newMultiband 1#8 3#8 0x40000000#32) := by decide
theorem test_decode_newConvolve :
    decode ⟨0x13000000#32, [0x40000000#32, 3#32, 0x3F000000#32, 0x3E800000#32, 0x3E000000#32]⟩ =
      .command (.newConvolve 0#8 0x40000000#32 [0x3F000000#32, 0x3E800000#32, 0x3E000000#32]) := by
  decide
theorem test_decode_newIrwinsinc :
    decode ⟨0x14040000#32, [0x40000000#32, 0x447A0000#32, 0x43FA0000#32, 1#32]⟩ =
      .command (.newIrwinsinc 4#8 0#8 0x40000000#32 (.const 0x447A0000#32) (.const 0x43FA0000#32)
        1#32) := by decide
theorem test_decode_newIraverage :
    decode ⟨0x15050000#32, [0x40000000#32, 4#32]⟩ = .command (.newIraverage 5#8 0x40000000#32 4#32) := by
  decide
theorem test_decode_newIrpulse :
    decode ⟨0x16060009#32, [0x40000000#32, 0x43480000#32, 0x44FA0000#32, 2#32]⟩ =
      .command (.newIrpulse 6#8 9#8 0x40000000#32 (.const 0x43480000#32) (.const 0x44FA0000#32) 2#32) := by
  decide
theorem test_decode_newIrfm :
    decode ⟨0x17070000#32, [0x40000000#32, 0xBF800000#32, 0xBF800000#32, 0xBF800000#32, 2#32]⟩ =
      .command (.newIrfm 7#8 0x40000000#32 (.const 0xBF800000#32) (.const 0xBF800000#32)
        (.const 0xBF800000#32) 2#32) := by decide
theorem test_decode_newFreeverb :
    decode ⟨0x18020200#32, [0x40000000#32, 0x3F000000#32, 0x40400000#32, 0x3E800000#32]⟩ =
      .command (.newFreeverb 2#8 0x40000000#32 (.const 0x3F000000#32) (.stream 0x40400000#32)
        (.const 0x3E800000#32)) := by decide
theorem test_decode_newSig :
    decode ⟨0x19090100#32, [0x40800000#32]⟩ = .command (.newSig 9#8 (.stream 0x40800000#32)) := by decide
theorem test_decode_newSigto :
    decode ⟨0x1A000100#32, [0x40400000#32, 0x38D1B717#32, 0x00000000#32]⟩ =
      .command (.newSigto 0#8 (.stream 0x40400000#32) 0x38D1B717#32 0x00000000#32) := by decide
theorem test_decode_newVarport :
    decode ⟨0x1B070000#32, [0x3F800000#32, 0x38D1B717#32, 0x00000000#32]⟩ =
      .command (.newVarport 7#8 0x3F800000#32 0x38D1B717#32 0x00000000#32) := by decide
theorem test_decode_newMixer :
    decode ⟨0x1C080002#32, [0x3951B717#32]⟩ = .command (.newMixer 8#8 2#8 0x3951B717#32) := by decide
theorem test_decode_newScale :
    decode ⟨0x1D030000#32, [0x40000000#32, 0x00000000#32, 0x3F800000#32, 0x41200000#32, 0x41A00000#32,
        0x3F800000#32]⟩ =
      .command (.newScale 3#8 0x40000000#32 (.const 0x00000000#32) (.const 0x3F800000#32)
        (.const 0x41200000#32) (.const 0x41A00000#32) 0x3F800000#32) := by decide
theorem test_decode_newResample_up :
    decode ⟨0x1E030200#32, [0x40000000#32]⟩ = .command (.newResample 3#8 .up 2#7 0#8 0x40000000#32) := by
  decide
theorem test_decode_newResample_down :
    decode ⟨0x1E038200#32, [0x40000000#32]⟩ = .command (.newResample 3#8 .down 2#7 0#8 0x40000000#32) := by
  decide
theorem test_decode_newPan :
    decode ⟨0x1F040102#32, [0x40000000#32, 0x40400000#32]⟩ =
      .command (.newPan 4#8 2#8 false 0x40000000#32 (.stream 0x40400000#32)) := by decide
theorem test_decode_newSwitch :
    decode ⟨0x20048003#32, [0x40000000#32, 0x3F800000#32]⟩ =
      .command (.newSwitch 4#8 3#8 true 0x40000000#32 (.const 0x3F800000#32)) := by decide
theorem test_decode_newSelector :
    decode ⟨0x21050103#32, [0x40C00000#32, 0x40000000#32, 0x40400000#32, 0x40800000#32]⟩ =
      .command (.newSelector 5#8 3#8 false (.stream 0x40C00000#32)
        [0x40000000#32, 0x40400000#32, 0x40800000#32]) := by decide
theorem test_decode_newDbtoa :
    decode ⟨0x22000000#32, [0x40000000#32]⟩ = .command (.newDbtoa 0#8 0x40000000#32) := by decide
theorem test_decode_newAtodb :
    decode ⟨0x22010001#32, [0x40000000#32]⟩ = .command (.newAtodb 1#8 0x40000000#32) := by decide
theorem test_decode_newMtof :
    decode ⟨0x22060002#32, [0x40000000#32]⟩ = .command (.newMtof 6#8 0x40000000#32) := by decide
theorem test_decode_newFtom :
    decode ⟨0x22030003#32, [0x40000000#32]⟩ = .command (.newFtom 3#8 0x40000000#32) := by decide
theorem test_decode_newMtot :
    decode ⟨0x22060004#32, [0x40000000#32, 0x42700000#32]⟩ =
      .command (.newMtot 6#8 0x40000000#32 0x42700000#32) := by decide
theorem test_decode_newCentstotranspo :
    decode ⟨0x22050005#32, [0x40000000#32]⟩ = .command (.newCentstotranspo 5#8 0x40000000#32) := by decide
theorem test_decode_newTranspotocents :
    decode ⟨0x22060006#32, [0x40000000#32]⟩ = .command (.newTranspotocents 6#8 0x40000000#32) := by decide

/-- V2: the packets with an unknown opcode or a reserved header bit. -/
theorem test_decode_badOp : ∀ p ∈ ([⟨0x0D000000#32, []⟩, ⟨0x00000001#32, []⟩, ⟨0x04030100#32, []⟩,
    ⟨0x22000007#32, [0x40000000#32]⟩, ⟨0x19090200#32, [0x3F000000#32]⟩, ⟨0x0D000000#32, [0#32]⟩] :
    List Packet), decode p = .badOp := by decide

/-- V2: the packets of a wrong length. -/
theorem test_decode_badLen : ∀ p ∈ ([⟨0x04030000#32, [0#32]⟩, ⟨0x13000000#32, [0x40000000#32]⟩,
    ⟨0x13000000#32, [0x40000000#32, 3#32, 0x3F000000#32, 0x3E800000#32]⟩,
    ⟨0x22060004#32, [0x40000000#32]⟩, ⟨0x21050001#32, [0x3F000000#32, 0x40000000#32]⟩] : List Packet),
    decode p = .badLen := by decide

/-! ### One step per command, on a small machine -/

/-- Configuration T4 of 95_test_vectors.md; the functions that no test below applies are constant. -/
def t4 : Cfg :=
  { (default : Cfg) with
    sr := 0x472C4400#32
    bufsize := 4
    nchnls := 2
    nunits := 16
    nhostbuf := 4
    hblen := 16
    maxtaps := 8
    maxdelay := 32
    maxbands := 8
    maxmixin := 4
    qMin := 0x3A83126F#32
    sin := fun _ => f1
    cos := fun _ => f0
    pow := fun _ _ => f1
    lr4Coeffs := fun _ _ => ⟨⟨fHalf, f0, f0, f0, f0⟩, ⟨fHalf, f0, f0, f0, f0⟩, f0, f0, f0, f0⟩
    blackman := fun j => if j = 128 then f1 else if j = 64 ∨ j = 192 then 0x3EAE147B#32 else f0
    irPulseSynth := fun type _ _ _ _ i => if i = 0 then ofNat (type + 1) else f0
    irFmSynth := fun _ _ _ _ _ i => if i = 0 then f1 else f0
    combBase := fun c => ofNat (100 * (c + 1))
    apBase := fun a => ofNat (100 * (a + 1))
    fvGain := 0x3E000000#32
    fbScale := 0x3E800000#32
    fbOffset := fHalf
    dampScale := fHalf
    vpExtra := 2 }

/-- Configuration TF: T4 with the sample rate 441 and blocks of 8. -/
def tf : Cfg := { t4 with sr := 0x43DC8000#32, bufsize := 8 }

/-- Host buffers 0 to 3. -/
def h0 : Addr := 0x40000000#32
/-- Host buffer 1. -/
def h1 : Addr := 0x40400000#32
/-- Host buffer 2. -/
def h2 : Addr := 0x40800000#32
/-- Host buffer 3. -/
def h3 : Addr := 0x40C00000#32

/-- A host buffer holding `xs` from its first element on. -/
def cells (a : Addr) (xs : List Sample) : Memory := xs.zipIdx.map fun e => (a.toNat + e.2, e.1)

/-- The state after reset but for unit 0 and the host buffers. -/
def rig (U : DspUnit) (hb : Memory) : State := { State.reset with units := [(0, U)], hb := hb }

/-- The state a command ends in. -/
def after (r : Result) : State :=
  match r with
  | .next t => t
  | .fault e => nomatch e
  | .refused _ => State.reset

/-- The response a command ends with. -/
def answerOf (r : Result) : Option (Code × Word) :=
  match (after r).port with
  | .response a => some (a.code, a.value)
  | _ => none

/-- Unit `u` after the command, or an empty SIG. -/
def unitAfter (r : Result) (u : Nat) : DspUnit :=
  (tableGet (after r).units u).getD ⟨0, [], nullAddr, [], false, .sig⟩

/-- A unit of T4 with one channel. -/
def one (inp : Addr) (slots : List Slot) (body : Body) : DspUnit := freshUnit t4 1 inp slots body

/-- A constant slot. -/
def num (c : Sample) : Slot := ⟨.const, c, nullAddr⟩

/-- A streamed slot. -/
def str (h : Addr) : Slot := ⟨.stream, f0, h⟩

/-- A FREEVERB of TF with lengths 1 to 8 and 1 to 4 (V40). -/
def verb : DspUnit := freshUnit tf 1 h0 [num fHalf, num fHalf, num f1] (.freeverb (freshFreeverb tf 0#32))

/-- A MIXER of two outputs, ramp length 8, with keys 7 and 9 (V55). -/
def mix : DspUnit :=
  let g : Gain := ⟨f0, ⟨f0, f0, f0, 8⟩⟩
  freshUnit t4 2 nullAddr [num 0x3951B717#32]
    (.mixer ⟨2, 8, [⟨7#32, h0, [⟨fHalf, g.rp⟩, g]⟩, ⟨9#32, h1, [g, ⟨f1, g.rp⟩]⟩]⟩)

/-- R130. -/
theorem test_nop : answerOf (execNop State.reset) = some (.ok, 0#32) := by decide

/-- V10, steps 1 and 22: DEL of a FREE slot, and of a live one. -/
theorem test_del : answerOf (delOn t4 3#8 State.reset) = some (.badUnit, 0#32) ∧
    (after (delOn t4 0#8 (rig (one nullAddr [num f1] .sig) []))).units = [] := by decide +kernel

/-- V10, step 7, and the value stored in slot 0. -/
theorem test_setc :
    answerOf (setcOn t4 0#8 1#8 f1 (rig (one nullAddr [num fHalf] .sig) [])) = some (.badSlot, 0#32) ∧
    (unitAfter (setcOn t4 0#8 0#8 f1 (rig (one nullAddr [str h0] .sig) [])) 0).slot 0 = ⟨.const, f1, h0⟩ := by
  decide +kernel

/-- R288: a new time restarts a ramp in progress from its current value. -/
theorem test_setc_hook :
    (unitAfter (setcOn t4 0#8 1#8 0x38D1B717#32
      (rig (one nullAddr [num f1, num f0] (.sigto ⟨⟨f1, f0, fHalf, 1⟩, 2⟩)) [])) 0).body =
      .sigto ⟨⟨f1, f0, 0x3E800000#32, 0⟩, 4⟩ := by decide +kernel

/-- V10, steps 10 to 14: the unit's own output, one element too far, NULL, kind 3, the last legal offset. -/
theorem test_sets :
    ([0x80000000#32, 0x4000000D#32, 0#32, 0xC0000000#32, 0x4000000C#32].map fun h =>
      answerOf (setsOn t4 0#8 0#8 h (rig (one nullAddr [num fHalf] .sig) []))) =
      [some (.badArg, 0#32), some (.badArg, 0#32), some (.badArg, 0#32), some (.badArg, 0#32),
        some (.ok, 0#32)] := by decide +kernel

/-- V36: SETI clamps the type and marks the impulse dirty. -/
theorem test_seti :
    (unitAfter (setiOn t4 0#8 2#8 9#32 (rig (one h0 [num f1, num f1]
      (.irpulse ⟨freshEngine [f1, f0, f0] 3, 2, 0, f1, f1, false⟩)) [])) 0).body =
      .irpulse ⟨freshEngine [f1, f0, f0] 3, 2, 3, f1, f1, true⟩ := by decide +kernel

/-- V10, step 5, and V40: RESET zeroes the rings and keeps the cursors. -/
theorem test_reset :
    answerOf (resetOn t4 0#8 (rig (one nullAddr [num fHalf] .sig) [])) = some (.badType, 0#32) ∧
    (unitAfter (resetOn t4 0#8 (rig (one h0 [] (.freeverb ⟨5#32, 0, [⟨[f1, f1], 1, f1⟩], [⟨[f1], 0⟩]⟩)) []))
      0).body = .freeverb ⟨5#32, 0, [⟨[f0, f0], 1, f0⟩], [⟨[f0], 0⟩]⟩ := by decide +kernel

/-- V1: `getout u5` answers `0x81400000`. -/
theorem test_getout : answerOf (getoutOn t4 5#8 { State.reset with units := [(5, one h0 [] .sig)] }) =
    some (.ok, 0x81400000#32) := by decide +kernel

/-- V11 and V10, step 9. -/
theorem test_rdcsr :
    ([0#8, 1#8, 2#8, 3#8, 4#8, 5#8, 6#8, 7#8, 8#8, 0x29#8, 9#8].map fun n =>
      answerOf (rdcsrOn t4 n State.reset)) =
      [some (.ok, 0x472C4400#32), some (.ok, 4#32), some (.ok, 16#32), some (.ok, 2#32), some (.ok, 1#32)] ++
      [some (.ok, 0#32), some (.ok, 0#32), some (.ok, 0#32), some (.ok, 0xFFFFFFFF#32), some (.ok, 0#32),
        some (.badSlot, 0#32)] := by decide +kernel

/-- R140 and R26: the pending unit shows in CBFIRST until ACK. -/
theorem test_ack :
    let s := rig { one nullAddr [num f1, num f0] (.varport ⟨⟨f1, f1, f0, 6⟩, 4, 6, false⟩) with cb := true } []
    cbFirst s = 0#32 ∧ irqLine s = true ∧ irqLine (after (ackOn t4 0#8 s)) = false := by decide +kernel

/-- V10, step 6, and R303: a new input is silent on every output. -/
theorem test_mixadd :
    answerOf (mixaddOn t4 0#8 1#32 h0 (rig (one nullAddr [num fHalf] .sig) [])) = some (.badType, 0#32) ∧
    (unitAfter (mixaddOn t4 0#8 1#32 h2 (rig (one nullAddr [num f0] (.mixer ⟨1, 0, []⟩)) [])) 0).body =
      .mixer ⟨1, 0, [⟨1#32, h2, [⟨f0, ⟨f0, f0, f0, 0⟩⟩]⟩]⟩ := by decide +kernel

/-- V10, step 20, and R304. -/
theorem test_mixdel : answerOf (mixdelOn t4 0#8 5#32 (rig mix [])) = some (.badKey, 0#32) ∧
    (match (unitAfter (mixdelOn t4 0#8 7#32 (rig mix [])) 0).body with
      | .mixer m => m.ins.map (·.key)
      | _ => []) = [9#32] := by decide +kernel

/-- V10, steps 18 and 19: the output is checked before the key. -/
theorem test_mixamp :
    answerOf (mixampOn t4 0#8 2#8 5#32 f1 (rig mix [])) = some (.badArg, 0#32) ∧
    answerOf (mixampOn t4 0#8 1#8 5#32 f1 (rig mix [])) = some (.badKey, 0#32) := by decide +kernel

/-- R160, R164 with `sin` 1 and `cos` 0, as in V21: `alpha` is 0.25 for `q` 2. -/
theorem test_newBsplit :
    (unitAfter (newBsplitOn t4 1#8 0#8 h0 0x462C4400#32 0x46AC4400#32 (.const f2) State.reset) 1).body =
      .bsplit ⟨0x462C4400#32, 0x46AC4400#32,
        [⟨0x462C4400#32, 0x3E800000#32, 0xBE800000#32, 0x3F4CCCCD#32, 0x80000000#32, 0x3F400000#32,
          f0, f0, f0, f0⟩], true⟩ := by decide +kernel

/-- R170, R175: band 0 has two correction passes, band 1 one, band 2 none. -/
theorem test_newFourband :
    (match (unitAfter (newFourbandOn t4 1#8 h0 (.const f1) (.const f1) (.const f1) State.reset) 1).body with
      | .fourband b => b.bounds.map fun d => (d.last, d.corr.length)
      | _ => []) = [(0xBF800000#32, 2), (0xBF800000#32, 1), (0xBF800000#32, 0)] := by decide +kernel

/-- V26: the band count clamps. -/
theorem test_newMultiband :
    ([1#8, 40#8].map fun b => (unitAfter (newMultibandOn t4 1#8 b h0 State.reset) 1).out.length) =
      [8, 64] := by decide +kernel

/-- V10, steps 15 and 16. -/
theorem test_newConvolve : answerOf (newConvolveOn t4 1#8 h0 [] State.reset) = some (.badArg, 0#32) ∧
    answerOf (newConvolveOn t4 1#8 h0 (List.replicate 9 f1) State.reset) = some (.alloc, 0#32) := by
  decide +kernel

/-- V35 and R211: the order and type clamps. -/
theorem test_newIrwinsinc : [0, 3, 5, 7, 100].map (evenOrder t4) = [2, 4, 6, 6, 6] ∧
    (match (unitAfter (newIrwinsincOn t4 4#8 9#8 h0 (.const f1) (.const f1) 1#32 State.reset) 4).body with
      | .irwinsinc t => some (t.type, t.order, t.dirty, t.eng.ring.length)
      | _ => none) = some (3, 2, true, 3) := by decide +kernel

/-- V34: the taps of an average of order 4. -/
theorem test_newIraverage :
    (match (unitAfter (newIraverageOn t4 5#8 h0 4#32 State.reset) 5).body with
      | .iraverage t => t.eng.imp
      | _ => []) = [0x00000000#32, 0x3E4F3CF3#32, 0x3F186186#32, 0x3E4F3CF3#32, 0x00000000#32] := by
  decide +kernel

/-- V36: type 9 becomes 3. -/
theorem test_newIrpulse :
    (match (unitAfter (newIrpulseOn t4 6#8 9#8 h0 (.const f1) (.const f1) 2#32 State.reset) 6).body with
      | .irpulse t => some (t.type, t.dirty)
      | _ => none) = some (3, true) := by decide +kernel

/-- V37: the caches start at -1. -/
theorem test_newIrfm :
    (unitAfter (newIrfmOn t4 7#8 h0 (.const f1) (.const f1) (.const f1) 2#32 State.reset) 7).body =
      .irfm ⟨freshEngine [f0, f0, f0] 3, 2, 0xBF800000#32, 0xBF800000#32, 0xBF800000#32⟩ := by
  decide +kernel

/-- V40: the ring lengths, and the seed that is drawn. -/
theorem test_newFreeverb :
    let r := newFreeverbOn tf 2#8 h0 (.const fHalf) (.const fHalf) (.const f1) State.reset
    (match (unitAfter r 2).body with
      | .freeverb f => f.combs.map (fun c => c.buf.length) ++ f.aps.map (fun a => a.buf.length)
      | _ => []) = [1, 2, 3, 4, 5, 6, 7, 8, 1, 2, 3, 4] ∧ seedCount (after r) 9 = 1#32 := by decide +kernel

/-- V10, steps 4 and 12: the slot is checked before the handle. -/
theorem test_newSig :
    answerOf (newSigOn t4 0#8 (.stream nullAddr) (rig (one nullAddr [num fHalf] .sig) [])) =
      some (.badUnit, 0#32) ∧
    answerOf (newSigOn t4 1#8 (.stream nullAddr) State.reset) = some (.badArg, 0#32) := by decide +kernel

/-- V50: `n` = 4, at rest on `init`. -/
theorem test_newSigto :
    (unitAfter (newSigtoOn t4 0#8 (.stream h1) 0x38D1B717#32 f0 State.reset) 0).body =
      .sigto ⟨⟨f0, f0, f0, 4⟩, 4⟩ := by decide +kernel

/-- Program P2: `VP_EXTRA` samples beyond the ramp. -/
theorem test_newVarport :
    (unitAfter (newVarportOn t4 7#8 f1 0x38D1B717#32 f0 State.reset) 7).body =
      .varport ⟨⟨f0, f0, f0, 6⟩, 4, 6, false⟩ := by decide +kernel

/-- R300: no output becomes one; V55: `n` = 8. -/
theorem test_newMixer :
    (unitAfter (newMixerOn t4 8#8 0#8 0x3951B717#32 State.reset) 8).body = .mixer ⟨1, 8, []⟩ := by
  decide +kernel

/-- R310: five slots set, the sixth blank. -/
theorem test_newScale :
    ((unitAfter (newScaleOn t4 3#8 h0 (.const f0) (.stream h1) (.const f1) (.const f2) fHalf State.reset) 3).p.take
      6) = [num f0, str h1, num f1, num f2, num fHalf, num f0] := by decide +kernel

/-- V63: a factor that does not divide the block is refused on the way up only. -/
theorem test_newResample :
    answerOf (newResampleOn t4 5#8 .up 3#7 0#8 h0 State.reset) = some (.badArg, 0#32) ∧
    (unitAfter (newResampleOn t4 5#8 .down 3#7 0#8 h0 State.reset) 5).body =
      .resample ⟨.down, 3, 0, 12, []⟩ := by decide +kernel

/-- R331: one channel becomes two. -/
theorem test_newPan :
    (unitAfter (newPanOn t4 4#8 1#8 true h0 (.const f0) State.reset) 4).body = .pan ⟨2, true⟩ := by
  decide +kernel

/-- R340: the output has a block per channel. -/
theorem test_newSwitch :
    (unitAfter (newSwitchOn t4 4#8 3#8 true h0 (.const f0) State.reset) 4).out.length = 12 := by decide +kernel

/-- R345: every input handle is checked. -/
theorem test_newSelector :
    answerOf (newSelectorOn t4 5#8 false (.const f0) [h0, nullAddr] State.reset) = some (.badArg, 0#32) ∧
    (unitAfter (newSelectorOn t4 5#8 false (.const f0) [h0, h1] State.reset) 5).inp = nullAddr := by
  decide +kernel

/-- R97: `arg` is the function. -/
theorem test_newConv : ([0, 1, 2, 3, 5, 6].map fun fn =>
    (unitAfter (newConvOn t4 fn [] 1#8 h0 State.reset) 1).body) =
      [0, 1, 2, 3, 5, 6].map fun fn => .conv ⟨fn, false, f0, f0⟩ := by decide +kernel

/-- R25, R350: MTOT alone has a slot. -/
theorem test_newMtot :
    (unitAfter (newConvOn t4 4 [fslot 0x42700000#32] 6#8 h0 State.reset) 6).slot 0 = num 0x42700000#32 ∧
    slotClass (.conv ⟨4, false, f0, f0⟩) 0 = some .scalar ∧ slotClass (.conv ⟨3, false, f0, f0⟩) 0 = none := by
  decide +kernel

/-! ### COMPUTE, type by type -/

/-- V10, step 23: a handle that names nothing stops the COMPUTE before it changes anything. -/
theorem test_compute_dangling :
    answerOf (computeOn t4 0#8 (rig (one nullAddr [str 0x80400000#32] .sig) [])) = some (.dangling, 0#32) := by
  decide +kernel

/-- V20: the recurrence of R165 with priming. -/
theorem test_compute_bsplit :
    (unitAfter (computeOn t4 0#8 (rig (one h0 [num f2] (.bsplit ⟨f1, f2, [⟨f1, 0x3E800000#32, 0xBE800000#32,
      fHalf, 0xBF800000#32, fHalf, f0, f0, f0, f0⟩], true⟩)) (cells h0 [f1, f0, f0, f0]))) 0).out =
      [0x3E800000#32, 0xBE800000#32, 0xBEA00000#32, 0xBDC00000#32] := by decide +kernel

/-- V24: every section halves. -/
theorem test_compute_fourband :
    (unitAfter (computeOn t4 0#8 (rig (freshUnit t4 4 h0 [num 0x43160000#32, num 0x43FA0000#32, num 0x44FA0000#32]
      (.fourband (initSplit 3))) (cells h0 [f1, 0xC0000000#32, fHalf, 0x40400000#32]))) 0).out =
      [0x3F000000#32, 0xBF800000#32, 0x3E800000#32, 0x3FC00000#32] ++
      [0x3E800000#32, 0xBF000000#32, 0x3E000000#32, 0x3F400000#32] ++
      [0x3E000000#32, 0xBE800000#32, 0x3D800000#32, 0x3EC00000#32] ++
      [0x3E000000#32, 0xBE800000#32, 0x3D800000#32, 0x3EC00000#32] := by decide +kernel

/-- V25: sections with memory and feedback; band 0 of three. -/
theorem test_compute_multiband :
    ((unitAfter (computeOn { t4 with bufsize := 8, lr4Coeffs := fun _ _ =>
        ⟨⟨0x3E800000#32, f1, 0x3E800000#32, f0, f0⟩, ⟨0xBE800000#32, f0, 0x3E800000#32, f0, f0⟩, fHalf, f0, f0,
          f0⟩ } 0#8
      (rig (freshUnit t4 3 h0 [num f1, num f2] (.multiband (initSplit 2)))
        (cells h0 [f1, f0, f0, f0, f0, f0, f0, f0]))) 0).out.take 8) =
      [0x00000000#32, 0x3E800000#32, 0x3F600000#32, 0xBE400000#32, 0x3DC00000#32, 0xBD400000#32, 0x3CC00000#32,
        0xBC400000#32] := by decide +kernel

/-- V30. -/
theorem test_compute_convolve :
    let U := unitAfter (computeOn t4 0#8 (rig (one h0 [] (.convolve (freshEngine [fHalf, 0x3E800000#32,
      0x3E000000#32] 3))) (cells h0 [f1, f2, 0xC0800000#32, 0x41000000#32]))) 0
    U.out = [0x3F000000#32, 0x3FA00000#32, 0xBFB00000#32, 0x40500000#32] ∧
    U.body = .convolve ⟨[fHalf, 0x3E800000#32, 0x3E000000#32], [0x41000000#32, f2, 0xC0800000#32], 1⟩ := by
  decide +kernel

/-- V33: the low-pass of order 2 is a delay of one sample. -/
theorem test_compute_irwinsinc :
    (unitAfter (computeOn t4 0#8 (rig (one h0 [num 0x447A0000#32, num 0x43FA0000#32]
      (.irwinsinc (freshTyped t4 0#8 1#32))) (cells h0 [f1, f2, 0x40400000#32, 0x40800000#32]))) 0).out =
      [f0, f1, f2, 0x40400000#32] := by decide +kernel

/-- V34. -/
theorem test_compute_iraverage :
    (unitAfter (computeOn t4 0#8 (rig (one h0 [] (.iraverage ⟨freshEngine (averageImpulse t4 4) 5, 4⟩))
      (cells h0 [f1, f1, f1, f1]))) 0).out =
      [0x00000000#32, 0x3E4F3CF3#32, 0x3F4C30C3#32, 0x3F800000#32] := by decide +kernel

/-- V36. -/
theorem test_compute_irpulse :
    (unitAfter (computeOn t4 0#8 (rig (one h0 [num 0x43480000#32, num 0x44FA0000#32]
      (.irpulse (freshTyped t4 9#8 2#32))) (cells h0 [f1, f2, 0x40400000#32, 0x40800000#32]))) 0).out =
      [0x40800000#32, 0x41000000#32, 0x41400000#32, 0x41800000#32] := by decide +kernel

/-- V37: three parameters at the sentinel build nothing. -/
theorem test_compute_irfm :
    (unitAfter (computeOn t4 0#8 (rig (one h0 [num fNeg1, num fNeg1, num fNeg1] (.irfm (freshIrFm t4 2#32)))
      (cells h0 [f1, f2, 0x40400000#32, 0x40800000#32]))) 0).out = [f0, f0, f0, f0] := by decide +kernel

/-- R256's expression by hand at `mx = 0.0` (log 21): `-0.0 + -0.0` and `+0.0 + -0.0`. -/
theorem test_wetDry_zero_mix : wetDry tf f0 0xBF800000#32 0x80000000#32 = 0x80000000#32 ∧
    wetDry tf f0 f1 0x80000000#32 = f0 := by decide +kernel

/-- V40: the first block of an impulse. -/
theorem test_compute_freeverb :
    (unitAfter (computeOn tf 0#8 (rig verb (cells h0 [f1, f0, f0, f0, f0, f0, f0, f0]))) 0).out =
      [0x00000000#32, 0x3E000000#32, 0x3D700000#32, 0xBE50E000#32, 0xBE851080#32, 0xBEBAB3DC#32, 0x3DA7AAE8#32,
        0x3E7CD06B#32] := by decide +kernel

/-- V12. -/
theorem test_compute_sig :
    (unitAfter (computeOn t4 0#8 (rig (one nullAddr [str h2] .sig)
      (cells h2 [f1, f2, 0x40400000#32, 0x40800000#32]))) 0).out =
      [0x3F800000#32, 0x40000000#32, 0x40400000#32, 0x40800000#32] := by decide +kernel

/-- V50: the target returns in mid-ramp. -/
theorem test_compute_sigto :
    (unitAfter (computeOn t4 0#8 (rig (one nullAddr [str h1, num 0x38D1B717#32] (.sigto ⟨⟨f0, f0, f0, 4⟩, 4⟩))
      (cells h1 [f1, f1, f0, f0]))) 0).out =
      [0x3E800000#32, 0x3F000000#32, 0x3EC00000#32, 0x3E800000#32] := by decide +kernel

/-- Program P2: the ramp has ended, the second block reaches the timeout and raises the flag. -/
theorem test_compute_varport :
    let U := unitAfter (computeOn t4 0#8 (rig (one nullAddr [num f1, num 0x38D1B717#32]
      (.varport ⟨⟨f1, f1, 0x3E800000#32, 4⟩, 4, 6, true⟩)) [])) 0
    U.out = [f1, f1, f1, f1] ∧ U.cb = true ∧
    U.body = .varport ⟨⟨f1, f1, 0x3E800000#32, 6⟩, 4, 6, false⟩ := by decide +kernel

/-- V55, the first COMPUTE. -/
theorem test_compute_mixer :
    (unitAfter (computeOn t4 0#8 (rig mix (cells h0 [f1, f2, 0xBF800000#32, 0x40800000#32] ++
      cells h1 (List.replicate 4 0x41200000#32)))) 0).out =
      [0x3D800000#32, 0x3E800000#32, 0xBE400000#32, 0x3F800000#32] ++
      [0x3FA00000#32, 0x40200000#32, 0x40700000#32, 0x40A00000#32] := by decide +kernel

/-- V56: the reversed output range, clamping at both ends, and the zero input range. -/
theorem test_compute_scale :
    scaleSample t4 f1 0x3E800000#32 f0 f1 0x41A00000#32 0x41200000#32 = 0x418C0000#32 ∧
    (unitAfter (computeOn t4 0#8 (rig (one h0 [num f0, num f1, num 0x41200000#32, num 0x41A00000#32, num f1] .scale)
      (cells h0 [fHalf, f2, fNeg1, fHalf]))) 0).out =
      [0x41700000#32, 0x41A00000#32, 0x41200000#32, 0x41700000#32] := by decide +kernel

/-- V60. -/
theorem test_compute_pan :
    (unitAfter (computeOn t4 0#8 (rig (freshUnit t4 2 h0 [str h1] (.pan ⟨2, false⟩))
      (cells h0 [f1, f1, f2, 0xC0000000#32] ++ cells h1 [f0, fHalf, f1, 0x3E800000#32]))) 0).out =
      [0x3F800000#32, 0x3F3504F3#32, 0x00000000#32, 0xBFDDB3D7#32] ++
      [0x00000000#32, 0x3F3504F3#32, 0x40000000#32, 0xBF800000#32] := by decide +kernel

/-- V61: an integer position. -/
theorem test_compute_switch :
    (unitAfter (computeOn t4 0#8 (rig (freshUnit t4 3 h0 [num f1] (.switch ⟨3, true⟩))
      (cells h0 [f1, f2, f1, f2]))) 0).out =
      [f0, f0, f0, f0] ++ [f1, f2, f1, f2] ++ [f0, f0, f0, f0] := by decide +kernel

/-- V61. -/
theorem test_compute_selector :
    (unitAfter (computeOn t4 0#8 (rig (one nullAddr [str h3] (.selector ⟨[h0, h1, h2], false⟩))
      (cells h0 (List.replicate 4 f1) ++ cells h1 (List.replicate 4 f2) ++
        cells h2 (List.replicate 4 0x40800000#32) ++ cells h3 [f0, fHalf, f2, 0x40E00000#32]))) 0).out =
      [0x3F800000#32, 0x4007C3B6#32, 0x40800000#32, 0x40800000#32] := by decide +kernel

/-- V62, ATODB at and below its floor; the memo of R351 keeps the last input. -/
theorem test_compute_conv :
    let U := unitAfter (computeOn t4 0#8 (rig (one h0 [] (.conv ⟨1, false, f0, f0⟩))
      (cells h0 [f0, 0x358637BD#32, f0, fNeg1]))) 0
    U.out = List.replicate 4 0xC2F00000#32 ∧ U.body = .conv ⟨1, true, fNeg1, 0xC2F00000#32⟩ := by
  decide +kernel

/-- V63. -/
theorem test_compute_resample :
    let hb := cells h0 [f1, f2, 0x40400000#32, 0x40800000#32, 0x40A00000#32, 0x40C00000#32, 0x40E00000#32,
      0x41000000#32]
    (unitAfter (computeOn t4 0#8 (rig (one h0 [] (.resample ⟨.up, 2, 0, 2, []⟩)) hb)) 0).out = [f1, f1, f2, f2] ∧
    (unitAfter (computeOn t4 0#8 (rig (one h0 [] (.resample ⟨.down, 2, 0, 8, []⟩)) hb)) 0).out =
      [f1, 0x40400000#32, 0x40A00000#32, 0x40E00000#32] := by decide +kernel

/-! ### The host port and the step -/

/-- R68: a write outside the host buffers is refused. -/
theorem test_host_write :
    (after (hostWriteOn t4 0x80000000#32 f1 (rig (one nullAddr [num f1] .sig) []))).port = .denied ∧
    (after (hostWriteOn t4 0x4000000F#32 0x3F800000#32 State.reset)).hb = [(0x4000000F, f1)] := by
  decide +kernel

/-- R68: one element past a host buffer is refused, and so is an element of a FREE unit. -/
theorem test_host_read :
    (after (hostReadOn t4 0x40000010#32 State.reset)).port = .denied ∧
    (after (hostReadOn t4 0x80000000#32 State.reset)).port = .denied ∧
    (after (hostReadOn t4 0x80000003#32 (rig (one nullAddr [num f1] .sig) []))).port = .data f0 := by
  decide +kernel

/-- The first instruction after reset: a NOP is presented, and answered. -/
theorem test_step_nop : step (State.reset.withFetchWord 32 0) =
    .next { State.reset with port := .response ⟨.ok, 0#32⟩ } := rfl

/-- The table's words of `rdcsr 4`. -/
theorem test_tableWord : decodeTableWord 32 0x07000400 = some (.rdcsr 4#8) := by decide +kernel

/-! ### Witnesses: states of the hardware's own configuration that meet the statements' hypotheses

`wit U` holds the one unit `U`, in slot 0; its input, where it reads one, is host buffer 0. -/

/-- The state after reset but for unit 0. -/
def wit (U : DspUnit) : State := rig U []

theorem wit_live (U : DspUnit) : liveUnit cfg (wit U) 0 = some U := rfl

theorem host_region (s : State) {n : Nat} (h : n ≤ cfg.bufsize) : inRegion cfg s h0 n = true := by
  have e := cfg_valid.hblen_ge
  simp [inRegion, kindOf, indexOf, offsetOf, h0]
  omega

theorem host_bind (s : State) (u : Nat) : bindOk cfg s u h0 cfg.bufsize = true := by
  rw [bindOk, host_region s (Nat.le_refl _)]; rfl

theorem host_bindable (s : State) (u : Nat) (xs : List XOp) (h : ∀ a, XOp.stream a ∈ xs → a = h0) :
    Bindable cfg s u [h0] xs :=
  ⟨by simp [host_bind], fun a ha => by rw [h a ha]; exact host_bind s u⟩

theorem wit_ready {U : DspUnit} (h : ∀ x ∈ readHandles cfg U, x = (h0, cfg.bufsize)) :
    Ready cfg 0#8 (wit U) U := by
  refine ⟨wit_live U, ?_⟩
  simp only [handlesLive, List.all_eq_true]
  intro x hx
  rw [h x hx]
  exact host_region _ (Nat.le_refl _)

theorem wit_inv {U : DspUnit} (h : U.Wf cfg 0) : State.Inv cfg (wit U) where
  units_sorted := rfl
  units_exist e he := by simp [wit, rig] at he; subst he; simp
  units_wf e he := by simp [wit, rig] at he; subst he; exact h
  hb_wf := rfl
  faults_codes := by simp [wit, rig, State.reset]
  lasterr_code := .inl ⟨rfl, rfl⟩

theorem reset_inv : State.Inv cfg State.reset where
  units_sorted := rfl
  units_exist e he := by simp [State.reset] at he
  units_wf e he := by simp [State.reset] at he
  hb_wf := rfl
  faults_codes := by decide
  lasterr_code := .inl ⟨rfl, rfl⟩

/-- A unit whose first slots are `slots`, all constant or streaming host buffer 0. -/
def fed (inp : Addr) (slots : List Slot) (body : Body) : DspUnit :=
  freshUnit cfg body.channels inp slots body

/-- The handles of such a unit are all host buffer 0, for one block. -/
theorem fed_handles {inp : Addr} {slots : List Slot} {body : Body} (hs : ∀ p ∈ slots, p.mode = .stream → p.h = h0)
    (hr : readsInput body = true → inp = h0 ∧ inputLength cfg body = cfg.bufsize)
    (he : ∀ a ∈ extraInputs body, a = h0) :
    ∀ x ∈ readHandles cfg (fed inp slots body), x = (h0, cfg.bufsize) := by
  intro x hx
  rcases mem_readHandles.1 hx with ⟨h, rfl⟩ | ⟨p, hp, hm, rfl⟩ | ⟨a, ha, rfl⟩
  · obtain ⟨h1, h2⟩ := hr h
    exact Prod.ext h1 h2
  · have hp := List.mem_of_mem_take hp
    rcases List.mem_append.1 hp with hp | hp
    · rw [hs p hp hm]
    · rw [List.eq_of_mem_replicate hp] at hm; cases hm
  · rw [he a ha]

theorem fed_ready {inp : Addr} {slots : List Slot} {body : Body} (hs : ∀ p ∈ slots, p.mode = .stream → p.h = h0)
    (hr : readsInput body = true → inp = h0 ∧ inputLength cfg body = cfg.bufsize)
    (he : ∀ a ∈ extraInputs body, a = h0) : Ready cfg 0#8 (wit (fed inp slots body)) (fed inp slots body) :=
  wit_ready (fed_handles hs hr he)

/-- Such a unit is sound when its type-specific state is. -/
theorem fed_wf {inp : Addr} {slots : List Slot} {body : Body} (hn : slots.length ≤ 16)
    (hs : ∀ p ∈ slots, p.mode = .stream → p.h = h0)
    (hc : ∀ k, (slots.getD k blankSlot).mode = .stream → slotClass body k = some .param)
    (hi : readsInput body = false → inp = nullAddr)
    (hr : readsInput body = true → inp = h0 ∧ inputLength cfg body = cfg.bufsize)
    (he : ∀ a ∈ extraInputs body, a = h0) (hb : body.Wf cfg) : (fed inp slots body).Wf cfg 0 where
  nch_eq := rfl
  out_length := by simp [fed, freshUnit]
  slots := by simp [fed, freshUnit]
  streams k hk := hc k (by rw [← slotBank_getD hn]; exact hk)
  no_input h := hi h
  not_own x hx := by
    rw [fed_handles hs hr he x hx]; decide
  cb_varport h := by cases h
  body := hb

/-- A unit with no slot set is ready when what it reads is host buffer 0. -/
theorem plain_ready {inp : Addr} {body : Body}
    (hr : readsInput body = true → inp = h0 ∧ inputLength cfg body = cfg.bufsize)
    (he : ∀ a ∈ extraInputs body, a = h0) :
    Ready cfg 0#8 (wit (fed inp [] body)) (fed inp [] body) := fed_ready (by simp) hr he

/-- A unit with no slot set is sound when its type-specific state is. -/
theorem plain_inv {inp : Addr} {body : Body} (hi : readsInput body = false → inp = nullAddr)
    (hr : readsInput body = true → inp = h0 ∧ inputLength cfg body = cfg.bufsize)
    (he : ∀ a ∈ extraInputs body, a = h0) (hb : body.Wf cfg) : State.Inv cfg (wit (fed inp [] body)) :=
  wit_inv (fed_wf (by decide) (by simp) (fun k hk => by simp [blankSlot] at hk) hi hr he hb)

/-- DecodeEncodeRoundTrip: well-formed terms, those of the two length checks at their bounds. -/
theorem witness_encode : (Instr.newConvolve 255#8 h0 []).wellFormed = true ∧
    (Instr.newSelector 0#8 0#8 true (.stream h0) [h0, h1]).wellFormed = true ∧
    (Instr.newSelector 0#8 3#8 true (.const f0) [h0, h1, h0]).wellFormed = true ∧
    Instr.nop.wellFormed = true := by decide

/-- EncodeDecodeRoundTrip, BadOpExactlyOutsideTheTable, BadLenExactlyOnWrongLength: a packet of each kind. -/
theorem witness_decode : decode ⟨0x07000600#32, []⟩ = .command (.rdcsr 6#8) ∧
    decode ⟨0x07010600#32, []⟩ = .badOp ∧ decode ⟨0x07000600#32, [0#32]⟩ = .badLen := by decide

/-- The state after reset with one packet presented. -/
def told (p : Packet) : State := { State.reset with input := [.packet p] }

/-- StepRunsDecodedInstruction, EveryPacketAnswered: a packet of each kind is presented. -/
theorem witness_step :
    ((told ⟨0x07000400#32, []⟩).input = [.packet ⟨0x07000400#32, []⟩] ∧
      decode ⟨0x07000400#32, []⟩ = .command (.rdcsr 4#8)) ∧
    ((told ⟨0x07010600#32, []⟩).input = [.packet ⟨0x07010600#32, []⟩] ∧
      decode ⟨0x07010600#32, []⟩ = .badOp) ∧
    (told ⟨0x07000600#32, [0#32]⟩).input = [.packet ⟨0x07000600#32, [0#32]⟩] ∧
      decode ⟨0x07000600#32, [0#32]⟩ = .badLen := ⟨⟨rfl, by decide⟩, ⟨rfl, by decide⟩, rfl, by decide⟩

/-- EveryPacketAnswered: a value other than 0 is returned. -/
theorem witness_value : ∃ t, step (told ⟨0x07000400#32, []⟩) = .next t ∧ t.port = .response ⟨.ok, 1#32⟩ :=
  ⟨_, rfl, rfl⟩

/-- ErrorsArePrecise: a packet that is refused, and one that ends OK. -/
theorem witness_errors :
    (∃ t, step (told ⟨0x07010600#32, []⟩) = .next t ∧ t.port = .response ⟨.badOp, 0#32⟩) ∧
    ∃ t, step (told ⟨0x00000000#32, []⟩) = .next t ∧ t.port = .response ⟨.ok, 0#32⟩ :=
  ⟨⟨_, rfl, rfl⟩, ⟨_, rfl, rfl⟩⟩

/-- The state after reset with one move of the host pending. -/
def moved (m : HostMove) : State := { State.reset with input := [m] }

theorem moved_inv (m : HostMove) : State.Inv cfg (moved m) where
  units_sorted := rfl
  units_exist e he := by simp [moved, State.reset] at he
  units_wf e he := by simp [moved, State.reset] at he
  hb_wf := rfl
  faults_codes := by simp [moved, State.reset]
  lasterr_code := .inl ⟨rfl, rfl⟩

/-- The last element of the last host buffer. -/
def lastElement : Addr := BitVec.ofNat 32 (addrNum 1 255 (cfg.hblen - 1))

/-- HostPortAccesses: writes to the first element of the first buffer and the last of the last are done; one
to a unit's output and one to NULL are refused; so is a read of NULL, and a read of a host element is not. -/
theorem witness_hostPort :
    (∀ m, State.Inv cfg (moved m)) ∧
    (kindOf h0 = 1 ∧ indexOf h0 < cfg.nhostbuf ∧ offsetOf h0 < cfg.hblen) ∧
    (kindOf lastElement = 1 ∧ indexOf lastElement < cfg.nhostbuf ∧ offsetOf lastElement < cfg.hblen) ∧
    kindOf 0x80000000#32 = 2 ∧ kindOf nullAddr = 0 ∧
    inRegion cfg (moved (.read h0)) h0 1 = true ∧
    inRegion cfg (moved (.read nullAddr)) nullAddr 1 = false := by
  have e := cfg_valid.hblen_ge
  have e' := cfg_valid.bufsize_pos
  have e'' := cfg_valid.hblen_le
  have hk : lastElement.toNat = addrNum 1 255 (cfg.hblen - 1) := by
    rw [lastElement, BitVec.toNat_ofNat, addrNum]; omega
  refine ⟨moved_inv, ⟨by decide, by rw [cfg_nhostbuf]; decide, ?_⟩, ?_, by decide, by decide,
    host_region _ e', by rfl⟩
  · simp [offsetOf, h0]; omega
  · simp only [kindOf, indexOf, offsetOf, hk, cfg_nhostbuf, addrNum]; omega

/-- ResetLeavesTheResetState: the reset input is asserted in a machine with a unit. -/
theorem witness_reset (U : DspUnit) :
    ∃ t, step { wit U with input := [.reset] } = .next t := ⟨_, rfl⟩

/-- BadUnitAnswers: a FREE slot, and a NEW.SIG on a live one. -/
theorem witness_badUnit :
    (unitField (.del 255#8) = some 255#8 ∧ isNew (.del 255#8) = false ∧
      liveUnit cfg State.reset 255 = none) ∧
    unitField (.newSig 0#8 (.const f0)) = some 0#8 ∧ isNew (.newSig 0#8 (.const f0)) = true ∧
      slotFree cfg (wit (fed nullAddr [] .sig)) 0 = false := by
  refine ⟨⟨rfl, rfl, ?_⟩, rfl, rfl, rfl⟩
  simp [liveUnit, State.reset]

/-- A unit of IRPULSE, with a slot of every class but `S`. -/
def pulse : Body := .irpulse ⟨⟨[f0, f0, f0], [f0, f0, f0], 0⟩, 2, 0, f0, f0, true⟩

/-- A VARPORT at rest. -/
def port : Body := .varport ⟨⟨f0, f0, f0, cfg.vpExtra⟩, 0, cfg.vpExtra, false⟩

/-- WrongTypeOrSlotAnswers: an IRPULSE is neither FREEVERB nor MIXER, has an `I` slot 2, `P` slots below it
and none above; a VARPORT has an `S` slot. -/
theorem witness_wrongType :
    liveUnit cfg (wit (fed h0 [] pulse)) 0 = some (fed h0 [] pulse) ∧ typeCode pulse ≠ 9 ∧ typeCode pulse ≠ 13 ∧
    slotClass pulse 2 = some .integer ∧ slotClass pulse 3 = none ∧ slotClass pulse 255 = none ∧
    slotClass pulse 1 ≠ some .integer ∧
    liveUnit cfg (wit (fed nullAddr [] port)) 0 = some (fed nullAddr [] port) ∧
    slotClass port 1 ≠ some .param ∧ slotClass port 1 ≠ some .integer := by
  refine ⟨rfl, ?_, ?_, rfl, rfl, rfl, ?_, rfl, ?_, ?_⟩ <;> simp [pulse, port, typeCode, slotClass]

/-- Among 121, 125 and 127 is a factor that does not divide a block of more than one and at most `2^16`
samples. -/
theorem no_common_block {n : Nat} (h1 : 1 ≤ n) (h2 : n ≤ 2 ^ 16) :
    n % 121 ≠ 0 ∨ n % 125 ≠ 0 ∨ n % 127 ≠ 0 := by omega

/-- A MIXER of one output with the given inputs. -/
def mixerOf (ins : List MixIn) : Body := .mixer ⟨1, 0, ins⟩

/-- As many inputs as a MIXER can hold, with key 1. -/
def fullIns : List MixIn := List.replicate cfg.maxmixin ⟨1#32, h0, [⟨f0, ⟨f0, f0, f0, 0⟩⟩]⟩

/-- UnusableOperandsAnswer, on a live unit: a handle that does not bind; a full MIXER; an unknown key; an output
at the bound; an output that exists. -/
theorem witness_unusable_live :
    (liveUnit cfg (wit (fed nullAddr [] .sig)) 0 = some (fed nullAddr [] .sig) ∧
      slotClass .sig 0 = some .param ∧
      bindOk cfg (wit (fed nullAddr [] .sig)) 0 nullAddr cfg.bufsize = false) ∧
    (let m : Mixer := ⟨1, 0, fullIns⟩
     liveUnit cfg (wit (fed nullAddr [] (.mixer m))) 0 = some (fed nullAddr [] (.mixer m)) ∧
     bindOk cfg (wit (fed nullAddr [] (.mixer m))) 0 nullAddr cfg.bufsize = false ∧
     bindOk cfg (wit (fed nullAddr [] (.mixer m))) 0 h0 cfg.bufsize = true ∧
     (∀ e ∈ m.ins, e.key ≠ 2#32) ∧ cfg.maxmixin ≤ m.ins.length ∧ m.outs ≤ (1#8).toNat ∧
     (0#8).toNat < m.outs) := by
  refine ⟨⟨rfl, rfl, rfl⟩, rfl, rfl, host_bind _ _, ?_, by simp [fullIns], by simp, by simp⟩
  intro e he
  rw [List.eq_of_mem_replicate he]; decide

/-- UnusableOperandsAnswer, on a FREE slot: a handle that does not bind; one tap too many; a factor that does
not divide the block. -/
theorem witness_unusable_new :
    slotFree cfg State.reset 0 = true ∧ bindOk cfg State.reset 0 nullAddr cfg.bufsize = false ∧
    bindOk cfg State.reset 0 h0 cfg.bufsize = true ∧
    cfg.maxtaps < (List.replicate (cfg.maxtaps + 1) f0).length ∧
    ∃ factor : BitVec 7, cfg.bufsize % max factor.toNat 1 ≠ 0 := by
  refine ⟨by simp [slotFree, State.reset], rfl, host_bind _ _, by simp, ?_⟩
  rcases no_common_block cfg_valid.bufsize_pos cfg_valid.bufsize_le with h | h | h
  · exact ⟨121#7, h⟩
  · exact ⟨125#7, h⟩
  · exact ⟨127#7, h⟩

/-- NewHandlesMustBind, at a FREE slot: NULL binds for no length; a handle into the slot itself does not bind; the
lengths a RESAMPLE binds for; a whole host buffer binds and one element more does not. -/
theorem witness_new_handles :
    slotFree cfg State.reset 0 = true ∧ (∀ n, bindOk cfg State.reset 0 nullAddr n = false) ∧
    (∀ n, bindOk cfg State.reset 0 0x80000000#32 n = false) ∧
    bindOk cfg State.reset 0 h0 cfg.hblen = true ∧ bindOk cfg State.reset 0 h0 (cfg.hblen + 1) = false ∧
    unitField (.newResample 0#8 .up 0#7 0#8 nullAddr) = some 0#8 ∧
    unitField (.newSelector 0#8 2#8 true (.stream nullAddr) [h0, nullAddr]) = some 0#8 := by
  refine ⟨by simp [slotFree, State.reset], fun _ => rfl, fun _ => rfl, ?_, ?_, rfl, rfl⟩ <;>
    simp [bindOk, inRegion, kindOf, indexOf, offsetOf, h0]

/-- LivenessCheckPrecedesCompute: a SIG that streams from a FREE unit, and one that streams from host buffer
0. -/
theorem witness_liveness :
    (let U := fed nullAddr [⟨.stream, f0, 0x80400000#32⟩] .sig
     liveUnit cfg (wit U) 0 = some U ∧ (U.slot 0).mode = .stream ∧
       inRegion cfg (wit U) (U.slot 0).h cfg.bufsize = false) ∧
    (let U := fed nullAddr [⟨.stream, f0, h0⟩] .sig
     liveUnit cfg (wit U) 0 = some U ∧ ∀ x ∈ readHandles cfg U, inRegion cfg (wit U) x.1 x.2 = true) := by
  refine ⟨⟨rfl, rfl, rfl⟩, rfl, ?_⟩
  exact handlesLive_iff.1 (fed_ready (by simp) (by simp [readsInput]) (by simp [extraInputs])).2

/-- EveryStepKeepsInvariant: a sound state with a move pending. -/
theorem witness_invariant : State.Inv cfg (moved (.packet ⟨0x19090100#32, [h2]⟩)) ∧
    ∃ t, step (moved (.packet ⟨0x19090100#32, [h2]⟩)) = .next t := by
  refine ⟨moved_inv _, ?_⟩
  obtain ⟨t, _, _, h, _⟩ := effect_next (exec_effect (.newSig 9#8 (.stream h2)) State.reset)
  exact ⟨t, h⟩

/-- CommandsWriteOnlyTheirUnit, OnlyFreeverbDrawsASeed, CompletionFlagChanges: a command with a live unit, its
completion flag set before and after. -/
theorem witness_command :
    let U := { fed nullAddr [] port with cb := true }
    liveUnit cfg (wit U) 0 = some U ∧ U.cb = true ∧
      ∃ t, exec .nop (wit U) = .next t ∧ liveUnit cfg t 0 = some U := ⟨rfl, rfl, _, rfl, rfl⟩

/-- InterruptLineShowsCompletionFlags: a sound state with one flag set, the least one. -/
theorem witness_interrupt :
    let U := { fed nullAddr [] port with cb := true }
    State.Inv cfg (wit U) ∧ liveUnit cfg (wit U) 0 = some U ∧ U.cb = true ∧
      ∀ v V, v < 0 → liveUnit cfg (wit U) v = some V → V.cb = false := by
  refine ⟨wit_inv ?_, rfl, rfl, fun v V h => absurd h (Nat.not_lt_zero v)⟩
  have h : (fed nullAddr [] port).Wf cfg 0 := fed_wf (by decide) (by simp)
    (fun k hk => by simp [blankSlot] at hk) (fun _ => rfl) (by simp [readsInput, port])
    (by simp [extraInputs, port]) (by simp [Body.Wf, port])
  exact { h with cb_varport := fun _ => rfl }

/-- NopDoesNothing: a header of opcode 0 with another bit set. -/
theorem witness_nop : opOf 0x00000001#32 = 0x00#8 ∧ (0x00000001#32 : Word) ≠ 0x00000000#32 := by decide

/-- DelReleasesTheUnit, AckAndGetout: the unit is live. -/
theorem witness_live : liveUnit cfg (wit (fed nullAddr [] .sig)) (0#8).toNat = some (fed nullAddr [] .sig) := rfl

theorem sig_inv : State.Inv cfg (wit (fed nullAddr [] .sig)) :=
  plain_inv (fun _ => rfl) (by simp [readsInput]) (by simp [extraInputs]) trivial

theorem port_inv : State.Inv cfg (wit (fed nullAddr [] port)) :=
  plain_inv (fun _ => rfl) (by simp [readsInput, port]) (by simp [extraInputs, port])
    (by simp [Body.Wf, port])

/-- SetcSetsTheConstant: a slot of class `P` and one of class `S` without a hook. -/
theorem witness_setc :
    (State.Inv cfg (wit (fed nullAddr [] .sig)) ∧
      liveUnit cfg (wit (fed nullAddr [] .sig)) 0 = some (fed nullAddr [] .sig) ∧
      slotClass .sig 0 = some .param) ∧
    State.Inv cfg (wit (fed nullAddr [] port)) ∧
      liveUnit cfg (wit (fed nullAddr [] port)) 0 = some (fed nullAddr [] port) ∧
      slotClass port 0 = some .scalar ∧ typeCode port = 12 := ⟨⟨sig_inv, rfl, rfl⟩, port_inv, rfl, rfl, rfl⟩

/-- A ramp of length 2 in progress. -/
def going : Ramp := ⟨f1, f0, fHalf, 1⟩

/-- SetcHooks: a live unit of each of the five types. -/
theorem witness_hooks : ∀ b ∈ ([.bsplit ⟨f1, f2, [freshBand f1], true⟩, .sigto ⟨going, 2⟩,
      .varport ⟨going, 2, 2, true⟩, .varport ⟨going, 2, 2, false⟩, .mixer ⟨1, 2, [⟨1#32, h0, [⟨f1, going⟩]⟩]⟩,
      .conv ⟨4, true, f0, f0⟩] : List Body),
    liveUnit cfg (wit (fed nullAddr [] b)) (0#8).toNat = some (fed nullAddr [] b) := fun _ _ => rfl

/-- SetsBindsTheStream. -/
theorem witness_sets : State.Inv cfg (wit (fed nullAddr [] .sig)) ∧
    liveUnit cfg (wit (fed nullAddr [] .sig)) 0 = some (fed nullAddr [] .sig) ∧
    slotClass .sig (0#8).toNat = some .param ∧
    bindOk cfg (wit (fed nullAddr [] .sig)) (0#8).toNat h0 cfg.bufsize = true :=
  ⟨sig_inv, rfl, rfl, host_bind _ _⟩

/-- SetiStoresTheType, ResetClearsFreeverb: a live unit of each type. -/
theorem witness_seti : ∀ b ∈ ([pulse, .irwinsinc ⟨⟨[f0, f0, f0], [f0, f0, f0], 0⟩, 2, 0, f0, f0, true⟩,
      .freeverb ⟨0#32, 0, [⟨[f1, f1], 1, f1⟩], [⟨[f1], 0⟩]⟩] : List Body),
    liveUnit cfg (wit (fed h0 [] b)) (0#8).toNat = some (fed h0 [] b) := fun _ _ => rfl

/-- RdcsrReturnsTheRegister: the first and last number of each range that exists, and of each that does not. -/
theorem witness_rdcsr : 1 ≤ 1 ∧ 19 ≤ 19 ∧ (BitVec.ofNat 8 (0x20 + 19)) = 0x33#8 ∧
    ∀ n ∈ ([0x09#8, 0x20#8, 0x34#8, 0xFF#8] : List Byte), 8 < n.toNat ∧ (n.toNat < 0x21 ∨ 0x33 < n.toNat) := by
  decide

/-- ResetMatchesAFreshFreeverb: a used FREEVERB with its cursors at the ends of its rings, and a fresh one. -/
def used : Freeverb :=
  { seed := 0#32
    jit := jitterOf cfg 0#32
    combs := (combLens cfg (jitterOf cfg 0#32)).map fun n => ⟨List.replicate n f1, n - 1, f1⟩
    aps := (apLens cfg (jitterOf cfg 0#32)).map fun n => ⟨List.replicate n f1, n - 1⟩ }

theorem delayLen_pos (base : Sample) (J : Nat) : 1 ≤ delayLen cfg base J := by unfold delayLen; omega

theorem witness_resetMatches :
    (Ready cfg 0#8 (wit (fed h0 [] (.freeverb used))) (fed h0 [] (.freeverb used)) ∧
      used.combs.map (fun c => c.buf.length) = combLens cfg (jitterOf cfg used.seed) ∧
      used.aps.map (fun a => a.buf.length) = apLens cfg (jitterOf cfg used.seed) ∧
      (∀ c ∈ used.combs, c.pos < c.buf.length) ∧ ∀ a ∈ used.aps, a.pos < a.buf.length) ∧
    (let W := fed h0 [] (.freeverb (freshFreeverb cfg used.seed))
     Ready cfg 0#8 (wit W) W ∧
     (∀ k i, pval cfg (wit (fed h0 [] (.freeverb used))) (fed h0 [] (.freeverb used)) k i =
       pval cfg (wit W) W k i) ∧
     ∀ i, inputAt cfg (wit (fed h0 [] (.freeverb used))) (fed h0 [] (.freeverb used)) i =
       inputAt cfg (wit W) W i) := by
  refine ⟨⟨plain_ready (fun _ => ⟨rfl, rfl⟩) (by simp [extraInputs]), ?_, ?_, ?_, ?_⟩,
    plain_ready (fun _ => ⟨rfl, rfl⟩) (by simp [extraInputs]), ?_, fun i => rfl⟩
  · simp [used, Function.comp_def]
  · simp [used, Function.comp_def]
  · intro c hc
    simp only [used, combLens, List.map_map, List.mem_map] at hc
    obtain ⟨k, _, rfl⟩ := hc
    have := delayLen_pos (cfg.combBase k) (jitterOf cfg 0#32)
    simp; omega
  · intro a ha
    simp only [used, apLens, List.map_map, List.mem_map] at ha
    obtain ⟨k, _, rfl⟩ := ha
    have := delayLen_pos (cfg.apBase k) (jitterOf cfg 0#32)
    simp; omega
  · intro k i
    have hb : ∀ b : Body, (fed h0 [] b).slot k = blankSlot := fun b => by
      show (slotBank []).getD k blankSlot = blankSlot
      rw [slotBank_getD (by decide)]; rfl
    unfold pval
    rw [hb, hb]
    rfl

/-- The COMPUTE statements on types with an input: such a unit is live, its handles too. -/
theorem witness_compute_input (b : Body) (hl : inputLength cfg b = cfg.bufsize)
    (he : ∀ a ∈ extraInputs b, a = h0) :
    Ready cfg 0#8 (wit (fed h0 [] b)) (fed h0 [] b) ∧ (fed h0 [] b).body = b :=
  ⟨plain_ready (fun _ => ⟨rfl, hl⟩) he, rfl⟩

/-- ComputeBsplitBlock, primed and not, with a constant and a streamed quality. -/
theorem witness_bsplit : ∀ init, ∀ slots ∈ ([[⟨.const, f1, nullAddr⟩], [⟨.stream, f0, h0⟩]] : List (List Slot)),
    let U := fed h0 slots (.bsplit ⟨f1, f2, [freshBand f1], init⟩)
    Ready cfg 0#8 (wit U) U := by
  intro init slots hs
  apply fed_ready (fun p hp => ?_) (fun _ => ⟨rfl, rfl⟩) (by simp [extraInputs])
  fin_cases hs <;> simp_all

/-- ComputeSplitSectionBySection: a FOURBAND, and the least and the greatest MULTIBAND, in sound states. -/
theorem witness_split : ∀ b ∈ ([.fourband (initSplit 3), .multiband (initSplit 1), .multiband (initSplit 15)] :
      List Body),
    State.Inv cfg (wit (fed h0 [] b)) ∧ Ready cfg 0#8 (wit (fed h0 [] b)) (fed h0 [] b) := by
  intro b hb
  fin_cases hb
  · exact ⟨plain_inv (by simp [readsInput]) (fun _ => ⟨rfl, rfl⟩) (by simp [extraInputs])
      (by simp [Body.Wf, initSplit, List.range_succ, boundsShaped]),
      plain_ready (fun _ => ⟨rfl, rfl⟩) (by simp [extraInputs])⟩
  · exact ⟨plain_inv (by simp [readsInput]) (fun _ => ⟨rfl, rfl⟩) (by simp [extraInputs])
      (by simp [Body.Wf, initSplit, List.range_succ, boundsShaped]),
      plain_ready (fun _ => ⟨rfl, rfl⟩) (by simp [extraInputs])⟩
  · exact ⟨plain_inv (by simp [readsInput]) (fun _ => ⟨rfl, rfl⟩) (by simp [extraInputs])
      (by simp [Body.Wf, initSplit, List.range_succ, boundsShaped]),
      plain_ready (fun _ => ⟨rfl, rfl⟩) (by simp [extraInputs])⟩

/-- An engine of three taps. -/
def taps3 : Engine := ⟨[f0, f0, f0], [f0, f0, f0], 2⟩

/-- ComputeFixedImpulse, ComputeSynthesisedImpulse: a live unit of each type; the caches differ from the
parameters, which are `+0.0`, in the first of each pair and equal them in the second. -/
theorem witness_impulse : ∀ b ∈ ([.convolve taps3, .iraverage ⟨taps3, 2⟩,
      .irwinsinc ⟨taps3, 2, 3, f1, f1, false⟩, .irwinsinc ⟨taps3, 2, 0, f0, f0, false⟩,
      .irpulse ⟨taps3, 2, 3, f1, f1, false⟩, .irpulse ⟨taps3, 2, 0, f0, f0, false⟩,
      .irfm ⟨taps3, 2, f1, f1, f1⟩, .irfm ⟨taps3, 2, f0, f0, f0⟩] : List Body),
    Ready cfg 0#8 (wit (fed h0 [] b)) (fed h0 [] b) ∧ fne f0 f1 = true ∧ fne f0 f0 = false := by
  intro b hb
  refine ⟨?_, by decide +kernel, by decide +kernel⟩
  fin_cases hb <;> exact plain_ready (fun _ => ⟨rfl, rfl⟩) (by simp [extraInputs])

/-- ConvolutionHistory: an engine stepped from fresh, for a ring of one element and of three; `d < m` and
`m ≤ d` both occur. -/
theorem witness_history : ∀ N ∈ [1, 3], ∃ q : Nat → Engine, 1 ≤ N ∧ q 0 = freshEngine [f1] N ∧
    ∀ m, q (m + 1) = (convStep { q m with imp := [f1] } f1).1 := by
  intro N hN
  refine ⟨fun m => Nat.rec (freshEngine [f1] N) (fun _ e => (convStep { e with imp := [f1] } f1).1) m, ?_, rfl,
    fun m => rfl⟩
  fin_cases hN <;> decide

/-- ConvolutionIdentityAndSilence: rings of one and of three finite samples, the cursor at its last place, with
the unit impulse and the zero impulse; `-0.0` and the greatest finite sample. -/
theorem witness_identity :
    (∀ y ∈ [f2, f1, 0x80000000#32, 0x7F7FFFFF#32], isFinite y = true) ∧
    (∀ e ∈ ([⟨[f1], [f1], 0⟩, ⟨[f1, f0, f0], [f2, f1, 0x80000000#32], 2⟩] : List Engine),
      e.wc < e.ring.length ∧ e.imp = f1 :: List.replicate (e.ring.length - 1) f0) ∧
    ∀ e ∈ ([⟨[f0], [f1], 0⟩, ⟨[f0, f0, f0], [f2, f1, 0x80000000#32], 2⟩] : List Engine),
      e.wc < e.ring.length ∧ e.imp = List.replicate e.ring.length f0 := by
  refine ⟨fun y hy => ?_, fun e he => ?_, fun e he => ?_⟩
  · fin_cases hy <;> decide +kernel
  · fin_cases he <;> exact ⟨by decide, rfl⟩
  · fin_cases he <;> exact ⟨by decide, rfl⟩

/-- SpectralInversion: under T4 the low-pass of order 2 has finite taps, the centre one included. -/
theorem witness_inversion : 2 % 2 = 0 ∧
    ∀ i, i ≤ 2 → isFinite ((winSincImpulse t4 0 0x447A0000#32 0x43FA0000#32 2).getD i f0) = true := by
  decide +kernel

/-- ComputeFreeverbBlock: a FREEVERB with one comb and one all-pass. -/
theorem witness_freeverb :
    let U := fed h0 [] (.freeverb ⟨0#32, 0, [⟨[f1, f1], 1, f1⟩], [⟨[f1], 0⟩]⟩)
    Ready cfg 0#8 (wit U) U := plain_ready (fun _ => ⟨rfl, rfl⟩) (by simp [extraInputs])

/-- A fresh SIG in slot 1: a block of `+0.0` at `0x80400000`. -/
def silent : DspUnit := freshUnit cfg 1 nullAddr [] .sig

/-- Unit `U` in slot 0, reading the silence of unit 1. -/
def pair (U : DspUnit) : State := { State.reset with units := [(0, U), (1, silent)] }

theorem silent_elem (U : DspUnit) {i : Nat} (h : i < cfg.bufsize) :
    elemAt? cfg (pair U) 0x80400000#32 i = some f0 := by
  have e : elemAt? cfg (pair U) 0x80400000#32 i = (List.replicate (1 * cfg.bufsize) f0)[0 + i]? := rfl
  rw [e]
  simp [h]

theorem silent_region (U : DspUnit) : inRegion cfg (pair U) 0x80400000#32 cfg.bufsize = true := by
  have e : inRegion cfg (pair U) 0x80400000#32 cfg.bufsize = decide (0 + cfg.bufsize ≤ 1 * cfg.bufsize) := rfl
  rw [e]; simp

/-- FreeverbModeCombinations: all parameters constant against all streamed, from a block of the same constant. -/
theorem witness_modes :
    let f : Freeverb := ⟨0#32, 0, [⟨[f1, f1], 1, f1⟩], [⟨[f1], 0⟩]⟩
    let U := fed h0 [] (.freeverb f)
    let W := fed h0 (List.replicate 3 ⟨.stream, f0, 0x80400000#32⟩) (.freeverb f)
    Ready cfg 0#8 (wit U) U ∧ Ready cfg 0#8 (pair W) W ∧
    (∀ i, inputAt cfg (wit U) U i = inputAt cfg (pair W) W i) ∧
    (∀ k, k < 3 → (U.slot k).mode = .const ∧ (U.slot k).c = f0) ∧
    ∀ k, k < 3 → (W.slot k).mode = .stream ∧
      ∀ i, i < cfg.bufsize → elemAt? cfg (pair W) (W.slot k).h i = some f0 := by
  refine ⟨plain_ready (fun _ => ⟨rfl, rfl⟩) (by simp [extraInputs]), ⟨rfl, handlesLive_iff.2 ?_⟩, fun i => rfl, ?_,
    ?_⟩
  · intro x hx
    rcases mem_readHandles.1 hx with ⟨_, rfl⟩ | ⟨p, hp, hm, rfl⟩ | ⟨a, ha, rfl⟩
    · exact host_region _ (Nat.le_refl _)
    · rcases List.mem_append.1 (List.mem_of_mem_take hp) with hp | hp
      · rw [List.eq_of_mem_replicate hp]; exact silent_region _
      · rw [List.eq_of_mem_replicate hp] at hm; cases hm
    · simp [extraInputs, fed, freshUnit] at ha
  · intro k hk
    match k, hk with
    | 0, _ | 1, _ | 2, _ => exact ⟨rfl, rfl⟩
  · intro k hk
    match k, hk with
    | 0, _ | 1, _ | 2, _ => exact ⟨rfl, fun i hi => silent_elem _ hi⟩

/-- RampLengthOfATime under T4: below one sample, one sample and more, `2^31` and more. -/
theorem witness_rampLen :
    fge (fmul 0xBF800000#32 t4.sr) f1 = false ∧
    (fge (fmul 0x38D1B717#32 t4.sr) f1 = true ∧ fge (fmul 0x38D1B717#32 t4.sr) 0x4F000000#32 = false) ∧
    fge (fmul 0x49742400#32 t4.sr) 0x4F000000#32 = true := by decide +kernel

/-- RampReachesItsTarget: before the end, at the end, and a length of 0. -/
theorem witness_ramp : 0 < 1 ∧ 1 ≤ 1 ∧ 0 ≤ 0 := by decide

/-- ComputeSigAndSigto, ComputeVarportBlock, ComputeScaleBlock, ConversionMemoIsTransparent (every function, the
memo empty and sound), ComputeSpatialBlock for PAN and SWITCH. -/
theorem witness_compute_plain :
    (∀ b ∈ ([.sig, .sigto ⟨going, 2⟩, .varport ⟨going, 2, 3, true⟩, .varport ⟨going, 2, 3, false⟩] : List Body),
      Ready cfg 0#8 (wit (fed nullAddr [] b)) (fed nullAddr [] b)) ∧
    (∀ b ∈ ([.scale, .pan ⟨2, true⟩, .switch ⟨255, false⟩] : List Body),
      Ready cfg 0#8 (wit (fed h0 [] b)) (fed h0 [] b)) ∧
    ∀ fn valid x, Ready cfg 0#8 (wit (fed h0 [] (.conv ⟨fn, valid, x, convFn cfg fn x f0⟩)))
      (fed h0 [] (.conv ⟨fn, valid, x, convFn cfg fn x f0⟩)) := by
  refine ⟨fun b hb => ?_, fun b hb => ?_, fun fn valid x => plain_ready (fun _ => ⟨rfl, rfl⟩) (by simp [extraInputs])⟩
  · fin_cases hb <;> exact plain_ready (by simp [readsInput]) (by simp [extraInputs])
  · fin_cases hb <;> exact plain_ready (fun _ => ⟨rfl, rfl⟩) (by simp [extraInputs])

/-- ComputeSpatialBlock for SELECTOR: two inputs. -/
theorem witness_selector :
    let U := fed nullAddr [] (.selector ⟨[h0, h0], true⟩)
    Ready cfg 0#8 (wit U) U ∧ 2 ≤ [h0, h0].length :=
  ⟨plain_ready (by simp [readsInput]) (by simp [extraInputs]), by decide⟩

/-- CrossfadeAtIntegersAndEnds: the least and the greatest `N`; a NaN, a negative position, the last integer that
has a channel above it, the end and beyond. -/
theorem witness_crossfade : 2 ≤ 2 ∧ 255 ≤ 255 ∧ isNaN 0x7FC00000#32 = true ∧ flt 0xBF800000#32 f0 = true ∧
    253 + 1 < 255 ∧ fge (ofNat 254) (ofNat (255 - 1)) = true ∧ fge (ofNat 300) (ofNat (255 - 1)) = true := by
  decide +kernel

/-- A gain in the middle of its ramp. -/
def gain1 : Gain := ⟨f1, going⟩

/-- A MIXER of one output and ramp length 2, with keys 1 and 2 on host buffer 0. -/
def mixer2 : Mixer := ⟨1, 2, [⟨1#32, h0, [gain1]⟩, ⟨2#32, h0, [gain1]⟩]⟩

theorem mixer_inv (m : Mixer) (h : m.Wf cfg) (hh : ∀ e ∈ m.ins, e.h = h0) :
    State.Inv cfg (wit (fed nullAddr [] (.mixer m))) :=
  plain_inv (fun _ => rfl) (by simp [readsInput])
    (fun a ha => by
      obtain ⟨e, he, rfl⟩ := List.mem_map.1 ha
      exact hh e he) h

/-- MixerCommands, ComputeMixerBlock: a MIXER with no input and one whose one input is in mid-ramp, both sound and
live; keys that are known and not. -/
theorem witness_mixer : ∀ ins ∈ ([[], [⟨1#32, h0, [gain1]⟩]] : List (List MixIn)),
    let U := fed nullAddr [] (.mixer ⟨1, 2, ins⟩)
    State.Inv cfg (wit U) ∧ Ready cfg 0#8 (wit U) U ∧ bindOk cfg (wit U) 0 h0 cfg.bufsize = true ∧
      (∀ e ∈ ins, e.key ≠ 2#32) ∧ (0#8).toNat < 1 ∧ (ins = [] → ins.length < cfg.maxmixin) := by
  intro ins hi
  have hm := cfg_valid.maxmixin_ge
  fin_cases hi
  · refine ⟨mixer_inv _ ⟨by decide, by decide, by simp, by simp, by simp, by simp⟩ (by simp),
      plain_ready (by simp [readsInput]) (by simp [extraInputs]), host_bind _ _, by simp, by decide, fun _ => hm⟩
  · refine ⟨mixer_inv _ ⟨by decide, by decide, hm, by simp, by simp [gain1], by simp [gain1, going]⟩ (by simp),
      plain_ready (by simp [readsInput]) (by simp [extraInputs]), host_bind _ _, by simp, by decide, by simp⟩

/-- ComputeResampleBlock: factor 1 on the way up and down, without a filter and with one, in sound states; and
the products and quotients of the lengths. -/
theorem witness_resample : ∀ d, ∀ mode ∈ [0, 1, 2, 255],
    let U := fed h0 [] (.resample ⟨d, 1, mode, cfg.bufsize, []⟩)
    State.Inv cfg (wit U) ∧ Ready cfg 0#8 (wit U) U := by
  intro d mode hm
  refine ⟨plain_inv (by simp [readsInput]) (fun _ => ⟨rfl, rfl⟩) (by simp [extraInputs])
    ⟨by simp, by simp, ?_, ?_, by simp [Nat.mod_one]⟩, plain_ready (fun _ => ⟨rfl, rfl⟩) (by simp [extraInputs])⟩
  · fin_cases hm <;> simp
  · cases d <;> simp [resampleLin]

/-- The NEW statements: slot 0 and slot 255 are FREE after reset, and operands that are constant or stream host
buffer 0 are bindable. -/
theorem witness_new : ∀ u ∈ [0#8, 255#8], slotFree cfg State.reset u.toNat = true ∧
    Bindable cfg State.reset u.toNat [h0] [.const f0, .stream h0, .const f1, .stream h0] ∧
    Bindable cfg State.reset u.toNat [h0, h0] [.stream h0] ∧ Bindable cfg State.reset u.toNat [] [.const f0] ∧
    bindOk cfg State.reset u.toNat h0 cfg.bufsize = true := by
  intro u hu
  refine ⟨by fin_cases hu <;> simp [slotFree, State.reset], host_bindable _ _ _ (by simp),
    ⟨by simp [host_bind], by simp [host_bind]⟩, ⟨by simp, by simp⟩, host_bind _ _⟩

/-- NewConvolutionUnits: one tap and three fit any configuration. NewSpatialUnits: two inputs for `arg` 0 and 2.
NewConversionsAndResample: factor 0 counts as 1, which divides the block. -/
theorem witness_new_lengths : (1 ≤ [f1].length ∧ [f1].length ≤ cfg.maxtaps) ∧
    [f1, f1, f1].length ≤ cfg.maxtaps ∧ [h0, h0].length = max (0#8).toNat 2 ∧
    [h0, h0].length = max (2#8).toNat 2 ∧ max (0#7).toNat 1 = 1 ∧ cfg.bufsize % 1 = 0 ∧
    bindOk cfg State.reset 0 h0 (cfg.bufsize / 1) = true ∧ bindOk cfg State.reset 0 h0 (cfg.bufsize * 1) = true := by
  have h := cfg_valid.maxtaps_ge
  refine ⟨⟨by decide, by simp; omega⟩, by simp; omega, by decide, by decide, by decide, Nat.mod_one _, ?_, ?_⟩
  · rw [Nat.div_one]; exact host_bind _ _
  · rw [Nat.mul_one]; exact host_bind _ _

end Sys2Proof.Tests
end

section
/-! PROOFS. What keeps a state sound (10_state.md R42), operation by operation. -/

namespace Sys2Proof.Machine

variable {C : Cfg} {s t : State}

/-! ### Sound states under the operations of the state -/

/-- Soundness looks at the units, the host buffers with their draw, LASTERR and FAULTS only. -/
theorem State.Inv.congr (h : State.Inv C s) (hu : t.units = s.units) (hb : t.hb = s.hb)
    (he : t.epoch = s.epoch) (hl : t.lasterr = s.lasterr) (hf : t.faults = s.faults) : State.Inv C t where
  units_sorted := hu ▸ h.units_sorted
  units_exist := hu ▸ h.units_exist
  units_wf := hu ▸ h.units_wf
  hb_wf := by rw [hb, he]; exact h.hb_wf
  faults_codes := hf ▸ h.faults_codes
  lasterr_code := by rw [hl, hf]; exact h.lasterr_code

theorem State.Inv.answer (h : State.Inv C s) (c : Code) (v : Word) : State.Inv C (s.answer c v) :=
  h.congr rfl rfl rfl rfl rfl

theorem State.Inv.drawSeed (h : State.Inv C s) (n : Nat) : State.Inv C (drawSeed n s) :=
  h.congr rfl rfl rfl rfl rfl

/-- A sound unit put in a slot that exists keeps the state sound. -/
theorem State.Inv.putUnit (h : State.Inv C s) {u : Nat} {U : DspUnit} (hu : u < C.nunits)
    (hU : U.Wf C u) : State.Inv C (putUnit u U s) where
  units_sorted := tableSorted_tableSet u U h.units_sorted
  units_exist e he := by
    rcases mem_tableSet he with rfl | he
    · exact hu
    · exact h.units_exist e he
  units_wf e he := by
    rcases mem_tableSet he with rfl | he
    · exact hU
    · exact h.units_wf e he
  hb_wf := h.hb_wf
  faults_codes := h.faults_codes
  lasterr_code := h.lasterr_code

theorem State.Inv.dropUnit (h : State.Inv C s) (u : Nat) : State.Inv C (dropUnit u s) where
  units_sorted := tableSorted_tableErase u h.units_sorted
  units_exist e he := h.units_exist e (mem_tableErase.1 he).1
  units_wf e he := h.units_wf e (mem_tableErase.1 he).1
  hb_wf := h.hb_wf
  faults_codes := h.faults_codes
  lasterr_code := h.lasterr_code

/-- An error code is one of 1 to 9 (60_exceptions.md R371). -/
theorem Code.num_range {e : Code} (he : e ≠ .ok) : 1 ≤ e.num ∧ e.num ≤ 9 := by
  revert he; cases e <;> decide

/-- The FAULTS bit of an error is among those of the response codes. -/
theorem faultBit_masked {e : Code} (he : e ≠ .ok) :
    BitVec.ofNat 32 (2 ^ e.num) &&& 0xFFFFFC01#32 = 0#32 := by
  revert he; cases e <;> decide

/-- The FAULTS bit of an error is the one its code numbers. -/
theorem faultBit_set {e : Code} (he : e ≠ .ok) :
    (BitVec.ofNat 32 (2 ^ e.num)).getLsbD e.num = true := by
  revert he; cases e <;> decide

/-- Raising an error keeps a sound state sound (60_exceptions.md R372). -/
theorem State.Inv.erred (h : State.Inv C s) {e : Code} (he : e ≠ .ok) (ht : s.Erred e t) :
    State.Inv C t := by
  obtain ⟨hlo, hhi⟩ := Code.num_range he
  have hnum : (BitVec.ofNat 32 e.num).toNat = e.num := by
    rw [BitVec.toNat_ofNat]; omega
  subst ht
  exact
    { units_sorted := h.units_sorted
      units_exist := h.units_exist
      units_wf := h.units_wf
      hb_wf := h.hb_wf
      faults_codes := by
        rw [BitVec.and_or_distrib_right, h.faults_codes, faultBit_masked he]
        rfl
      lasterr_code := by
        refine .inr ?_
        simp only [hnum, BitVec.getLsbD_or, faultBit_set he, Bool.or_true]
        exact ⟨hlo, hhi, trivial⟩ }

/-- A write to an element that exists keeps the state sound. -/
theorem State.Inv.putHostElem (hC : C.Valid) (h : State.Inv C s) {i k : Nat} (v : Sample)
    (hi : i < C.nhostbuf) (hk : k < C.hblen) : State.Inv C (putHostElem C i k v s) where
  units_sorted := h.units_sorted
  units_exist := h.units_exist
  units_wf := h.units_wf
  hb_wf := putHostElem_wf v hi hC.nhostbuf_le hk hC.hblen_le h.hb_wf
  faults_codes := h.faults_codes
  lasterr_code := h.lasterr_code

/-- A state with every slot FREE, no host element written and no error recorded is sound. -/
theorem inv_of_blank (hu : s.units = []) (hb : s.hb = []) (hl : s.lasterr = 0#32)
    (hf : s.faults = 0#32) : State.Inv C s where
  units_sorted := by rw [hu]; rfl
  units_exist := by simp [hu]
  units_wf := by simp [hu]
  hb_wf := by rw [hb]; exact memory_wf_nil C s.epoch
  faults_codes := by rw [hf]; exact BitVec.zero_and
  lasterr_code := .inl ⟨hl, hf⟩

/-- In a sound state the live units are the listed ones. -/
theorem State.Inv.liveUnit_iff_mem (h : State.Inv C s) {u : Nat} {U : DspUnit} :
    liveUnit C s u = some U ↔ (u, U) ∈ s.units := by
  constructor
  · exact fun hU => mem_of_tableGet (tableGet_of_liveUnit hU)
  · intro hm
    rw [liveUnit, if_pos (h.units_exist _ hm)]
    exact tableGet_of_mem h.units_sorted hm

/-- In a sound state every live unit is sound. -/
theorem State.Inv.liveUnit_wf (h : State.Inv C s) {u : Nat} {U : DspUnit}
    (hU : liveUnit C s u = some U) : U.Wf C u :=
  h.units_wf _ (h.liveUnit_iff_mem.1 hU)

end Sys2Proof.Machine
end

section
/-! PROOFS. What keeps a unit sound (10_state.md R42): changing a slot, and replacing the type-specific state by
one that evolves from it. -/

namespace Sys2Proof.Machine

variable {C : Cfg}

/-! ### Handles into a unit's own output (20_memory.md R75) -/

/-- The address lies in the output of unit `u`. -/
def ownOutput (u : Nat) (a : Addr) : Prop := kindOf a = 2 ∧ indexOf a = u

theorem not_ownOutput_null (u : Nat) : ¬ ownOutput u nullAddr := fun h => absurd h.1 (by decide)

/-- What binds to unit `u` is not its own output. -/
theorem not_ownOutput_of_bindOk {s : State} {u : Nat} {a : Addr} {n : Nat}
    (h : bindOk C s u a n = true) : ¬ ownOutput u a := by
  rintro ⟨hk, hi⟩
  simp [bindOk, hk, hi] at h

/-- No handle a unit reads is its own output: said of the input, the streamed slots and the further inputs. -/
theorem not_own_iff {u : Nat} {U : DspUnit} :
    (∀ h ∈ readHandles C U, ¬ (kindOf h.1 = 2 ∧ indexOf h.1 = u)) ↔
      (readsInput U.body = true → ¬ ownOutput u U.inp) ∧
      (∀ p ∈ U.p, p.mode = .stream → ¬ ownOutput u p.h) ∧
      ∀ a ∈ extraInputs U.body, ¬ ownOutput u a := by
  constructor
  · intro h
    exact ⟨fun hr => h _ (mem_readHandles.2 (.inl ⟨hr, rfl⟩)),
      fun p hp hm => h _ (mem_readHandles.2 (.inr (.inl ⟨p, hp, hm, rfl⟩))),
      fun a ha => h _ (mem_readHandles.2 (.inr (.inr ⟨a, ha, rfl⟩)))⟩
  · rintro ⟨hinp, hslots, hextra⟩ x hx
    rcases mem_readHandles.1 hx with ⟨hr, rfl⟩ | ⟨p, hp, hm, rfl⟩ | ⟨a, ha, rfl⟩
    · exact hinp hr
    · exact hslots p hp hm
    · exact hextra a ha

/-- Whether a unit reads its `in` is a matter of its type. -/
theorem readsInput_eq_of_typeCode (b : Body) :
    readsInput b = decide (typeCode b ∉ [10, 11, 12, 13, 18]) := by
  cases b <;> rfl

/-! ### Replacing the type-specific state -/

/-- `b'` can take the place of `b` in unit `u`: it is sound, of the same type, with the channels and the slots
of `b`, and reads no own output that `b` does not read. -/
structure Body.Evolves (C : Cfg) (u : Nat) (b b' : Body) : Prop where
  type : typeCode b' = typeCode b
  channels : b'.channels = b.channels
  classes : ∀ k, slotClass b' k = slotClass b k
  inputs : ∀ a ∈ extraInputs b', a ∈ extraInputs b ∨ ¬ ownOutput u a
  wf : b'.Wf C

theorem Body.Evolves.refl {u : Nat} {b : Body} (h : b.Wf C) : Body.Evolves C u b b :=
  ⟨rfl, rfl, fun _ => rfl, fun _ ha => .inl ha, h⟩

/-- A unit of the same channels, input and slots, with an output as long and an evolved type-specific state, is
sound again. -/
theorem DspUnit.Wf.evolve {u : Nat} {U V : DspUnit} (h : U.Wf C u) (hs : U.Same V)
    (hout : V.out.length = U.out.length) (hcb : V.cb = true → U.cb = true ∨ typeCode U.body = 12)
    (hb : Body.Evolves C u U.body V.body) : V.Wf C u := by
  obtain ⟨hinp, hslots, hextra⟩ := not_own_iff.1 h.not_own
  have hreads : readsInput V.body = readsInput U.body := by
    simp only [readsInput_eq_of_typeCode, hb.type]
  exact
    { nch_eq := by rw [hs.nch, h.nch_eq, hb.channels]
      out_length := by rw [hout, h.out_length, hs.nch]
      slots := by rw [hs.p, h.slots]
      streams := fun k hk => by
        rw [hb.classes]
        exact h.streams k (by rw [DspUnit.slot, ← hs.p]; exact hk)
      no_input := fun hr => by rw [hs.inp, h.no_input (hreads ▸ hr)]
      not_own := not_own_iff.2 ⟨fun hr => hs.inp ▸ hinp (hreads ▸ hr), hs.p ▸ hslots,
        fun a ha => (hb.inputs a ha).elim (hextra a) id⟩
      cb_varport := fun hc => hb.type ▸ (hcb hc).elim h.cb_varport id
      body := hb.wf }

/-- Only the type-specific state is replaced. -/
theorem DspUnit.Wf.withBody {u : Nat} {U : DspUnit} (h : U.Wf C u) {b : Body}
    (hb : Body.Evolves C u U.body b) : DspUnit.Wf C u { U with body := b } :=
  h.evolve ⟨rfl, rfl, rfl, hb.type⟩ rfl .inl hb

/-- The completion flag is cleared. -/
theorem DspUnit.Wf.acked {u : Nat} {U : DspUnit} (h : U.Wf C u) : DspUnit.Wf C u { U with cb := false } :=
  h.evolve ⟨rfl, rfl, rfl, rfl⟩ rfl (fun hc => absurd hc Bool.false_ne_true) (.refl h.body)

/-! ### Writing a slot -/

/-- Slot `j` after slot `k` was written: the written slot or what it was. -/
theorem getD_set_cases (p : List Slot) (k j : Nat) (x : Slot) :
    (j = k ∧ (p.set k x).getD j blankSlot = x) ∨
      (p.set k x).getD j blankSlot = p.getD j blankSlot := by
  by_cases hj : j = k ∧ k < p.length
  · obtain ⟨rfl, hl⟩ := hj
    exact .inl ⟨rfl, by simp [hl]⟩
  · refine .inr ?_
    simp only [List.getD_eq_getElem?_getD, List.getElem?_set]
    grind

/-- A slot is written: if it streams now, it is of class `P` and not bound to the unit's own output. -/
theorem DspUnit.Wf.withSlot {u : Nat} {U : DspUnit} (h : U.Wf C u) {k : Nat} {x : Slot}
    (hc : x.mode = .stream → slotClass U.body k = some .param)
    (ho : x.mode = .stream → ¬ ownOutput u x.h) : DspUnit.Wf C u { U with p := U.p.set k x } := by
  obtain ⟨hinp, hslots, hextra⟩ := not_own_iff.1 h.not_own
  exact
    { nch_eq := h.nch_eq
      out_length := h.out_length
      slots := by rw [List.length_set, h.slots]
      streams := fun j hj => by
        rcases getD_set_cases U.p k j x with ⟨rfl, he⟩ | he
        · exact hc (by rw [← he]; exact hj)
        · exact h.streams j (by rw [DspUnit.slot, ← he]; exact hj)
      no_input := h.no_input
      not_own := not_own_iff.2 ⟨hinp, fun p hp hm => by
        rcases List.mem_or_eq_of_mem_set hp with hp | rfl
        · exact hslots p hp hm
        · exact ho hm, hextra⟩
      cb_varport := h.cb_varport
      body := h.body }

end Sys2Proof.Machine
end

section
/-! PROOFS. The type-specific state each command leaves behind is sound when the one before was: the hooks of SETC
(40_system.md R142), SETI, RESET, the Mixer commands (44_ramp_mix.md R303 to R305) and COMPUTE. -/

namespace Sys2Proof.Machine

variable {C : Cfg} {u : Nat}

/-! ### The hooks of SETC and SETI -/

/-- A new ramp time keeps the deadline of a VARPORT at its length plus `VP_EXTRA` (44_ramp_mix.md R298). -/
theorem varportNewTime_timeout (C : Cfg) (v : Sample) (p : VarPort) :
    (varportNewTime C v p).timeout = (varportNewTime C v p).n + C.vpExtra := rfl

/-- Entries rewritten one by one, each keeping its key and its saturated gains, make a sound MIXER. -/
theorem Mixer.Wf.mapIns {m : Mixer} (h : m.Wf C) {n : Nat} {f : MixIn → MixIn}
    (hkey : ∀ e, (f e).key = e.key) (hlen : ∀ e ∈ m.ins, (f e).g.length = m.outs)
    (hcount : ∀ e ∈ m.ins, ∀ g ∈ (f e).g, g.rp.count ≤ n) :
    Mixer.Wf C { m with n := n, ins := m.ins.map f } where
  outs_pos := h.outs_pos
  outs_le := h.outs_le
  ins_le := by simpa using h.ins_le
  keys := by simpa [Function.comp_def, hkey] using h.keys
  gains := List.forall_mem_map.2 hlen
  counts := List.forall_mem_map.2 hcount

/-- A new ramp time keeps a MIXER sound (44_ramp_mix.md R302). -/
theorem mixerNewTime_wf {m : Mixer} (h : m.Wf C) (v : Sample) : (mixerNewTime C v m).Wf C :=
  h.mapIns (fun _ => rfl) (fun e he => by simpa using h.gains e he) fun e _ =>
    List.forall_mem_map.2 fun g _ => rampNewTime_count g.rp m.n (rampLen C v)

/-- The hook of SETC gives a type-specific state that can take the place of the old one. -/
theorem onSetC_evolves {b : Body} (h : b.Wf C) (k : Nat) (v : Sample) :
    Body.Evolves C u b (onSetC C k v b) := by
  unfold onSetC
  split
  case h_1 p =>
    exact ⟨rfl, List.length_map _, fun _ => rfl, fun _ ha => .inl ha,
      show 1 ≤ (p.bands.map _).length ∧ (p.bands.map _).length ≤ _ by rw [List.length_map]; exact h⟩
  case h_2 g => exact ⟨rfl, rfl, fun _ => rfl, fun _ ha => .inl ha, rampNewTime_count _ _ _⟩
  case h_3 p => exact ⟨rfl, rfl, fun _ => rfl, fun _ ha => .inl ha, varportNewTime_timeout C v p⟩
  case h_4 m =>
    exact ⟨rfl, rfl, fun _ => rfl,
      fun _ ha => .inl (by simpa [extraInputs, mixerNewTime, Function.comp_def] using ha),
      mixerNewTime_wf h v⟩
  case h_5 c => exact ⟨rfl, rfl, fun _ => rfl, fun _ ha => .inl ha, h⟩
  case h_6 => exact .refl h

/-- The type clamp keeps an engine with its order (42_convolution.md R211, R219). -/
theorem setType_sound {t : IrTyped} (h : t.eng.Ordered C t.order) (v : Word) :
    (setType v t).eng.Ordered C (setType v t).order ∧ (setType v t).type ≤ 3 :=
  ⟨h, Nat.min_le_right _ _⟩

theorem setInteger_evolves {b : Body} (h : b.Wf C) (v : Word) : Body.Evolves C u b (setInteger v b) := by
  unfold setInteger
  split
  case h_1 t => exact ⟨rfl, rfl, fun _ => rfl, fun _ ha => .inl ha, setType_sound h.1 v⟩
  case h_2 t => exact ⟨rfl, rfl, fun _ => rfl, fun _ ha => .inl ha, setType_sound h.1 v⟩
  case h_3 => exact .refl h

/-! ### RESET -/

theorem clearFreeverb_evolves {f : Freeverb} (h : f.Wf C) :
    Body.Evolves C u (.freeverb f) (.freeverb (clearFreeverb f)) :=
  ⟨rfl, rfl, fun _ => rfl, fun _ ha => .inl ha, clearFreeverb_wf h⟩

/-! ### The Mixer commands -/

/-- The gains of a new entry: one per output, at rest with a saturated counter (44_ramp_mix.md R301). -/
theorem freshGains_sound (m : Mixer) :
    (freshGains m).length = m.outs ∧ ∀ g ∈ freshGains m, g.rp.count ≤ m.n :=
  ⟨List.length_replicate, fun g hg => by rw [List.eq_of_mem_replicate hg]; exact Nat.le_refl _⟩

/-- An entry under a new key keeps a MIXER with room for it sound. -/
theorem Mixer.Wf.append {m : Mixer} (h : m.Wf C) {key : Word} (a : Addr) (hk : hasKey m key = false)
    (hroom : m.ins.length < C.maxmixin) :
    Mixer.Wf C { m with ins := m.ins ++ [⟨key, a, freshGains m⟩] } where
  outs_pos := h.outs_pos
  outs_le := h.outs_le
  ins_le := by simpa using hroom
  keys := by
    have hnew : ∀ e ∈ m.ins, e.key ≠ key := by simpa [hasKey] using hk
    simpa [List.nodup_append, h.keys] using hnew
  gains := by
    simpa [or_imp, forall_and, (freshGains_sound m).1] using h.gains
  counts := by
    simpa [or_imp, forall_and] using ⟨h.counts, (freshGains_sound m).2⟩

/-- MIXADD keeps a MIXER sound that knows the key or has room (44_ramp_mix.md R303). -/
theorem mixRegister_wf {m : Mixer} (h : m.Wf C) {key : Word} (a : Addr)
    (hroom : hasKey m key = true ∨ m.ins.length < C.maxmixin) : (mixRegister m key a).Wf C := by
  unfold mixRegister
  cases hk : hasKey m key
  · exact h.append a hk (hroom.resolve_left (by simp [hk]))
  · have hfresh := freshGains_sound m
    refine h.mapIns (fun e => by split <;> rfl) (fun e he => ?_) (fun e he => ?_) <;> split
    · exact hfresh.1
    · exact h.gains e he
    · exact hfresh.2
    · exact h.counts e he

/-- MIXADD adds to the handles a MIXER reads only the new one. -/
theorem mixRegister_inputs {m : Mixer} {key : Word} {a b : Addr}
    (hb : b ∈ (mixRegister m key a).ins.map (·.h)) : b ∈ m.ins.map (·.h) ∨ b = a := by
  unfold mixRegister at hb
  dsimp only at hb
  split at hb
  · rw [List.map_map] at hb
    obtain ⟨e, he, rfl⟩ := List.mem_map.1 hb
    dsimp only [Function.comp_apply]
    split
    · exact .inr rfl
    · exact .inl (List.mem_map_of_mem he)
  · simpa using hb

theorem mixRegister_evolves {m : Mixer} (h : m.Wf C) {key : Word} {a : Addr}
    (hroom : hasKey m key = true ∨ m.ins.length < C.maxmixin) (ha : ¬ ownOutput u a) :
    Body.Evolves C u (.mixer m) (.mixer (mixRegister m key a)) :=
  ⟨rfl, rfl, fun _ => rfl, fun _ hb => (mixRegister_inputs hb).imp_right fun e => by rw [e]; exact ha,
    mixRegister_wf h a hroom⟩

/-- The entries that stay make a sound MIXER (MIXDEL, 44_ramp_mix.md R304). -/
theorem Mixer.Wf.filterIns {m : Mixer} (h : m.Wf C) (p : MixIn → Bool) :
    Mixer.Wf C { m with ins := m.ins.filter p } where
  outs_pos := h.outs_pos
  outs_le := h.outs_le
  ins_le := (List.length_filter_le _ _).trans h.ins_le
  keys := h.keys.sublist (List.filter_sublist.map _)
  gains e he := h.gains e (List.mem_of_mem_filter he)
  counts e he := h.counts e (List.mem_of_mem_filter he)

theorem filterIns_evolves {m : Mixer} (h : m.Wf C) (p : MixIn → Bool) :
    Body.Evolves C u (.mixer m) (.mixer { m with ins := m.ins.filter p }) :=
  ⟨rfl, rfl, fun _ => rfl, fun _ ha => .inl ((List.filter_sublist.map _).subset ha), h.filterIns p⟩

/-- A target changes neither how many gains an entry has nor their counters (44_ramp_mix.md R305). -/
theorem setTarget_sound {n : Nat} {gs : List Gain} (h : ∀ g ∈ gs, g.rp.count ≤ n) (o : Nat)
    (gain : Sample) :
    (setTarget o gain gs).length = gs.length ∧ ∀ g ∈ setTarget o gain gs, g.rp.count ≤ n := by
  refine ⟨List.length_modify _ _ _, fun g hg => ?_⟩
  obtain ⟨k, hk, rfl⟩ := List.mem_iff_getElem.1 hg
  have hk' : k < gs.length := by simpa [setTarget] using hk
  have hold := h gs[k] (List.getElem_mem hk')
  simp only [setTarget, List.getElem_modify]
  split <;> exact hold

/-- MIXAMP sets a target and keeps a MIXER sound. -/
theorem mixamp_evolves {m : Mixer} (h : m.Wf C) (o : Nat) (key : Word) (gain : Sample) :
    Body.Evolves C u (.mixer m) (.mixer { m with
      ins := m.ins.map fun e => if e.key = key then { e with g := setTarget o gain e.g } else e }) := by
  have hset := fun e he => setTarget_sound (h.counts e he) o gain
  refine ⟨rfl, rfl, fun _ => rfl, fun a ha => .inl ?_,
    h.mapIns (fun e => by split <;> rfl) (fun e he => ?_) (fun e he => ?_)⟩
  · obtain ⟨e, he, rfl⟩ : ∃ e ∈ m.ins, (if e.key = key then { e with g := setTarget o gain e.g }
        else e).h = a := by simpa [extraInputs] using ha
    exact List.mem_map.2 ⟨e, he, by split <;> rfl⟩
  · split
    · exact (hset e he).1.trans (h.gains e he)
    · exact h.gains e he
  · split
    · exact (hset e he).2
    · exact h.counts e he

/-! ### COMPUTE -/

theorem computeUnit_evolves {s : State} {U : DspUnit} (h : U.Wf C u) :
    Body.Evolves C u U.body (computeUnit C s U).body := by
  obtain ⟨hwf, hch, hcl, hin, _, _⟩ := computeUnit_body (s := s) h
  exact ⟨(computeUnit_same C s U).type, hch, hcl, fun _ ha => .inl (hin ▸ ha), hwf⟩

/-- COMPUTE off a VARPORT leaves the completion flag, and on one it can only raise it (44_ramp_mix.md R299). -/
theorem computeUnit_cb (C : Cfg) (s : State) (U : DspUnit) :
    (computeUnit C s U).cb = U.cb ∨ ∃ v, U.body = .varport v ∧ (computeUnit C s U).cb = true := by
  unfold computeUnit
  split
  case h_12 v hv =>
    dsimp only [computeVarport]
    split
    · exact .inr ⟨v, hv, rfl⟩
    · exact .inl rfl
  all_goals exact .inl rfl

/-- COMPUTE keeps a unit sound. -/
theorem computeUnit_wf {s : State} {U : DspUnit} (h : U.Wf C u) : (computeUnit C s U).Wf C u := by
  obtain ⟨_, _, _, _, _, hout⟩ := computeUnit_body (s := s) h
  refine h.evolve (computeUnit_same C s U) ?_ (fun hcb => ?_) (computeUnit_evolves h)
  · rw [hout, h.out_length, h.nch_eq]
  · rcases computeUnit_cb C s U with he | ⟨v, hv, _⟩
    · exact .inl (he ▸ hcb)
    · exact .inr (by rw [hv]; rfl)

end Sys2Proof.Machine
end

section
/-! PROOFS. Every `NEW.*` whose checks hold builds a sound unit (40_system.md R141): the type-specific state is sound,
and the handles it binds are none of its own output. -/

namespace Sys2Proof.Machine

variable {C : Cfg} {s : State} {u : Nat}

/-! ### Units of `NewCommon` -/

/-- The slots that the operands of a `NEW.*` set: its `X` operands first, then its `F` operands. -/
theorem getD_operandSlots_stream {xs : List XOp} {cs : List Sample} {k : Nat}
    (h : ((xs.map xslot ++ cs.map fslot).getD k blankSlot).mode = .stream) : k < xs.length := by
  by_contra hk
  have hle : (xs.map xslot).length ≤ k := by simpa using hk
  rw [List.getD_append_right _ _ _ _ hle] at h
  by_cases hc : k - (xs.map xslot).length < (cs.map fslot).length
  · rw [List.getD_eq_getElem _ _ hc, List.getElem_map] at h
    cases h
  · rw [List.getD_eq_default _ _ (not_lt.1 hc)] at h
    cases h

/-- A streaming slot of a new unit is one of its stream operands. -/
theorem mem_slotBank_stream {xs : List XOp} {cs : List Sample} {p : Slot}
    (hp : p ∈ slotBank (xs.map xslot ++ cs.map fslot)) (hm : p.mode = .stream) : .stream p.h ∈ xs := by
  have hp := List.mem_of_mem_take hp
  simp only [List.mem_append, List.mem_map] at hp
  rcases hp with (⟨x, hx, rfl⟩ | ⟨c, _, rfl⟩) | hp
  · cases x with
    | const c => cases hm
    | stream a => exact hx
  · cases hm
  · rw [List.eq_of_mem_replicate hp] at hm
    cases hm

/-- A unit made by `NewCommon` is sound: its `X` operands fill the slots of class `P`, its handles `hs` have passed
`BindOK`, and its type-specific state is sound. -/
theorem freshUnit_wf {hs : List (Addr × Nat)} {nch : Nat} {inh : Addr} {slots : List Slot} {body : Body}
    (xs : List XOp) (cs : List Sample) (hslots : slots = xs.map xslot ++ cs.map fslot)
    (hlen : slots.length ≤ 16) (hclass : ∀ k, k < xs.length → slotClass body k = some .param)
    (hbind : ∀ h ∈ hs, bindOk C s u h.1 h.2 = true)
    (hinp : (∃ n, (inh, n) ∈ hs) ∧ readsInput body = true ∨ inh = nullAddr)
    (hstream : ∀ h ∈ streamHandles C xs, h ∈ hs)
    (hextra : ∀ a ∈ extraInputs body, (a, C.bufsize) ∈ hs)
    (hch : body.channels = nch) (hbody : body.Wf C) : (freshUnit C nch inh slots body).Wf C u where
  nch_eq := hch.symm
  out_length := List.length_replicate
  slots := slotBank_length slots
  streams k hk := hclass k (getD_operandSlots_stream
    (by rw [← hslots, ← slotBank_getD hlen]; exact hk))
  no_input hr := hinp.resolve_left fun h => by
    rw [show (freshUnit C nch inh slots body).body = body from rfl, h.2] at hr
    cases hr
  not_own := by
    refine not_own_iff.2 ⟨fun _ => ?_, fun p hp hm => ?_, fun a ha => ?_⟩
    · rcases hinp with ⟨⟨n, hn⟩, _⟩ | rfl
      · exact not_ownOutput_of_bindOk (hbind _ hn)
      · exact not_ownOutput_null u
    · have hx : XOp.stream p.h ∈ xs := mem_slotBank_stream (hslots ▸ hp) hm
      exact not_ownOutput_of_bindOk (hbind _ (hstream (p.h, C.bufsize) (mem_streamHandles.2 ⟨hx, rfl⟩)))
    · exact not_ownOutput_of_bindOk (hbind _ (hextra a ha))
  cb_varport hc := absurd hc Bool.false_ne_true
  body := hbody

/-- A unit that reads `in` and the streams of its slots, built with their handles checked, is sound. -/
theorem freshUnit_wf_of_input {inp : Addr} {n nch : Nat} {slots : List Slot} {body : Body} (xs : List XOp)
    (cs : List Sample) (hbind : ∀ h ∈ (inp, n) :: streamHandles C xs, bindOk C s u h.1 h.2 = true)
    (hbody : body.Wf C) (hch : body.channels = nch)
    (hclass : ∀ k, k < xs.length → slotClass body k = some .param)
    (hslots : slots = xs.map xslot ++ cs.map fslot) (hlen : slots.length ≤ 16 := by simp)
    (hread : readsInput body = true := by rfl) (hextra : extraInputs body = [] := by rfl) :
    (freshUnit C nch inp slots body).Wf C u :=
  freshUnit_wf xs cs hslots hlen hclass hbind (.inl ⟨⟨n, List.mem_cons_self⟩, hread⟩)
    (fun _ => List.mem_cons_of_mem _) (by simp [hextra]) hch hbody

/-- A unit that reads the streams of its slots only, built with their handles checked, is sound. -/
theorem freshUnit_wf_of_source {nch : Nat} {slots : List Slot} {body : Body} (xs : List XOp)
    (cs : List Sample) (hbind : ∀ h ∈ streamHandles C xs, bindOk C s u h.1 h.2 = true)
    (hbody : body.Wf C) (hch : body.channels = nch)
    (hclass : ∀ k, k < xs.length → slotClass body k = some .param)
    (hslots : slots = xs.map xslot ++ cs.map fslot) (hlen : slots.length ≤ 16 := by simp)
    (hextra : extraInputs body = [] := by rfl) : (freshUnit C nch nullAddr slots body).Wf C u :=
  freshUnit_wf xs cs hslots hlen hclass hbind (.inr rfl) (fun _ h => h) (by simp [hextra]) hch hbody

/-! ### Fresh type-specific states -/

/-- A fresh engine of as many taps as ring elements is sound (42_convolution.md R203). -/
theorem freshEngine_wf {imp : List Sample} {n : Nat} (h1 : 1 ≤ n) (hn : n ≤ C.maxtaps)
    (hi : imp.length = n) : (freshEngine imp n).Wf C where
  ring_pos := by simpa [freshEngine] using h1
  ring_le := by simpa [freshEngine] using hn
  imp_length := by simpa [freshEngine] using hi
  wc_lt := by rw [freshEngine, List.length_replicate]; exact h1

/-- `EvenOrder` gives an even number from 2 on, and one tap more fits `MAXTAPS` (42_convolution.md R207). -/
theorem evenOrder_spec (hC : C.Valid) (o : Nat) :
    evenOrder C o % 2 = 0 ∧ 2 ≤ evenOrder C o ∧ evenOrder C o + 1 ≤ C.maxtaps := by
  have h3 := hC.maxtaps_ge
  unfold evenOrder maxOrder
  dsimp only
  split <;> omega

theorem freshEngine_ordered (hC : C.Valid) (o : Nat) {imp : List Sample}
    (hi : imp.length = evenOrder C o + 1) :
    (freshEngine imp (evenOrder C o + 1)).Ordered C (evenOrder C o) := by
  obtain ⟨heven, htwo, hmax⟩ := evenOrder_spec hC o
  exact { freshEngine_wf (Nat.le_add_left 1 _) hmax hi with
    length_eq := List.length_replicate, even := heven, two_le := htwo }

theorem freshTyped_sound (hC : C.Valid) (type : Byte) (order : Word) :
    (freshTyped C type order).eng.Ordered C (freshTyped C type order).order ∧
      (freshTyped C type order).type ≤ 3 :=
  ⟨freshEngine_ordered hC _ List.length_replicate, Nat.min_le_right _ _⟩

theorem freshIrFm_ordered (hC : C.Valid) (order : Word) :
    (freshIrFm C order).eng.Ordered C (freshIrFm C order).order :=
  freshEngine_ordered hC _ List.length_replicate

theorem bandCount_range (hC : C.Valid) (bands : Nat) :
    1 ≤ bandCount C bands ∧ bandCount C bands ≤ C.maxbands := by
  have := hC.maxbands_ge
  unfold bandCount; omega

@[simp] theorem newBsplitBody_bands_length (C : Cfg) (bands : Nat) (mn mx : Sample) (q : XOp) :
    (newBsplitBody C bands mn mx q).bands.length = bandCount C bands := by
  cases q <;> simp [newBsplitBody]

@[simp] theorem initSplit_bounds_length (B : Nat) : (initSplit B).bounds.length = B := by simp [initSplit]

/-- Boundaries whose correction sections are counted down to 0 have the shape of R32. -/
theorem boundsShaped_of_countdown {bs : List Boundary}
    (h : ∀ k (hk : k < bs.length), bs[k].corr.length = bs.length - 1 - k) : boundsShaped bs := by
  induction bs with
  | nil => trivial
  | cons b bs ih =>
    refine ⟨(h 0 (Nat.succ_pos _)).trans (by simp), ih fun k hk => ?_⟩
    have := h (k + 1) (by simpa using hk)
    simp only [List.getElem_cons_succ, List.length_cons] at this
    omega

theorem initSplit_shaped (B : Nat) : boundsShaped (initSplit B).bounds :=
  boundsShaped_of_countdown fun k hk => by simp [initSplit]

theorem multibandCount_range (bands : Nat) : 2 ≤ multibandCount bands ∧ multibandCount bands ≤ 16 := by
  unfold multibandCount; omega

theorem channelCount_range (n : Byte) : 2 ≤ channelCount n ∧ channelCount n ≤ 255 := by
  have := n.isLt
  unfold channelCount; omega

/-- A new MIXER has no entry and at least one output (44_ramp_mix.md R300). -/
theorem newMixer_wf (C : Cfg) (outs : Byte) (n : Nat) : Mixer.Wf C ⟨max outs.toNat 1, n, []⟩ where
  outs_pos := Nat.le_max_right _ _
  outs_le := by have := outs.isLt; show max _ _ ≤ _; omega
  ins_le := Nat.zero_le _
  keys := List.nodup_nil
  gains := by simp
  counts := by simp

/-- A new RESAMPLE: a factor of 0 counts as 1, and on the way up it divides the block
(45_spatial_convert_resample.md R360). -/
theorem newResample_wf (C : Cfg) (dir : Dir) (factor : BitVec 7) (mode : Byte) (rs : List Word)
    (h : dir = .up → C.bufsize % max factor.toNat 1 = 0) :
    Resample.Wf C ⟨dir, max factor.toNat 1, mode.toNat, resampleLin C dir (max factor.toNat 1), rs⟩ where
  factor_pos := Nat.le_max_right _ _
  factor_le := by have := factor.isLt; show max _ _ ≤ _; omega
  mode_le := Nat.le_of_lt_succ mode.isLt
  lin_eq := rfl
  divides := h

end Sys2Proof.Machine
end

section
/-! PROOFS. What each command does to the unit it names, said once (`exec_soundEffect`): it goes beyond `exec_effect`
in naming the unit that is put in the slot, or saying that a new one is sound. -/

namespace Sys2Proof.Machine

open Sys2Proof.Config (cfg)

/-! ### Commands on a live unit -/

/-- `UnitUpdate C s u U i V`: command `i`, whose checks hold in `s`, turns the live unit `U` in slot `u` into `V`. -/
inductive UnitUpdate (C : Cfg) (s : State) (u : Byte) (U : DspUnit) : Instr → DspUnit → Prop where
  | setc (slot : Byte) (v : Sample)
      (hc : slotClass U.body slot.toNat = some .param ∨ slotClass U.body slot.toNat = some .scalar) :
      UnitUpdate C s u U (.setc u slot v) (setConst C slot.toNat v U)
  | sets (slot : Byte) (h : Addr) (hc : slotClass U.body slot.toNat = some .param)
      (hb : bindOk C s u.toNat h C.bufsize = true) :
      UnitUpdate C s u U (.sets u slot h) (setStream slot.toNat h U)
  | compute (hl : handlesLive C s U = true) : UnitUpdate C s u U (.compute u) (computeUnit C s U)
  | reset (f : Freeverb) (hf : U.body = .freeverb f) :
      UnitUpdate C s u U (.reset u) { U with body := .freeverb (clearFreeverb f) }
  | ack : UnitUpdate C s u U (.ack u) { U with cb := false }
  | mixadd (m : Mixer) (key : Word) (h : Addr) (hm : U.body = .mixer m)
      (hb : bindOk C s u.toNat h C.bufsize = true)
      (hroom : hasKey m key = true ∨ m.ins.length < C.maxmixin) :
      UnitUpdate C s u U (.mixadd u key h) { U with body := .mixer (mixRegister m key h) }
  | mixdel (m : Mixer) (key : Word) (hm : U.body = .mixer m) :
      UnitUpdate C s u U (.mixdel u key)
        { U with body := .mixer { m with ins := m.ins.filter fun e => decide (e.key ≠ key) } }
  | mixamp (m : Mixer) (vout : Byte) (key : Word) (gain : Sample) (hm : U.body = .mixer m) :
      UnitUpdate C s u U (.mixamp u vout key gain)
        { U with
          body := .mixer { m with
            ins := m.ins.map fun e =>
              if e.key = key then { e with g := setTarget vout.toNat gain e.g } else e } }
  | seti (slot : Byte) (v : Word) (hc : slotClass U.body slot.toNat = some .integer) :
      UnitUpdate C s u U (.seti u slot v) { U with body := setInteger v U.body }

/-- Every command on a live unit keeps it sound. -/
theorem UnitUpdate.keeps_wf {C : Cfg} {s : State} {u : Byte} {U V : DspUnit} {i : Instr}
    (h : UnitUpdate C s u U i V) (hU : U.Wf C u.toNat) : V.Wf C u.toNat := by
  have hbody := hU.body
  cases h with
  | setc slot v =>
    exact (hU.withSlot (k := slot.toNat) (x := { U.slot slot.toNat with mode := .const, c := v })
      (fun hm => by cases hm) (fun hm => by cases hm)).withBody (onSetC_evolves hbody _ v)
  | sets slot a hc hb => exact hU.withSlot (fun _ => hc) (fun _ => not_ownOutput_of_bindOk hb)
  | compute => exact computeUnit_wf hU
  | reset f hf =>
    rw [hf] at hbody
    exact hU.withBody (hf ▸ clearFreeverb_evolves hbody)
  | ack => exact hU.acked
  | mixadd m key a hm hb hroom =>
    rw [hm] at hbody
    exact hU.withBody (hm ▸ mixRegister_evolves hbody hroom (not_ownOutput_of_bindOk hb))
  | mixdel m key hm =>
    rw [hm] at hbody
    exact hU.withBody (hm ▸ filterIns_evolves hbody _)
  | mixamp m vout key gain hm =>
    rw [hm] at hbody
    exact hU.withBody (hm ▸ mixamp_evolves hbody vout.toNat key gain)
  | seti slot v => exact hU.withBody (setInteger_evolves hbody v)

/-- The completion flag stays, or ACK clears it, or COMPUTE on a VARPORT raises it (60_exceptions.md R390). -/
theorem UnitUpdate.cb {C : Cfg} {s : State} {u : Byte} {U V : DspUnit} {i : Instr}
    (h : UnitUpdate C s u U i V) :
    V.cb = U.cb ∨ (i = .ack u ∧ V.cb = false) ∨
      (i = .compute u ∧ V.cb = true ∧ ∃ v, U.body = .varport v) := by
  cases h with
  | compute =>
    rcases computeUnit_cb C s U with he | ⟨v, hv, hc⟩
    · exact .inl he
    · exact .inr (.inr ⟨rfl, hc, v, hv⟩)
  | ack => exact .inr (.inl ⟨rfl, rfl⟩)
  | setc | sets | reset | mixadd | mixdel | mixamp | seti => exact .inl rfl

/-! ### Every command -/

/-- What command `i` does in state `s`: `Effect` with the unit that is put in the slot. -/
inductive SoundEffect (i : Instr) (s : State) : Result → Prop where
  /-- an error of R371 -/
  | refused (e : Code) (he : e ≠ .ok) : SoundEffect i s (raise e s)
  /-- an answer and no effect on the state -/
  | value (v : Word) : SoundEffect i s (doneWith v s)
  /-- DEL -/
  | release (u : Byte) (hi : i = .del u) : SoundEffect i s (done (dropUnit u.toNat s))
  /-- a command on a live unit -/
  | update (u : Byte) (U V : DspUnit) (hU : liveUnit cfg s u.toNat = some U)
      (hV : UnitUpdate cfg s u U i V) : SoundEffect i s (done (putUnit u.toNat V s))
  /-- a `NEW.*`; only NEW.FREEVERB draws a seed -/
  | build (u : Byte) (V : DspUnit) (s' : State) (hs' : s' = s ∨ s' = drawSeed 9 s)
      (hfree : slotFree cfg s u.toNat = true) (hcb : V.cb = false)
      (hV : i.wellFormed = true → V.Wf cfg u.toNat) : SoundEffect i s (done (putUnit u.toNat V s'))

theorem withLive_soundEffect {i : Instr} {u : Byte} {s : State} {k : DspUnit → Result}
    (h : ∀ U, liveUnit cfg s u.toNat = some U → SoundEffect i s (k U)) :
    SoundEffect i s (withLive cfg u s k) := by
  rcases withLive_cases cfg u s k with he | ⟨U, hU, he⟩
  · rw [he]; exact .refused _ (by decide)
  · rw [he]; exact h U hU

theorem withMixer_soundEffect {i : Instr} {u : Byte} {s : State} {k : DspUnit → Mixer → Result}
    (h : ∀ U m, liveUnit cfg s u.toNat = some U → U.body = .mixer m → SoundEffect i s (k U m)) :
    SoundEffect i s (withMixer cfg u s k) := by
  rcases withMixer_cases cfg u s k with ⟨e, hne, he⟩ | ⟨U, m, hU, hm, he⟩
  · rw [he]; exact .refused _ hne
  · rw [he]; exact h U m hU hm

/-- A `NEW.*` whose unit is sound once its checks hold. -/
theorem newUnit_soundEffect {i : Instr} {u : Byte} {hs : List (Addr × Nat)} {argOk capOk : Bool}
    {nch : Nat} {inh : Addr} {slots : List Slot} {body : Body} {s : State}
    (h : (∀ h ∈ hs, bindOk cfg s u.toNat h.1 h.2 = true) → argOk = true → capOk = true →
      i.wellFormed = true → (freshUnit cfg nch inh slots body).Wf cfg u.toNat) :
    SoundEffect i s (newUnit cfg u hs argOk capOk (freshUnit cfg nch inh slots body) s) := by
  rcases newUnit_cases cfg u hs argOk capOk (freshUnit cfg nch inh slots body) s with
    ⟨e, hne, he⟩ | ⟨hf, hb, ha, hc, he⟩
  · rw [he]; exact .refused _ hne
  · rw [he]; exact .build u _ s (.inl rfl) hf rfl (h hb ha hc)

/-- A conversion unit, of any of the functions of 45_spatial_convert_resample.md R353. -/
theorem newConv_soundEffect {i : Instr} {u : Byte} {inp : Addr} {s : State} {fn : Nat} (cs : List Sample)
    (hfn : fn ≤ 6) (hcs : cs.length ≤ 1) :
    SoundEffect i s (newConvOn cfg fn (cs.map fslot) u inp s) :=
  newUnit_soundEffect fun hb _ _ _ => freshUnit_wf_of_input [] cs hb hfn rfl (by simp) rfl
    (by rw [List.length_map]; omega)

/-- Every command has one of these effects. -/
theorem exec_soundEffect (i : Instr) (s : State) : SoundEffect i s (exec i s) := by
  have hC := cfg_valid
  cases i
  case nop => exact .value 0#32
  case del u => exact withLive_soundEffect fun U hU => .release u rfl
  case setc u slot v =>
    refine withLive_soundEffect fun U hU => ?_
    split
    case isTrue hc => exact .update u U _ hU (.setc slot v hc)
    case isFalse => exact .refused _ (by decide)
  case sets u slot a =>
    refine withLive_soundEffect fun U hU => ?_
    split
    case isTrue => exact .refused _ (by decide)
    case isFalse hc =>
      split
      case isTrue => exact .refused _ (by decide)
      case isFalse hb => exact .update u U _ hU (.sets slot a (not_not.1 hc) (by simpa using hb))
  case compute u =>
    refine withLive_soundEffect fun U hU => ?_
    split
    case isTrue hl => exact .update u U _ hU (.compute hl)
    case isFalse => exact .refused _ (by decide)
  case reset u =>
    refine withLive_soundEffect fun U hU => ?_
    split
    case h_1 f hf => exact .update u U _ hU (.reset f hf)
    case h_2 => exact .refused _ (by decide)
  case getout u => exact withLive_soundEffect fun U hU => .value _
  case rdcsr n =>
    show SoundEffect _ s (rdcsrOn cfg n s)
    unfold rdcsrOn
    split
    · exact .refused _ (by decide)
    · exact .value _
  case ack u => exact withLive_soundEffect fun U hU => .update u U _ hU .ack
  case mixadd u key a =>
    refine withMixer_soundEffect fun U m hU hm => ?_
    split
    case isTrue => exact .refused _ (by decide)
    case isFalse hb =>
      split
      case isTrue => exact .refused _ (by decide)
      case isFalse hfull =>
        refine .update u U _ hU (.mixadd m key a hm (by simpa using hb) ?_)
        by_contra hno
        exact hfull (by simpa using hno)
  case mixdel u key =>
    refine withMixer_soundEffect fun U m hU hm => ?_
    split
    · exact .refused _ (by decide)
    · exact .update u U _ hU (.mixdel m key hm)
  case mixamp u vout key gain =>
    refine withMixer_soundEffect fun U m hU hm => ?_
    split
    · exact .refused _ (by decide)
    · split
      · exact .refused _ (by decide)
      · exact .update u U _ hU (.mixamp m vout key gain hm)
  case seti u slot v =>
    refine withLive_soundEffect fun U hU => ?_
    split
    case isTrue hc => exact .update u U _ hU (.seti slot v hc)
    case isFalse => exact .refused _ (by decide)
  case newBsplit u bands inp mn mx q =>
    exact newUnit_soundEffect fun hb _ _ _ => freshUnit_wf_of_input [q] [] hb
      (by simpa [Body.Wf] using bandCount_range hC bands.toNat) (by simp [Body.channels])
      (by simp [slotClass]) rfl
  case newFourband u inp freq1 freq2 freq3 =>
    exact newUnit_soundEffect fun hb _ _ _ => freshUnit_wf_of_input [freq1, freq2, freq3] [] hb
      ⟨initSplit_bounds_length 3, initSplit_shaped 3⟩ rfl (fun k hk => if_pos hk) rfl
  case newMultiband u bands inp =>
    obtain ⟨hlo, hhi⟩ := multibandCount_range bands.toNat
    refine newUnit_soundEffect fun hb _ _ _ => freshUnit_wf_of_input []
      ((List.range (multibandCount bands.toNat - 1)).map fun k => mbFreq cfg k (multibandCount bands.toNat))
      hb ⟨?_, ?_, initSplit_shaped _⟩ ?_ (by simp) (by simp) ?_
    · rw [initSplit_bounds_length]; omega
    · rw [initSplit_bounds_length]; omega
    · show (initSplit _).bounds.length + 1 = _
      rw [initSplit_bounds_length]; omega
    · simp only [List.length_map, List.length_range]; omega
  case newConvolve u inp taps =>
    exact newUnit_soundEffect fun hb ha hc _ => freshUnit_wf_of_input [] [] hb
      (freshEngine_wf (of_decide_eq_true ha) (of_decide_eq_true hc) rfl) rfl (by simp) rfl
  case newIrwinsinc u type inp freq bw order =>
    exact newUnit_soundEffect fun hb _ _ _ => freshUnit_wf_of_input [freq, bw] [] hb
      (freshTyped_sound hC type order) rfl (fun k hk => if_pos hk) rfl
  case newIraverage u inp order =>
    exact newUnit_soundEffect fun hb _ _ _ => freshUnit_wf_of_input [] [] hb
      (freshEngine_ordered hC _ (averageImpulse_length _ _)) rfl (by simp) rfl
  case newIrpulse u type inp freq bw order =>
    exact newUnit_soundEffect fun hb _ _ _ => freshUnit_wf_of_input [freq, bw] [] hb
      (freshTyped_sound hC type order) rfl (fun k hk => if_pos hk) rfl
  case newIrfm u inp carrier ratio index order =>
    exact newUnit_soundEffect fun hb _ _ _ => freshUnit_wf_of_input [carrier, ratio, index] [] hb
      (freshIrFm_ordered hC order) rfl (fun k hk => if_pos hk) rfl
  case newFreeverb u inp size damp mix =>
    show SoundEffect _ s (newFreeverbOn cfg u inp size damp mix s)
    rcases newFreeverbOn_cases cfg u inp size damp mix s with ⟨e, hne, he⟩ | ⟨hf, hb, hfit, he⟩
    · rw [he]; exact .refused _ hne
    · rw [he]
      exact .build u _ _ (.inr rfl) hf rfl fun _ => freshUnit_wf_of_input [size, damp, mix] [] hb
        (freshFreeverb_wf hfit) rfl (fun k hk => if_pos hk) rfl
  case newSig u value =>
    exact newUnit_soundEffect fun hb _ _ _ => freshUnit_wf_of_source [value] [] hb trivial rfl
      (by simp [slotClass]) rfl
  case newSigto u value time init =>
    exact newUnit_soundEffect fun hb _ _ _ => freshUnit_wf_of_source [value] [time] hb
      (Nat.le_refl (rampLen cfg time)) rfl (by simp [slotClass]) rfl
  case newVarport u value time init =>
    exact newUnit_soundEffect fun hb _ _ _ => freshUnit_wf_of_source [] [value, time] hb
      (Eq.refl (rampLen cfg time + cfg.vpExtra)) rfl (by simp) rfl
  case newMixer u outs time =>
    exact newUnit_soundEffect fun hb _ _ _ => freshUnit_wf_of_source [] [time] hb
      (newMixer_wf cfg outs _) rfl (by simp) rfl
  case newScale u inp inmin inmax outmin outmax exp =>
    exact newUnit_soundEffect fun hb _ _ _ => freshUnit_wf_of_input [inmin, inmax, outmin, outmax] [exp]
      hb trivial rfl (fun k hk => if_pos hk) rfl
  case newResample u dir factor mode inp =>
    exact newUnit_soundEffect fun hb ha _ _ => freshUnit_wf_of_input [] [] hb
      (newResample_wf cfg dir factor mode _ fun hd => by subst hd; exact of_decide_eq_true ha)
      rfl (by simp) rfl
  case newPan u chnls lin inp pan =>
    exact newUnit_soundEffect fun hb _ _ _ => freshUnit_wf_of_input [pan] [] hb
      (channelCount_range chnls) rfl (by simp [slotClass]) rfl
  case newSwitch u chnls lin inp voice =>
    exact newUnit_soundEffect fun hb _ _ _ => freshUnit_wf_of_input [voice] [] hb
      (channelCount_range chnls) rfl (by simp [slotClass]) rfl
  case newSelector u nin lin voice inputs =>
    refine newUnit_soundEffect fun hb _ _ hw => freshUnit_wf [voice] [] rfl (by simp)
      (by simp [slotClass]) hb (.inr rfl) (fun _ => List.mem_append_left _) ?_ rfl ?_
    · exact fun a ha => List.mem_append_right _ (List.mem_map_of_mem ha)
    · have hn : inputs.length = max nin.toNat 2 := by simpa [Instr.wellFormed, selectorInputs] using hw
      have hlt := nin.isLt
      show 2 ≤ inputs.length ∧ inputs.length ≤ 255
      omega
  case newDbtoa u inp => exact newConv_soundEffect [] (by decide) (by decide)
  case newAtodb u inp => exact newConv_soundEffect [] (by decide) (by decide)
  case newMtof u inp => exact newConv_soundEffect [] (by decide) (by decide)
  case newFtom u inp => exact newConv_soundEffect [] (by decide) (by decide)
  case newMtot u inp ck => exact newConv_soundEffect [ck] (by decide) (by simp)
  case newCentstotranspo u inp => exact newConv_soundEffect [] (by decide) (by decide)
  case newTranspotocents u inp => exact newConv_soundEffect [] (by decide) (by decide)

end Sys2Proof.Machine
end

section
/-! PROOFS. A packet decodes to a well-formed command only (30_encoding.md R94, R95). -/

namespace Sys2Proof

section words
variable {ws : List Word}

/-! A command of so many operand words is well formed when it is so for any such words. -/

theorem words0_wellFormed {i : Instr} (h : i.wellFormed = true) :
    (words0 i ws).all Instr.wellFormed = true := by
  match ws with
  | [] => exact h
  | _ :: _ => rfl

theorem words1_wellFormed {k : Word → Instr} (h : ∀ a, (k a).wellFormed = true) :
    (words1 k ws).all Instr.wellFormed = true := by
  match ws with
  | [a] => exact h a
  | [] | _ :: _ :: _ => rfl

theorem words2_wellFormed {k : Word → Word → Instr} (h : ∀ a b, (k a b).wellFormed = true) :
    (words2 k ws).all Instr.wellFormed = true := by
  match ws with
  | [a, b] => exact h a b
  | [] | [_] | _ :: _ :: _ :: _ => rfl

theorem words3_wellFormed {k : Word → Word → Word → Instr} (h : ∀ a b c, (k a b c).wellFormed = true) :
    (words3 k ws).all Instr.wellFormed = true := by
  match ws with
  | [a, b, c] => exact h a b c
  | [] | [_] | [_, _] | _ :: _ :: _ :: _ :: _ => rfl

theorem words4_wellFormed {k : Word → Word → Word → Word → Instr}
    (h : ∀ a b c d, (k a b c d).wellFormed = true) : (words4 k ws).all Instr.wellFormed = true := by
  match ws with
  | [a, b, c, d] => exact h a b c d
  | [] | [_] | [_, _] | [_, _, _] | _ :: _ :: _ :: _ :: _ :: _ => rfl

theorem words5_wellFormed {k : Word → Word → Word → Word → Word → Instr}
    (h : ∀ a b c d e, (k a b c d e).wellFormed = true) : (words5 k ws).all Instr.wellFormed = true := by
  match ws with
  | [a, b, c, d, e] => exact h a b c d e
  | [] | [_] | [_, _] | [_, _, _] | [_, _, _, _] | _ :: _ :: _ :: _ :: _ :: _ :: _ => rfl

theorem words6_wellFormed {k : Word → Word → Word → Word → Word → Word → Instr}
    (h : ∀ a b c d e f, (k a b c d e f).wellFormed = true) : (words6 k ws).all Instr.wellFormed = true := by
  match ws with
  | [a, b, c, d, e, f] => exact h a b c d e f
  | [] | [_] | [_, _] | [_, _, _] | [_, _, _, _] | [_, _, _, _, _]
  | _ :: _ :: _ :: _ :: _ :: _ :: _ :: _ => rfl

end words

/-- The taps of a NEW.CONVOLVE number what `W2` says, and the inputs of a NEW.SELECTOR what `arg` says; no other
command has a length to check. -/
theorem assemble_wellFormed {h : Word} {ws : List Word} (hl : operandCount h ws = some ws.length) :
    (assemble h ws).all Instr.wellFormed = true := by
  unfold assemble
  dsimp only
  split
  case h_17 hop =>
    match ws with
    | [] | [_] => rfl
    | w1 :: n :: taps =>
      have hlen : 2 + n.toNat = taps.length + 2 := by simpa [operandCount, hop] using hl
      have hn := n.isLt
      show decide (taps.length < 2 ^ 32) = true
      simp only [decide_eq_true_eq]
      omega
  case h_31 hop =>
    match ws with
    | [] => rfl
    | w1 :: inputs =>
      have hlen : 1 + selectorInputs (argOf h) = inputs.length + 1 := by simpa [operandCount, hop] using hl
      show (inputs.length == selectorInputs (argOf h)) = true
      simp only [beq_iff_eq]
      omega
  case h_32 =>
    split
    case h_1 | h_2 | h_3 | h_4 | h_6 | h_7 => exact words1_wellFormed fun _ => rfl
    case h_5 => exact words2_wellFormed fun _ _ => rfl
    case h_8 => rfl
  case h_33 => rfl
  case h_1 | h_2 | h_5 | h_6 | h_7 | h_8 | h_9 => exact words0_wellFormed rfl
  case h_3 | h_4 | h_11 | h_13 | h_16 | h_23 | h_26 | h_28 => exact words1_wellFormed fun _ => rfl
  case h_10 | h_12 | h_19 | h_29 | h_30 => exact words2_wellFormed fun _ _ => rfl
  case h_24 | h_25 => exact words3_wellFormed fun _ _ _ => rfl
  case h_14 | h_15 | h_18 | h_20 | h_22 => exact words4_wellFormed fun _ _ _ _ => rfl
  case h_21 => exact words5_wellFormed fun _ _ _ _ _ => rfl
  case h_27 => exact words6_wellFormed fun _ _ _ _ _ _ => rfl

/-- A packet that decodes to a command has the length of R94, and the command is what its words assemble to. -/
theorem decode_command {p : Packet} {i : Instr} (h : decode p = .command i) :
    operandCount p.header p.operands = some p.operands.length ∧ assemble p.header p.operands = some i := by
  unfold decode at h
  split at h
  · cases h
  · split_ifs at h with hfn hres hlen
    split at h
    case h_1 j hj =>
      cases h
      exact ⟨not_not.1 hlen, hj⟩
    case h_2 => cases h

/-- What a packet decodes to is well formed. -/
theorem decode_wellFormed {p : Packet} {i : Instr} (h : decode p = .command i) : i.wellFormed = true := by
  obtain ⟨hlen, hi⟩ := decode_command h
  have hall := assemble_wellFormed hlen
  rwa [hi] at hall

end Sys2Proof
end

section
/-! PROOFS. The statements about the state: its invariant, the seed counters, the completion flags and the slot table
(10_state.md). -/

namespace Sys2Proof.Machine

open Sys2Proof.Config (cfg)

/-! ### The invariant (10_state.md R42) -/

/-- Every well-formed command keeps a sound state sound. -/
theorem exec_keeps_inv {i : Instr} {s t : State} (h : State.Inv cfg s) (hi : i.wellFormed = true)
    (ht : exec i s = .next t) : State.Inv cfg t := by
  have he : SoundEffect i s (.next t) := ht ▸ exec_soundEffect i s
  cases he with
  | refused e hne => exact h.erred hne rfl
  | value v => exact h.answer _ _
  | release u => exact (h.dropUnit _).answer _ _
  | update u U V hU hV =>
    exact (h.putUnit (lt_of_liveUnit hU) (hV.keeps_wf (h.liveUnit_wf hU))).answer _ _
  | build u V s' hs' hfree _ hV =>
    have h' : State.Inv cfg s' := by
      rcases hs' with rfl | rfl
      · exact h
      · exact h.drawSeed 9
    exact (h'.putUnit (slotFree_iff.1 hfree).1 (hV hi)).answer _ _

/-- An access of the host keeps a sound state sound (20_memory.md R68). -/
theorem hostWriteOn_keeps_inv {s t : State} (h : State.Inv cfg s) {a : Addr} {w : Word}
    (ht : hostWriteOn cfg a w s = .next t) : State.Inv cfg t := by
  unfold hostWriteOn at ht
  split at ht
  case isTrue ha =>
    cases ht
    exact (h.putHostElem cfg_valid w ha.2.1 ha.2.2).congr rfl rfl rfl rfl rfl
  case isFalse =>
    cases ht
    exact h.congr rfl rfl rfl rfl rfl

theorem hostReadOn_keeps_inv {s t : State} (h : State.Inv cfg s) {a : Addr}
    (ht : hostReadOn cfg a s = .next t) : State.Inv cfg t := by
  unfold hostReadOn at ht
  split at ht <;> cases ht <;> exact h.congr rfl rfl rfl rfl rfl

theorem stepPacket_keeps_inv {s t : State} (h : State.Inv cfg s) {p : Packet}
    (ht : stepPacket p s = .next t) : State.Inv cfg t := by
  unfold stepPacket at ht
  split at ht
  case h_1 i hi => exact exec_keeps_inv h (decode_wellFormed hi) ht
  case h_2 => exact h.erred (by decide) (raise_next.1 ht)
  case h_3 => exact h.erred (by decide) (raise_next.1 ht)

theorem hardReset_inv (s : State) : State.Inv cfg (hardReset s) := inv_of_blank rfl rfl rfl rfl

theorem stepMove_keeps_inv {s t : State} (h : State.Inv cfg s) {m : HostMove}
    (ht : stepMove m s = .next t) : State.Inv cfg t := by
  cases m with
  | packet p => exact stepPacket_keeps_inv h ht
  | write a w => exact hostWriteOn_keeps_inv h ht
  | read a => exact hostReadOn_keeps_inv h ht
  | reset => cases ht; exact hardReset_inv s

/-- Settles O17: the moves of the host one by one; a packet runs a well-formed command, and `exec_soundEffect` says
what that does to the one unit it names. -/
theorem everyStepKeepsInvariant : Obligations.EveryStepKeepsInvariant := by
  unfold Obligations.EveryStepKeepsInvariant
  intro s t h ht
  unfold step at ht
  split at ht
  case h_1 => cases ht; exact h
  case h_2 m rest _ => exact stepMove_keeps_inv (s := { s with input := rest }) (h.congr rfl rfl rfl rfl rfl) ht

/-- Settles O16: the state after reset is blank. -/
theorem resetMeetsInvariant : Obligations.ResetMeetsInvariant :=
  inv_of_blank rfl rfl rfl rfl

/-! ### The seed counters (10_state.md R27) -/

/-- Settles O19, by the kinds of effect a command can have. -/
theorem onlyFreeverbDrawsASeed : Obligations.OnlyFreeverbDrawsASeed := by
  unfold Obligations.OnlyFreeverbDrawsASeed
  intro i s t ht
  have he : Effect i s (.next t) := ht ▸ exec_effect i s
  cases he with
  | refused | value | release | update | build => exact .inl rfl
  | seeded u inp size damp mix V hi =>
    refine .inr ⟨⟨u, inp, size, damp, mix, hi⟩, rfl, fun k hk _ => ?_⟩
    exact seedCount_drawSeed s (by decide) (by decide) hk

/-! ### The interrupt line (10_state.md R26, R28) -/

/-- In a sound state a unit is pending when it is live with its flag set. -/
theorem mem_pendingUnits {C : Cfg} {s : State} (h : State.Inv C s) {u : Nat} :
    u ∈ pendingUnits s ↔ ∃ U, liveUnit C s u = some U ∧ U.cb = true := by
  simp [pendingUnits, h.liveUnit_iff_mem]

/-- The line is high when some unit is pending. -/
theorem irqLine_iff {s : State} : irqLine s = true ↔ ∃ u, u ∈ pendingUnits s := by
  simp [irqLine, pendingUnits]

theorem cbFirst_of_low {s : State} (h : irqLine s = false) : cbFirst s = 0xFFFFFFFF#32 := by
  have hnone : pendingUnits s = [] := List.eq_nil_iff_forall_not_mem.2 fun u hu =>
    absurd (irqLine_iff.2 ⟨u, hu⟩) (by simp [h])
  rw [cbFirst, hnone]
  rfl

/-- CBFIRST is the least pending unit. -/
theorem cbFirst_of_least {s : State} {u : Nat} (hu : u ∈ pendingUnits s)
    (hleast : ∀ v ∈ pendingUnits s, u ≤ v) : cbFirst s = BitVec.ofNat 32 u := by
  rw [cbFirst, List.min?_eq_some_iff.2 ⟨hu, hleast⟩]

/-- Settles O20: the line and CBFIRST look at the pending units, which in a sound state are the live ones whose flag
is set. -/
theorem interruptLineShowsCompletionFlags : Obligations.InterruptLineShowsCompletionFlags := by
  unfold Obligations.InterruptLineShowsCompletionFlags
  intro s h
  refine ⟨?_, rfl, fun hlow => congrArg some (cbFirst_of_low hlow), fun u U hU hcb hleast => ?_⟩
  · simp only [irqLine_iff, mem_pendingUnits h]
  · refine congrArg some (cbFirst_of_least ((mem_pendingUnits h).2 ⟨U, hU, hcb⟩) fun v hv => ?_)
    obtain ⟨V, hV, hVcb⟩ := (mem_pendingUnits h).1 hv
    by_contra hlt
    exact absurd (hleast v V (not_le.1 hlt) hV) (by simp [hVcb])

/-! ### The completion flags (60_exceptions.md R390) -/

/-- Unit `u` is live and its completion flag is set. -/
def Pending (s : State) (u : Nat) : Prop := ∃ U, liveUnit cfg s u = some U ∧ U.cb = true

/-- A unit put in a slot is pending by its own flag; the other slots are pending as before. -/
theorem pending_putUnit {s : State} {u w : Nat} {V : DspUnit} (hu : u < cfg.nunits) :
    Pending (putUnit u V s) w ↔ if w = u then V.cb = true else Pending s w := by
  unfold Pending
  rw [liveUnit_putUnit, if_pos hu]
  split <;> simp

theorem pending_dropUnit {s : State} {u w : Nat} :
    Pending (dropUnit u s) w ↔ w ≠ u ∧ Pending s w := by
  unfold Pending
  rw [liveUnit_dropUnit]
  split <;> simp [*]

theorem pending_congr {s t : State} (h : t.units = s.units) (w : Nat) : Pending t w ↔ Pending s w := by
  unfold Pending liveUnit
  rw [h]

theorem pending_of_liveUnit {s : State} {u : Nat} {U : DspUnit} (h : liveUnit cfg s u = some U) :
    Pending s u ↔ U.cb = true := by
  simp [Pending, h]

/-- After a command a slot is pending as before, or COMPUTE raised the flag of that VARPORT, or ACK or DEL of that
unit cleared it. -/
theorem exec_pending {i : Instr} {s t : State} (ht : exec i s = .next t) (w : Nat) :
    (Pending t w ↔ Pending s w) ∨
      (Pending t w ∧ ∃ u U v, i = .compute u ∧ u.toNat = w ∧ liveUnit cfg s w = some U ∧
        U.body = .varport v) ∨
      (¬ Pending t w ∧ ∃ u, u.toNat = w ∧ (i = .ack u ∨ i = .del u)) := by
  have he : SoundEffect i s (.next t) := ht ▸ exec_soundEffect i s
  cases he with
  | refused | value => exact .inl (pending_congr rfl w)
  | release u hi =>
    have hdrop := pending_dropUnit (s := s) (u := u.toNat) (w := w)
    by_cases hw : w = u.toNat
    · exact .inr (.inr ⟨fun hp => (hdrop.1 hp).1 hw, u, hw.symm, .inr hi⟩)
    · exact .inl (hdrop.trans (and_iff_right hw))
  | update u U V hU hV =>
    have hput := pending_putUnit (s := s) (w := w) (V := V) (lt_of_liveUnit hU)
    by_cases hw : w = u.toNat
    · subst hw
      rw [if_pos rfl] at hput
      rcases hV.cb with hsame | ⟨hi, hcb⟩ | ⟨hi, hcb, v, hv⟩
      · exact .inl (hput.trans (by rw [hsame, pending_of_liveUnit hU]))
      · exact .inr (.inr ⟨fun hp => absurd (hput.1 hp) (by simp [hcb]), u, rfl, .inl hi⟩)
      · exact .inr (.inl ⟨hput.2 hcb, u, U, v, hi, rfl, hU, hv⟩)
    · rw [if_neg hw] at hput
      exact .inl hput
  | build u V s' hs' hfree hcb =>
    obtain ⟨hu, hnone⟩ := slotFree_iff.1 hfree
    have hput := pending_putUnit (s := s') (w := w) (V := V) hu
    have hold : Pending s' w ↔ Pending s w := pending_congr (by rcases hs' with rfl | rfl <;> rfl) w
    refine .inl (hput.trans ?_)
    split
    case isTrue hw => subst hw; simp [hcb, Pending, hnone]
    case isFalse => exact hold

/-- Settles O21, from what a command can do to the flag of one slot. -/
theorem completionFlagChanges : Obligations.CompletionFlagChanges := by
  unfold Obligations.CompletionFlagChanges
  intro i s t ht
  constructor
  · intro u V hV hcb
    have hp : Pending t u := ⟨V, hV, hcb⟩
    rcases exec_pending ht u with hsame | ⟨_, w, U, v, hi, hw, hU, hv⟩ | ⟨hno, _⟩
    · exact .inl (hsame.1 hp)
    · exact .inr ⟨w, U, v, hi, hw, hU, hv⟩
    · exact absurd hp hno
  · intro u U hU hcb
    have hp : Pending s u := ⟨U, hU, hcb⟩
    rcases exec_pending ht u with hsame | ⟨hyes, _⟩ | ⟨_, w, hw, hi⟩
    · exact .inl (hsame.2 hp)
    · exact .inl hyes
    · exact .inr ⟨w, hw, hi⟩

/-! ### The slot table (10_state.md R25) -/

theorem slotNumber_lt_two {k : Nat} : k < 2 ↔ k = 0 ∨ k = 1 := by omega

theorem slotNumber_lt_three {k : Nat} : k < 3 ↔ k = 0 ∨ k = 1 ∨ k = 2 := by omega

theorem slotNumber_lt_four {k : Nat} : k < 4 ↔ k = 0 ∨ k = 1 ∨ k = 2 ∨ k = 3 := by omega

/-- Settles O12, type by type: the ranges of slot numbers written out. -/
theorem slotTable : Obligations.SlotTable := by
  unfold Obligations.SlotTable
  intro b k
  cases b
  case bsplit | sig | pan | switch | selector => rfl
  case multiband | convolve | iraverage | resample | sigto | mixer => rfl
  case fourband | irfm | freeverb => simp only [slotClass, slotNumber_lt_three]
  case irwinsinc | irpulse | varport => simp only [slotClass, slotNumber_lt_two]
  case scale => simp only [slotClass, slotNumber_lt_four]
  case conv c => simp only [slotClass, ite_and]

end Sys2Proof.Machine
end

section
/-! PROOFS. The statements about buffer space (20_memory.md): host accesses, the liveness check of COMPUTE, what a
command may write, and the handles of a `NEW.*`. -/

namespace Sys2Proof.Machine

open Sys2Proof.Config (cfg)

/-! ### Host accesses (20_memory.md R68) -/

/-- A pending move is taken from the list. -/
theorem step_of_input {s : State} {m : HostMove} {rest : List HostMove} (h : s.input = m :: rest) :
    step s = stepMove m { s with input := rest } := by
  unfold step
  rw [h]

/-- An element of a host buffer, by its index. -/
theorem elemAt?_of_host {C : Cfg} {s : State} {a : Addr} (h : kindOf a = 1) (i : Nat) :
    elemAt? C s a i =
      if indexOf a < C.nhostbuf ∧ offsetOf a + i < C.hblen then
        some (hostElem C s (indexOf a) (offsetOf a + i))
      else none := by
  simp only [elemAt?, h]

/-- An element that is none of a host buffer is the same whatever the host buffers hold. -/
theorem elemAt?_of_not_host {C : Cfg} {s t : State} {a : Addr} (h : kindOf a ≠ 1) (hu : t.units = s.units)
    (i : Nat) : elemAt? C t a i = elemAt? C s a i := by
  unfold elemAt? liveUnit
  rw [hu]
  split
  case h_1 h1 => exact absurd h1 h
  case h_2 | h_3 => rfl

/-- The element the host wrote holds the written word. -/
theorem elemAt?_putHostElem_self {C : Cfg} {a : Addr} (hk : kindOf a = 1) (hi : indexOf a < C.nhostbuf)
    (ho : offsetOf a < C.hblen) (w : Sample) (s : State) :
    elemAt? C (putHostElem C (indexOf a) (offsetOf a) w s) a 0 = some w := by
  rw [elemAt?_of_host hk, if_pos ⟨hi, ho⟩, Nat.add_zero, hostElem_putHostElem_self]

/-- A host write changes no other element. -/
theorem elemAt?_putHostElem_of_ne {C : Cfg} (hC : C.hblen ≤ 2 ^ 22) {h k : Nat} (hk : k < 2 ^ 22) {b : Addr}
    {j : Nat} (hne : ¬ (kindOf b = 1 ∧ indexOf b = h ∧ offsetOf b + j = k)) (w : Sample) (s : State) :
    elemAt? C (putHostElem C h k w s) b j = elemAt? C s b j := by
  by_cases hb : kindOf b = 1
  · rw [elemAt?_of_host hb, elemAt?_of_host hb]
    by_cases hin : indexOf b < C.nhostbuf ∧ offsetOf b + j < C.hblen
    · have hkey : addrNum 1 (indexOf b) (offsetOf b + j) ≠ addrNum 1 h k := fun he =>
        hne ⟨hb, (addrNum_inj (lt_of_lt_of_le hin.2 hC) hk).1 he⟩
      rw [if_pos hin, if_pos hin, hostElem_putHostElem_of_ne C w s hkey]
    · rw [if_neg hin, if_neg hin]
  · exact elemAt?_of_not_host hb (putHostElem_units C h k w s) j

/-- In a sound state every element of a region exists. -/
theorem State.Inv.elemAt?_of_inRegion {C : Cfg} {s : State} (h : State.Inv C s) {a : Addr} {n i : Nat}
    (ha : inRegion C s a n = true) (hi : i < n) : ∃ w, elemAt? C s a i = some w :=
  Option.isSome_iff_exists.1 (elemAt?_isSome ha (fun _ hU => (h.liveUnit_wf hU).out_length) hi)

/-- Settles O9: a write goes to the one element `putHostElem` sets, a read finds an element where `InRegion` holds. -/
theorem hostPortAccesses : Obligations.HostPortAccesses := by
  unfold Obligations.HostPortAccesses
  intro s rest hs
  constructor
  · intro a w hin
    have hstep : step s = hostWriteOn cfg a w { s with input := rest } := step_of_input hin
    split
    case isTrue ha =>
      obtain ⟨hk, hi, ho⟩ := ha
      refine ⟨(putHostElem cfg (indexOf a) (offsetOf a) w s).hb, ?_, elemAt?_putHostElem_self hk hi ho w s,
        fun b j hne => elemAt?_putHostElem_of_ne cfg_valid.hblen_le (offsetOf_lt a) hne w s⟩
      rw [hstep, hostWriteOn, if_pos ⟨hk, hi, ho⟩]
      rfl
    case isFalse ha => rw [hstep, hostWriteOn, if_neg ha]
  · intro a hin
    have hstep : step s = hostReadOn cfg a { s with input := rest } := step_of_input hin
    have hregion : inRegion cfg { s with input := rest } a 1 = inRegion cfg s a 1 := rfl
    split
    case isTrue ha =>
      obtain ⟨w, hw⟩ := hs.elemAt?_of_inRegion ha Nat.zero_lt_one
      have hvalue : elemAt cfg { s with input := rest } a 0 = w := elemAt_of_some hw
      exact ⟨w, hw, by rw [hstep, hostReadOn, if_pos (hregion.trans ha), hvalue]⟩
    case isFalse ha => rw [hstep, hostReadOn, hregion, if_neg ha]

/-! ### The liveness check of COMPUTE (20_memory.md R76) -/

/-- The slots by number are the slots of the list. -/
theorem exists_slot_iff {U : DspUnit} {P : Slot → Prop} :
    (∃ k, k < U.p.length ∧ P (U.slot k)) ↔ ∃ p ∈ U.p, P p := by
  constructor
  · rintro ⟨k, hk, hP⟩
    rw [DspUnit.slot, List.getD_eq_getElem _ _ hk] at hP
    exact ⟨_, List.getElem_mem hk, hP⟩
  · rintro ⟨p, hp, hP⟩
    obtain ⟨k, hk, rfl⟩ := List.mem_iff_getElem.1 hp
    exact ⟨k, hk, by rwa [DspUnit.slot, List.getD_eq_getElem _ _ hk]⟩

/-- The handles a COMPUTE reads, with the streamed slots by number. -/
theorem mem_readHandles_iff_slot {C : Cfg} {U : DspUnit} {a : Addr} {n : Nat} :
    (a, n) ∈ readHandles C U ↔
      (readsInput U.body = true ∧ a = U.inp ∧ n = inputLength C U.body) ∨
      (∃ k, k < U.p.length ∧ (U.slot k).mode = .stream ∧ a = (U.slot k).h ∧ n = C.bufsize) ∨
      (a ∈ extraInputs U.body ∧ n = C.bufsize) := by
  rw [mem_readHandles, exists_slot_iff (P := fun p => p.mode = .stream ∧ a = p.h ∧ n = C.bufsize)]
  simp

/-- COMPUTE on a live unit with a dead handle (40_system.md R135). -/
theorem exec_compute_of_dangling {u : Byte} {s : State} {U : DspUnit} (hU : liveUnit cfg s u.toNat = some U)
    (hl : handlesLive cfg s U ≠ true) : exec (.compute u) s = raise .dangling s := by
  show computeOn cfg u s = _
  rw [computeOn, withLive_some hU, if_neg hl]

/-- Settles O15: the handles of the check are those of `readHandles`. -/
theorem livenessCheckPrecedesCompute : Obligations.LivenessCheckPrecedesCompute := by
  unfold Obligations.LivenessCheckPrecedesCompute
  intro u s U hU
  simp only [← mem_readHandles_iff_slot]
  constructor
  · rintro ⟨a, n, hread, hdead⟩
    have hl : handlesLive cfg s U ≠ true := fun hl => by simpa [hdead] using handlesLive_iff.1 hl _ hread
    rw [exec_compute_of_dangling hU hl]
    exact erred_raise .dangling s
  · intro hlive
    exact ⟨_, computes_of_ready ⟨hU, handlesLive_iff.2 fun x hx => hlive x.1 x.2 hx⟩⟩

/-! ### What a command may write (20_memory.md R67, R71, R73) -/

/-- A command leaves the host buffers, the moves to come and every unit slot but the one it names. -/
theorem exec_frame {i : Instr} {s t : State} (ht : exec i s = .next t) :
    t.hb = s.hb ∧ t.epoch = s.epoch ∧ t.input = s.input ∧
      ∀ v, (∀ u, unitField i = some u → v ≠ u.toNat) → tableGet t.units v = tableGet s.units v := by
  have he : Effect i s (.next t) := ht ▸ exec_effect i s
  cases he with
  | refused | value => exact ⟨rfl, rfl, rfl, fun _ _ => rfl⟩
  | release u U hi =>
    subst hi
    exact ⟨rfl, rfl, rfl, fun v hv => tableGet_tableErase_of_ne _ (hv u rfl)⟩
  | update u U V hi | build u V hi =>
    exact ⟨rfl, rfl, rfl, fun v hv => tableGet_tableSet_of_ne _ _ (hv u hi)⟩
  | seeded u inp size damp mix V hi =>
    subst hi
    exact ⟨rfl, rfl, rfl, fun v hv => tableGet_tableSet_of_ne _ _ (hv u rfl)⟩

theorem typeCode_onSetC (C : Cfg) (k : Nat) (v : Sample) (b : Body) :
    typeCode (onSetC C k v b) = typeCode b := by
  unfold onSetC
  split <;> rfl

theorem typeCode_setInteger (v : Word) (b : Body) : typeCode (setInteger v b) = typeCode b := by
  unfold setInteger
  split <;> rfl

/-- A command on a live unit other than COMPUTE leaves its output, its channels and its type. -/
theorem UnitUpdate.keeps_output {C : Cfg} {s : State} {u : Byte} {U V : DspUnit} {i : Instr}
    (h : UnitUpdate C s u U i V) (hi : i ≠ .compute u) :
    V.out = U.out ∧ V.nch = U.nch ∧ typeCode V.body = typeCode U.body := by
  cases h with
  | compute => exact absurd rfl hi
  | setc slot v => exact ⟨rfl, rfl, typeCode_onSetC C slot.toNat v U.body⟩
  | seti slot v => exact ⟨rfl, rfl, typeCode_setInteger v U.body⟩
  | sets | ack => exact ⟨rfl, rfl, rfl⟩
  | reset _ hb | mixadd _ _ _ hb | mixdel _ _ hb | mixamp _ _ _ _ hb => exact ⟨rfl, rfl, by rw [hb]; rfl⟩

/-- A live unit that is neither computed nor deleted keeps its output, its channels and its type. -/
theorem exec_keeps_output {i : Instr} {s t : State} (ht : exec i s = .next t) {v : Nat} {V : DspUnit}
    (hV : liveUnit cfg s v = some V) (hi : ∀ u, i = .compute u ∨ i = .del u → v ≠ u.toNat) :
    ∃ W, liveUnit cfg t v = some W ∧ W.out = V.out ∧ W.nch = V.nch ∧ typeCode W.body = typeCode V.body := by
  have he : SoundEffect i s (.next t) := ht ▸ exec_soundEffect i s
  cases he with
  | refused | value => exact ⟨V, hV, rfl, rfl, rfl⟩
  | release u hdel =>
    exact ⟨V, by simp [liveUnit_dropUnit, hi u (.inr hdel), hV], rfl, rfl, rfl⟩
  | update u U U' hU hupd =>
    by_cases hv : v = u.toNat
    · subst hv
      obtain rfl : U = V := Option.some.inj (hU.symm.trans hV)
      exact ⟨U', liveUnit_putUnit_self _ _ (lt_of_liveUnit hU),
        hupd.keeps_output fun hc => hi u (.inl hc) rfl⟩
    · exact ⟨V, (liveUnit_putUnit_of_ne cfg U' s hv).trans hV, rfl, rfl, rfl⟩
  | build u U' s' hs' hfree =>
    have hv : v ≠ u.toNat := by
      rintro rfl
      simp [(slotFree_iff.1 hfree).2] at hV
    have hold : liveUnit cfg s' v = some V := by rcases hs' with rfl | rfl <;> exact hV
    exact ⟨V, (liveUnit_putUnit_of_ne cfg U' s' hv).trans hold, rfl, rfl, rfl⟩

/-- Settles O18: an element outside the named unit's output lies in a host buffer or in a slot that stays. -/
theorem commandsWriteOnlyTheirUnit : Obligations.CommandsWriteOnlyTheirUnit := by
  unfold Obligations.CommandsWriteOnlyTheirUnit
  intro i s t ht
  obtain ⟨hhb, hepoch, hinput, hunits⟩ := exec_frame ht
  refine ⟨hhb, hepoch, hinput, hunits, fun a j ha => ?_, fun v V hV hi => exec_keeps_output ht hV hi⟩
  exact elemAt?_congr hhb hepoch (fun hk => hunits _ fun u hu he => ha u hu ⟨hk, he⟩) j

/-! ### The handles of a `NEW.*` (20_memory.md R65, R75; 40_system.md R141) -/

/-- The regions: of a host buffer that exists, or of a live unit's output (R65). -/
theorem inRegion_iff {C : Cfg} {s : State} {a : Addr} {n : Nat} :
    inRegion C s a n = true ↔
      (kindOf a = 1 ∧ indexOf a < C.nhostbuf ∧ offsetOf a + n ≤ C.hblen) ∨
      (kindOf a = 2 ∧ ∃ U, liveUnit C s (indexOf a) = some U ∧ offsetOf a + n ≤ U.nch * C.bufsize) := by
  unfold inRegion
  split
  case h_1 hk => simp [hk]
  case h_2 hk => cases hU : liveUnit C s (indexOf a) <;> simp [hk]
  case h_3 h1 h2 => exact iff_of_false Bool.false_ne_true fun h => h.elim (fun h => h1 h.1) fun h => h2 h.1

/-- A handle binds to a region outside the unit's own output (R75). -/
theorem bindOk_iff {C : Cfg} {s : State} {u : Nat} {a : Addr} {n : Nat} :
    bindOk C s u a n = true ↔ inRegion C s a n = true ∧ ¬ (kindOf a = 2 ∧ indexOf a = u) := by
  simp [bindOk, imp_iff_not_or]

section badHandle
variable {C : Cfg} {s : State} {u : Byte} {hs : List (Addr × Nat)} {a : Addr} {n : Nat}

/-- On a FREE slot a handle that does not bind is the first check to fail (60_exceptions.md R380). -/
theorem newCheck_badArg (hf : slotFree C s u.toNat = true) (hm : (a, n) ∈ hs)
    (hb : bindOk C s u.toNat a n = false) (argOk capOk : Bool) :
    newCheck C s u.toNat hs argOk capOk = some .badArg := by
  have hall : (hs.all fun h => bindOk C s u.toNat h.1 h.2) = false :=
    List.all_eq_false.2 ⟨_, hm, by simp [hb]⟩
  simp [newCheck, hf, hall]

theorem newUnit_badArg {argOk capOk : Bool} {U : DspUnit} (hf : slotFree C s u.toNat = true)
    (hm : (a, n) ∈ hs) (hb : bindOk C s u.toNat a n = false) :
    ∃ t, newUnit C u hs argOk capOk U s = .next t ∧ s.Erred .badArg t := by
  rw [newUnit, newCheck_badArg hf hm hb]
  exact erred_raise .badArg s

theorem newFreeverbOn_badArg {inp : Addr} {size damp mix : XOp} (hf : slotFree C s u.toNat = true)
    (hm : (a, n) ∈ (inp, C.bufsize) :: streamHandles C [size, damp, mix])
    (hb : bindOk C s u.toNat a n = false) :
    ∃ t, newFreeverbOn C u inp size damp mix s = .next t ∧ s.Erred .badArg t := by
  rw [newFreeverbOn, newCheck_badArg hf hm hb]
  exact erred_raise .badArg s

/-- The handles checked for one block: the input and the stream operands. -/
theorem mem_inputHandles {inp : Addr} {xs : List XOp} (hn : n = C.bufsize) (h : a = inp ∨ .stream a ∈ xs) :
    (a, n) ∈ (inp, C.bufsize) :: streamHandles C xs := by
  subst hn
  exact List.mem_cons.2 (h.imp (fun e => by rw [e]) fun hx => mem_streamHandles.2 ⟨hx, rfl⟩)

end badHandle

/-- Settles O60: each `NEW.*` has the handles of the statement among those it checks. -/
theorem newHandlesMustBind : Obligations.NewHandlesMustBind := by
  unfold Obligations.NewHandlesMustBind
  refine ⟨fun s u a n => by rw [bindOk_iff, inRegion_iff], ?_⟩
  intro i u s a n hi hf hb block h
  cases i
  case newBsplit | newFourband | newIrwinsinc | newIrpulse | newIrfm | newScale | newPan | newSwitch =>
    cases hi
    obtain ⟨hn, h⟩ := h
    exact newUnit_badArg hf (mem_inputHandles hn (by simpa [eq_comm] using h)) hb
  case newFreeverb =>
    cases hi
    obtain ⟨hn, h⟩ := h
    exact newFreeverbOn_badArg hf (mem_inputHandles hn (by simpa [eq_comm] using h)) hb
  case newMultiband | newConvolve | newIraverage | newDbtoa | newAtodb | newMtof | newFtom | newMtot
      | newCentstotranspo | newTranspotocents =>
    cases hi
    obtain ⟨hn, h⟩ := h
    exact newUnit_badArg hf (mem_inputHandles (xs := []) hn (.inl h)) hb
  case newSig | newSigto =>
    cases hi
    obtain ⟨hn, h⟩ := h
    exact newUnit_badArg hf (mem_streamHandles.2 ⟨by simp [h], hn⟩) hb
  case newSelector =>
    cases hi
    obtain ⟨hn, h⟩ := h
    refine newUnit_badArg hf (List.mem_append.2 ?_) hb
    rcases h with h | h
    · exact .inr (List.mem_map.2 ⟨a, h, by rw [hn]⟩)
    · exact .inl (mem_streamHandles.2 ⟨by simp [h], hn⟩)
  case newResample u dir factor mode inp =>
    cases hi
    obtain ⟨rfl, hn⟩ := h
    refine newUnit_badArg hf (List.mem_singleton.2 ?_) hb
    rw [hn]
    cases dir <;> rfl
  all_goals exact h.elim

end Sys2Proof.Machine
end

section
/-! PROOFS. The rows of the opcode table and the steps of R95 (30_encoding.md R94 to R96, R99). -/

namespace Sys2Proof

open Sys2Proof.Machine

/-! ### The fields of a masked header -/

section fields
variable (h m : Word)

theorem opOf_and : opOf (h &&& m) = opOf h &&& opOf m := BitVec.extractLsb'_and
theorem unitOf_and : unitOf (h &&& m) = unitOf h &&& unitOf m := BitVec.extractLsb'_and
theorem selOf_and : selOf (h &&& m) = selOf h &&& selOf m := BitVec.extractLsb'_and
theorem argOf_and : argOf (h &&& m) = argOf h &&& argOf m := BitVec.extractLsb'_and

/-- The opcode byte of a header, the other fields masked out. -/
theorem and_opMask : h &&& 0xFF000000#32 = mkHeader (opOf h) 0#8 0#8 0#8 := by
  have hmask : (0xFF000000#32 : Word) = mkHeader 0xFF#8 0#8 0#8 0#8 := by decide
  have hfull (x : Byte) : x &&& 0xFF#8 = x := BitVec.and_allOnes
  conv_lhs => rw [← mkHeader_fields h, hmask, mkHeader_and, hfull]
  simp only [BitVec.and_zero]

/-- A header with its unit number masked out. -/
theorem and_unitMask : h &&& 0xFF00FFFF#32 = mkHeader (opOf h) 0#8 (selOf h) (argOf h) := by
  have hmask : (0xFF00FFFF#32 : Word) = mkHeader 0xFF#8 0#8 0xFF#8 0xFF#8 := by decide
  have hfull (x : Byte) : x &&& 0xFF#8 = x := BitVec.and_allOnes
  conv_lhs => rw [← mkHeader_fields h, hmask, mkHeader_and, hfull, hfull, hfull]
  simp only [BitVec.and_zero]

end fields

/-- A field whose bits are all masked in. -/
theorem field_eq_of_and {x p : Byte} (h : x &&& 0xFF#8 = p) : x = p := BitVec.and_allOnes.symm.trans h

/-! ### The header of a command (30_encoding.md R95 steps 1 and 2, R96) -/

/-- A row of the opcode table selects the header. -/
def Selected (h : Word) : Prop := ∃ row ∈ headerRows, h &&& row.mask = row.pattern

/-- The header passes steps 1 and 2 of R95: `mask` is the reserved bits of its opcode, and all of them are 0. -/
structure LegalHeader (h mask : Word) : Prop where
  reserved : reservedBits (opOf h).toNat = some mask
  function : ¬ (opOf h = 0x22#8 ∧ 6 < (argOf h).toNat)
  clear : h &&& mask = 0#32

/-! What the rows say of a header's fields, and that every opcode with reserved bits has its row. -/

theorem headerRows_op : ∀ row ∈ headerRows, opOf row.mask = 0xFF#8 := by decide

theorem headerRows_function : ∀ row ∈ headerRows, opOf row.pattern = 0x22#8 →
    argOf row.mask = 0xFF#8 ∧ (argOf row.pattern).toNat ≤ 6 := by decide

theorem headerRows_reserved : ∀ row ∈ headerRows,
    (reservedBits (opOf row.pattern).toNat).any (fun mask =>
      decide (row.mask &&& mask = mask ∧ row.pattern &&& mask = 0#32)) = true := by decide

theorem mem_headerRows_of_reservedBits : ∀ op : Byte, op ≠ 0x22#8 →
    (reservedBits op.toNat).all (fun mask =>
      decide (⟨0xFF000000#32 ||| mask, mkHeader op 0#8 0#8 0#8⟩ ∈ headerRows)) = true := by decide

theorem mem_headerRows_of_function : ∀ fn : Byte, fn.toNat ≤ 6 →
    ⟨0xFF00FFFF#32, mkHeader 0x22#8 0#8 0#8 fn⟩ ∈ headerRows := by decide

/-- A selected header has an opcode of the table and no reserved bit set. -/
theorem Selected.legal {h : Word} (hs : Selected h) : ∃ mask, LegalHeader h mask := by
  obtain ⟨row, hrow, hsel⟩ := hs
  have hop : opOf h = opOf row.pattern :=
    field_eq_of_and (by rw [← headerRows_op row hrow, ← opOf_and, hsel])
  have hres := headerRows_reserved row hrow
  rw [Option.any_eq_true] at hres
  obtain ⟨mask, hmask, hbits⟩ := hres
  obtain ⟨hin, hclear⟩ := of_decide_eq_true hbits
  refine ⟨mask, hop ▸ hmask, fun ⟨h22, harg⟩ => ?_, ?_⟩
  · obtain ⟨hfull, hle⟩ := headerRows_function row hrow (hop ▸ h22)
    have hfn : argOf h = argOf row.pattern := field_eq_of_and (by rw [← hfull, ← argOf_and, hsel])
    rw [hfn] at harg
    omega
  · rw [← hin, ← BitVec.and_assoc, hsel, hclear]

/-- A header that passes steps 1 and 2 of R95 is selected: by the row of its opcode, and for opcode 0x22 by the row
of its function. -/
theorem LegalHeader.selected {h mask : Word} (hl : LegalHeader h mask) : Selected h := by
  obtain ⟨hres, hfn, hclear⟩ := hl
  by_cases h22 : opOf h = 0x22#8
  · have hmask : mask = 0x0000FF00#32 := by rw [h22] at hres; exact (Option.some.inj hres).symm
    have hsel : selOf h = 0#8 := field_eq_of_and (by
      have := selOf_and h mask
      rw [hclear, hmask] at this
      exact this.symm)
    refine ⟨_, mem_headerRows_of_function (argOf h) (not_lt.1 fun hlt => hfn ⟨h22, hlt⟩), ?_⟩
    rw [and_unitMask, h22, hsel]
  · have hall := mem_headerRows_of_reservedBits (opOf h) h22
    rw [hres] at hall
    refine ⟨_, of_decide_eq_true hall, ?_⟩
    rw [BitVec.and_or_distrib_left, and_opMask, hclear, BitVec.or_zero]

/-! ### Decoding by the steps of R95 -/

theorem decode_of_not_selected {p : Packet} (h : ¬ Selected p.header) : decode p = .badOp := by
  unfold decode
  split
  case h_1 => rfl
  case h_2 mask hmask =>
    split_ifs with hfn hclear hlen
    · rfl
    · rfl
    · exact absurd (LegalHeader.selected ⟨hmask, hfn, not_not.1 hclear⟩) h
    · exact absurd (LegalHeader.selected ⟨hmask, hfn, not_not.1 hclear⟩) h

/-- Step 3 and step 4 of R95, once a row selects the header. -/
theorem decode_of_selected {p : Packet} (h : Selected p.header) :
    decode p = if operandCount p.header p.operands ≠ some p.operands.length then .badLen
      else (assemble p.header p.operands).elim .badLen .command := by
  obtain ⟨mask, hmask, hfn, hclear⟩ := h.legal
  simp only [decode, hmask, if_neg hfn, hclear, ne_eq, not_true_eq_false, if_false]
  split_ifs
  · cases assemble p.header p.operands <;> rfl
  · rfl

end Sys2Proof
end

section
/-! PROOFS. The two directions of the encoding (30_encoding.md R91 to R96, R104). -/

namespace Sys2Proof

open Sys2Proof.Machine

/-! ### From a command to its packet and back -/

/-- The header of an encoding is selected by the row of the command. -/
theorem encode_header_rowOf : ∀ i, Laws.TableRow.Statement i
  | .nop => Laws.TableRow.nop
  | .del _ => Laws.TableRow.del _
  | .setc .. => Laws.TableRow.setc ..
  | .sets .. => Laws.TableRow.sets ..
  | .compute _ => Laws.TableRow.compute _
  | .reset _ => Laws.TableRow.reset _
  | .getout _ => Laws.TableRow.getout _
  | .rdcsr _ => Laws.TableRow.rdcsr _
  | .ack _ => Laws.TableRow.ack _
  | .mixadd .. => Laws.TableRow.mixadd ..
  | .mixdel .. => Laws.TableRow.mixdel ..
  | .mixamp .. => Laws.TableRow.mixamp ..
  | .seti .. => Laws.TableRow.seti ..
  | .newBsplit .. => Laws.TableRow.newBsplit ..
  | .newFourband .. => Laws.TableRow.newFourband ..
  | .newMultiband .. => Laws.TableRow.newMultiband ..
  | .newConvolve .. => Laws.TableRow.newConvolve ..
  | .newIrwinsinc .. => Laws.TableRow.newIrwinsinc ..
  | .newIraverage .. => Laws.TableRow.newIraverage ..
  | .newIrpulse .. => Laws.TableRow.newIrpulse ..
  | .newIrfm .. => Laws.TableRow.newIrfm ..
  | .newFreeverb .. => Laws.TableRow.newFreeverb ..
  | .newSig .. => Laws.TableRow.newSig ..
  | .newSigto .. => Laws.TableRow.newSigto ..
  | .newVarport .. => Laws.TableRow.newVarport ..
  | .newMixer .. => Laws.TableRow.newMixer ..
  | .newScale .. => Laws.TableRow.newScale ..
  | .newResample .. => Laws.TableRow.newResample ..
  | .newPan .. => Laws.TableRow.newPan ..
  | .newSwitch .. => Laws.TableRow.newSwitch ..
  | .newSelector .. => Laws.TableRow.newSelector ..
  | .newDbtoa .. => Laws.TableRow.newDbtoa ..
  | .newAtodb .. => Laws.TableRow.newAtodb ..
  | .newMtof .. => Laws.TableRow.newMtof ..
  | .newFtom .. => Laws.TableRow.newFtom ..
  | .newMtot .. => Laws.TableRow.newMtot ..
  | .newCentstotranspo .. => Laws.TableRow.newCentstotranspo ..
  | .newTranspotocents .. => Laws.TableRow.newTranspotocents ..

/-- The row of a command stands in the table. -/
theorem rowOf_mem (i : Instr) : rowOf i ∈ headerRows := by
  cases i <;> simp [rowOf, headerRows]

theorem selected_encode (i : Instr) : Selected (encode i).header :=
  ⟨rowOf i, rowOf_mem i, encode_header_rowOf i⟩

/-- The encoding of a well-formed command has the length of R94. -/
theorem operandCount_encode {i : Instr} (hi : i.wellFormed = true) :
    operandCount (encode i).header (encode i).operands = some (encode i).operands.length := by
  cases i
  case newConvolve u inp taps =>
    have hfit : taps.length < 4294967296 := of_decide_eq_true hi
    simp [encode, operandCount, Nat.mod_eq_of_lt hfit, Nat.add_comm 2]
  case newSelector u nin lin voice inputs =>
    have hnum : inputs.length = selectorInputs nin := by simpa [Instr.wellFormed] using hi
    simp [encode, operandCount, hnum, Nat.add_comm]
  all_goals simp [encode, operandCount]

/-- Every field of a command is read back from its header or its operand words. -/
theorem assemble_encode (i : Instr) : assemble (encode i).header (encode i).operands = some i := by
  cases i <;> simp [encode, assemble]

theorem decode_encode {i : Instr} (hi : i.wellFormed = true) : decode (encode i) = .command i := by
  rw [decode_of_selected (selected_encode i), operandCount_encode hi, assemble_encode i]
  simp

/-- Settles O1: the row of the command selects the header, the length is that of R94, and the words assemble to the
command. -/
theorem decodeEncodeRoundTrip : Obligations.DecodeEncodeRoundTrip := by
  unfold Obligations.DecodeEncodeRoundTrip
  exact fun i => decode_encode

/-! ### From a packet to its command and back -/

section packet
variable {h mask : Word} {ws : List Word}

/-- A packet is given by the four fields of its header and its operand words. -/
theorem packet_of_fields {op u s a : Byte} (hop : (opOf h).toNat = op.toNat) (hu : u = unitOf h)
    (hs : s = selOf h) (ha : a = argOf h) : (⟨mkHeader op u s a, ws⟩ : Packet) = ⟨h, ws⟩ := by
  rw [← BitVec.eq_of_toNat_eq hop, hu, hs, ha, mkHeader_fields]

theorem LegalHeader.unit_clear (hl : LegalHeader h mask) : unitOf h &&& unitOf mask = 0#8 := by
  rw [← unitOf_and, hl.clear]; rfl

theorem LegalHeader.sel_clear (hl : LegalHeader h mask) : selOf h &&& selOf mask = 0#8 := by
  rw [← selOf_and, hl.clear]; rfl

theorem LegalHeader.arg_clear (hl : LegalHeader h mask) : argOf h &&& argOf mask = 0#8 := by
  rw [← argOf_and, hl.clear]; rfl

/-- A field that is all reserved is 0. -/
theorem field_eq_zero {x : Byte} (h : x &&& 0xFF#8 = 0#8) : 0#8 = x := (field_eq_of_and h).symm

section xop
variable (sel : Byte) (k : Nat) (w : Word)

@[simp] theorem word_xopOf : (xopOf sel k w).word = w := by
  unfold xopOf
  split <;> rfl

@[simp] theorem bit_xopOf : (xopOf sel k w).bit = sel.getLsbD k := by
  unfold xopOf
  cases sel.getLsbD k <;> rfl

end xop

/-! A `sel` field is its mask bits and the flag, when the others are reserved (30_encoding.md R93). -/

theorem selBits_of_one : ∀ x : Byte, x &&& 0xFE#8 = 0#8 →
    selBits (x.getLsbD 0) false false false false = x := by decide

theorem selBits_of_two : ∀ x : Byte, x &&& 0xFC#8 = 0#8 →
    selBits (x.getLsbD 0) (x.getLsbD 1) false false false = x := by decide

theorem selBits_of_three : ∀ x : Byte, x &&& 0xF8#8 = 0#8 →
    selBits (x.getLsbD 0) (x.getLsbD 1) (x.getLsbD 2) false false = x := by decide

theorem selBits_of_four : ∀ x : Byte, x &&& 0xF0#8 = 0#8 →
    selBits (x.getLsbD 0) (x.getLsbD 1) (x.getLsbD 2) (x.getLsbD 3) false = x := by decide

theorem selBits_of_lin : ∀ x : Byte, x &&& 0x7E#8 = 0#8 →
    selBits (x.getLsbD 0) false false false (x.getLsbD 7) = x := by decide

/-- The `sel` field of NEW.RESAMPLE is direction and factor (30_encoding.md R104). -/
theorem dir_factor : ∀ x : Byte, BitVec.ofBool (dirOf x).bit ++ x.extractLsb' 0 7 = x := by decide

/-! A command of so many operand words is assembled from any list of that length, and its encoding is the packet
when it is so for each of these lists. -/

theorem words0_assembles {i : Instr} (hn : 0 = ws.length) (he : encode i = ⟨h, []⟩) :
    ∃ j, words0 i ws = some j ∧ encode j = ⟨h, ws⟩ := by
  match ws with
  | [] => exact ⟨_, rfl, he⟩

theorem words1_assembles {k : Word → Instr} (hn : 1 = ws.length) (he : ∀ a, encode (k a) = ⟨h, [a]⟩) :
    ∃ j, words1 k ws = some j ∧ encode j = ⟨h, ws⟩ := by
  match ws with
  | [a] => exact ⟨_, rfl, he a⟩

theorem words2_assembles {k : Word → Word → Instr} (hn : 2 = ws.length)
    (he : ∀ a b, encode (k a b) = ⟨h, [a, b]⟩) : ∃ j, words2 k ws = some j ∧ encode j = ⟨h, ws⟩ := by
  match ws with
  | [a, b] => exact ⟨_, rfl, he a b⟩

theorem words3_assembles {k : Word → Word → Word → Instr} (hn : 3 = ws.length)
    (he : ∀ a b c, encode (k a b c) = ⟨h, [a, b, c]⟩) :
    ∃ j, words3 k ws = some j ∧ encode j = ⟨h, ws⟩ := by
  match ws with
  | [a, b, c] => exact ⟨_, rfl, he a b c⟩

theorem words4_assembles {k : Word → Word → Word → Word → Instr} (hn : 4 = ws.length)
    (he : ∀ a b c d, encode (k a b c d) = ⟨h, [a, b, c, d]⟩) :
    ∃ j, words4 k ws = some j ∧ encode j = ⟨h, ws⟩ := by
  match ws with
  | [a, b, c, d] => exact ⟨_, rfl, he a b c d⟩

theorem words5_assembles {k : Word → Word → Word → Word → Word → Instr} (hn : 5 = ws.length)
    (he : ∀ a b c d e, encode (k a b c d e) = ⟨h, [a, b, c, d, e]⟩) :
    ∃ j, words5 k ws = some j ∧ encode j = ⟨h, ws⟩ := by
  match ws with
  | [a, b, c, d, e] => exact ⟨_, rfl, he a b c d e⟩

theorem words6_assembles {k : Word → Word → Word → Word → Word → Word → Instr} (hn : 6 = ws.length)
    (he : ∀ a b c d e f, encode (k a b c d e f) = ⟨h, [a, b, c, d, e, f]⟩) :
    ∃ j, words6 k ws = some j ∧ encode j = ⟨h, ws⟩ := by
  match ws with
  | [a, b, c, d, e, f] => exact ⟨_, rfl, he a b c d e f⟩

/-- The function codes of opcode 0x22 (30_encoding.md R97). -/
theorem function_cases : ∀ fn : Byte, ¬ 6 < fn.toNat →
    fn = 0#8 ∨ fn = 1#8 ∨ fn = 2#8 ∨ fn = 3#8 ∨ fn = 4#8 ∨ fn = 5#8 ∨ fn = 6#8 := by decide

/-- A packet that passes the steps of R95 is assembled to a command, and is that command's encoding: opcode by
opcode, in the order of the table, those with the same operand words and the same reserved bits together. -/
theorem assemble_of_legal (hl : LegalHeader h mask) (hlen : operandCount h ws = some ws.length) :
    ∃ i, assemble h ws = some i ∧ encode i = ⟨h, ws⟩ := by
  have hres := hl.reserved
  generalize hop : (opOf h).toNat = op at hres
  unfold reservedBits at hres
  split at hres <;> cases hres <;> simp only [operandCount, hop, Option.some.injEq] at hlen <;>
    simp only [assemble, hop]
  -- NOP
  case h_1 =>
    exact words0_assembles hlen (packet_of_fields hop (field_eq_zero hl.unit_clear)
      (field_eq_zero hl.sel_clear) (field_eq_zero hl.arg_clear))
  -- DEL, COMPUTE, RESET, GETOUT, ACK
  case h_2 | h_5 | h_6 | h_7 | h_9 =>
    exact words0_assembles hlen (packet_of_fields hop rfl (field_eq_zero hl.sel_clear)
      (field_eq_zero hl.arg_clear))
  -- RDCSR
  case h_8 =>
    exact words0_assembles hlen (packet_of_fields hop (field_eq_zero hl.unit_clear) rfl
      (field_eq_zero hl.arg_clear))
  -- SETC, SETS, SETI
  case h_3 | h_4 | h_13 =>
    exact words1_assembles hlen fun _ => packet_of_fields hop rfl rfl (field_eq_zero hl.arg_clear)
  -- MIXDEL
  case h_11 =>
    exact words1_assembles hlen fun _ => packet_of_fields hop rfl (field_eq_zero hl.sel_clear)
      (field_eq_zero hl.arg_clear)
  -- MIXADD, NEW.IRAVERAGE
  case h_10 | h_19 =>
    exact words2_assembles hlen fun _ _ => packet_of_fields hop rfl (field_eq_zero hl.sel_clear)
      (field_eq_zero hl.arg_clear)
  -- MIXAMP
  case h_12 =>
    exact words2_assembles hlen fun _ _ => packet_of_fields hop rfl (field_eq_zero hl.sel_clear) rfl
  -- NEW.MULTIBAND, NEW.MIXER
  case h_16 | h_26 =>
    exact words1_assembles hlen fun _ => packet_of_fields hop rfl (field_eq_zero hl.sel_clear) rfl
  -- NEW.BSPLIT
  case h_14 =>
    refine words4_assembles hlen fun _ _ _ _ => ?_
    simp only [encode, word_xopOf, bit_xopOf]
    exact packet_of_fields hop rfl (selBits_of_one _ hl.sel_clear) rfl
  -- NEW.IRWINSINC, NEW.IRPULSE
  case h_18 | h_20 =>
    refine words4_assembles hlen fun _ _ _ _ => ?_
    simp only [encode, word_xopOf, bit_xopOf]
    exact packet_of_fields hop rfl (selBits_of_two _ hl.sel_clear) rfl
  -- NEW.FOURBAND, NEW.FREEVERB
  case h_15 | h_22 =>
    refine words4_assembles hlen fun _ _ _ _ => ?_
    simp only [encode, word_xopOf, bit_xopOf]
    exact packet_of_fields hop rfl (selBits_of_three _ hl.sel_clear) (field_eq_zero hl.arg_clear)
  -- NEW.CONVOLVE
  case h_17 =>
    match ws with
    | [] | [_] => cases hlen
    | w1 :: n :: taps =>
      have hn : BitVec.ofNat 32 taps.length = n := by
        have : n.toNat = taps.length := by simpa [Nat.add_comm 2] using hlen
        rw [← this, BitVec.ofNat_toNat, BitVec.setWidth_eq]
      refine ⟨_, rfl, ?_⟩
      simp only [encode, hn]
      exact packet_of_fields hop rfl (field_eq_zero hl.sel_clear) (field_eq_zero hl.arg_clear)
  -- NEW.IRFM
  case h_21 =>
    refine words5_assembles hlen fun _ _ _ _ _ => ?_
    simp only [encode, word_xopOf, bit_xopOf]
    exact packet_of_fields hop rfl (selBits_of_three _ hl.sel_clear) (field_eq_zero hl.arg_clear)
  -- NEW.SIG
  case h_23 =>
    refine words1_assembles hlen fun _ => ?_
    simp only [encode, word_xopOf, bit_xopOf]
    exact packet_of_fields hop rfl (selBits_of_one _ hl.sel_clear) (field_eq_zero hl.arg_clear)
  -- NEW.SIGTO
  case h_24 =>
    refine words3_assembles hlen fun _ _ _ => ?_
    simp only [encode, word_xopOf, bit_xopOf]
    exact packet_of_fields hop rfl (selBits_of_one _ hl.sel_clear) (field_eq_zero hl.arg_clear)
  -- NEW.VARPORT
  case h_25 =>
    exact words3_assembles hlen fun _ _ _ => packet_of_fields hop rfl (field_eq_zero hl.sel_clear)
      (field_eq_zero hl.arg_clear)
  -- NEW.SCALE
  case h_27 =>
    refine words6_assembles hlen fun _ _ _ _ _ _ => ?_
    simp only [encode, word_xopOf, bit_xopOf]
    exact packet_of_fields hop rfl (selBits_of_four _ hl.sel_clear) (field_eq_zero hl.arg_clear)
  -- NEW.RESAMPLE
  case h_28 =>
    exact words1_assembles hlen fun _ => packet_of_fields hop rfl (dir_factor _) rfl
  -- NEW.PAN, NEW.SWITCH
  case h_29 | h_30 =>
    refine words2_assembles hlen fun _ _ => ?_
    simp only [encode, word_xopOf, bit_xopOf]
    exact packet_of_fields hop rfl (selBits_of_lin _ hl.sel_clear) rfl
  -- NEW.SELECTOR
  case h_31 =>
    match ws with
    | [] => simp at hlen
    | w1 :: inputs =>
      refine ⟨_, rfl, ?_⟩
      simp only [encode, word_xopOf, bit_xopOf]
      exact packet_of_fields hop rfl (selBits_of_lin _ hl.sel_clear) rfl
  -- NEW.CONV, by its function
  case h_32 =>
    have hsel := field_eq_zero hl.sel_clear
    have hle : ¬ 6 < (argOf h).toNat := fun hlt => hl.function ⟨BitVec.eq_of_toNat_eq hop, hlt⟩
    rcases function_cases (argOf h) hle with hfn | hfn | hfn | hfn | hfn | hfn | hfn <;> rw [hfn] at hlen ⊢
    case inr.inr.inr.inr.inl =>
      exact words2_assembles hlen fun _ _ => packet_of_fields hop rfl hsel hfn.symm
    all_goals exact words1_assembles hlen fun _ => packet_of_fields hop rfl hsel hfn.symm

end packet

/-! ### The three outcomes of decoding (30_encoding.md R95) -/

/-- Step 4: once a row selects the header and the length is right there is a command. -/
theorem decode_of_length {p : Packet} (hs : Selected p.header)
    (hlen : operandCount p.header p.operands = some p.operands.length) :
    ∃ i, decode p = .command i ∧ encode i = p := by
  obtain ⟨mask, hl⟩ := hs.legal
  obtain ⟨i, hi, he⟩ := assemble_of_legal hl hlen
  exact ⟨i, by simp [decode_of_selected hs, hlen, hi], he⟩

theorem selected_of_decode {p : Packet} (h : decode p ≠ .badOp) : Selected p.header :=
  not_imp_comm.1 decode_of_not_selected h

theorem decode_badLen_iff {p : Packet} :
    decode p = .badLen ↔ Selected p.header ∧ operandCount p.header p.operands ≠ some p.operands.length := by
  constructor
  · intro hbad
    have hs : Selected p.header := selected_of_decode (by simp [hbad])
    refine ⟨hs, fun hlen => ?_⟩
    obtain ⟨i, hi, -⟩ := decode_of_length hs hlen
    simp [hbad] at hi
  · rintro ⟨hs, hlen⟩
    rw [decode_of_selected hs, if_pos hlen]

theorem decode_badOp_iff {p : Packet} : decode p = .badOp ↔ ¬ Selected p.header := by
  refine ⟨fun hbad hs => ?_, decode_of_not_selected⟩
  by_cases hlen : operandCount p.header p.operands = some p.operands.length
  · obtain ⟨i, hi, -⟩ := decode_of_length hs hlen
    simp [hbad] at hi
  · simp [decode_badLen_iff.2 ⟨hs, hlen⟩] at hbad

/-- A packet that decodes to a command is the encoding of that command. -/
theorem encode_of_decode {p : Packet} {i : Instr} (h : decode p = .command i) : encode i = p := by
  have hs : Selected p.header := selected_of_decode (by simp [h])
  obtain ⟨j, hj, he⟩ := decode_of_length hs (decode_command h).1
  obtain rfl : i = j := by simpa [h] using hj
  exact he

/-- Settles O2: a packet that decodes has a selected header and the right length, and then it is the encoding of
the command its words assemble to. -/
theorem encodeDecodeRoundTrip : Obligations.EncodeDecodeRoundTrip := by
  unfold Obligations.EncodeDecodeRoundTrip
  exact fun p i h => ⟨encode_of_decode h, decode_wellFormed h⟩

/-- Settles O3: steps 1 and 2 of R95 refuse exactly the headers no row selects, and a selected one is E_BADLEN or a
command. -/
theorem badOpExactlyOutsideTheTable : Obligations.BadOpExactlyOutsideTheTable := by
  unfold Obligations.BadOpExactlyOutsideTheTable
  intro p
  simp only [decode_badOp_iff, Selected, not_exists, not_and, ne_eq]

/-- Settles O4: step 3 of R95; a selected header with the right length has a command. -/
theorem badLenExactlyOnWrongLength : Obligations.BadLenExactlyOnWrongLength := by
  unfold Obligations.BadLenExactlyOnWrongLength
  exact fun p => decode_badLen_iff

/-- Settles O5: the encodings are computed, and decoding them is the round trip. -/
theorem workedEncodings : Obligations.WorkedEncodings := by
  unfold Obligations.WorkedEncodings
  intro e he
  have hcomputed : encode e.1 = e.2 ∧ e.1.wellFormed = true := by
    revert e
    decide
  obtain ⟨henc, hwf⟩ := hcomputed
  exact ⟨henc, henc ▸ decode_encode hwf⟩

end Sys2Proof
end

section
/-! PROOFS. A presented packet is answered (30_encoding.md R95, R98; 60_exceptions.md R372). -/

namespace Sys2Proof.Machine

/-! ### What the packet decodes to is done -/

section stepPacket
variable {p : Packet} (s : State)

theorem stepPacket_of_command {i : Instr} (h : decode p = .command i) : stepPacket p s = exec i s := by
  simp only [stepPacket, h]

theorem stepPacket_of_badOp (h : decode p = .badOp) : stepPacket p s = raise .badOp s := by
  simp only [stepPacket, h, rejectPacket]

theorem stepPacket_of_badLen (h : decode p = .badLen) : stepPacket p s = raise .badLen s := by
  simp only [stepPacket, h, rejectPacket]

end stepPacket

theorem step_of_packet {s : State} {p : Packet} {rest : List HostMove} (h : s.input = .packet p :: rest) :
    step s = stepPacket p { s with input := rest } := step_of_input h

/-- Settles O6, by what the packet decodes to. -/
theorem stepRunsDecodedInstruction : Obligations.StepRunsDecodedInstruction := by
  unfold Obligations.StepRunsDecodedInstruction
  intro s p rest hin
  rw [step_of_packet hin]
  refine ⟨fun i hi => ⟨decode_wellFormed hi, stepPacket_of_command _ hi⟩, fun hbad => ?_, fun hbad => ?_⟩
  · rw [stepPacket_of_badOp _ hbad]
    exact erred_raise _ _
  · rw [stepPacket_of_badLen _ hbad]
    exact erred_raise _ _

/-! ### One response to every packet -/

/-- `r` is a next state that shows one response and has the moves of `s` still to make; a value other than 0 comes
with `OK`, and only where `valued` holds (30_encoding.md R98). -/
def Answers (valued : Prop) (s : State) (r : Result) : Prop :=
  ∃ t code value, r = .next t ∧ t.port = .response ⟨code, value⟩ ∧ t.input = s.input ∧
    (value ≠ 0#32 → code = .ok ∧ valued)

theorem raise_answers (valued : Prop) (e : Code) (s : State) : Answers valued s (raise e s) :=
  ⟨_, e, 0#32, rfl, rfl, rfl, fun h => absurd rfl h⟩

/-- A command that ends `OK` with response value 0. -/
theorem done_answers (valued : Prop) {s t : State} (h : t.input = s.input) : Answers valued s (done t) :=
  ⟨_, .ok, 0#32, rfl, rfl, h, fun hne => absurd rfl hne⟩

/-- Every command is answered once, and only GETOUT and RDCSR return a value. -/
theorem exec_answers (i : Instr) (s : State) :
    Answers ((∃ u, i = .getout u) ∨ ∃ n, i = .rdcsr n) s (exec i s) := by
  have he := exec_effect i s
  generalize exec i s = r at he
  cases he with
  | refused e => exact raise_answers _ e s
  | value v hv => exact ⟨_, .ok, v, rfl, rfl, rfl, fun hne => ⟨rfl, hv.resolve_left hne⟩⟩
  | release | update | build | seeded => exact done_answers _ rfl

/-- Settles O7: a packet that does not decode is answered with its error, a command as `exec_answers` says. -/
theorem everyPacketAnswered : Obligations.EveryPacketAnswered := by
  unfold Obligations.EveryPacketAnswered
  intro s p rest hin
  rw [step_of_packet hin]
  cases hp : decode p with
  | command i =>
    rw [stepPacket_of_command _ hp]
    simp only [Decoded.command.injEq]
    exact exec_answers i _
  | badOp =>
    rw [stepPacket_of_badOp _ hp]
    exact raise_answers _ _ _
  | badLen =>
    rw [stepPacket_of_badLen _ hp]
    exact raise_answers _ _ _

end Sys2Proof.Machine
end

section
/-! PROOFS. The system commands (40_system.md R130 to R142): NOP, DEL, SETC with its hooks, SETS, COMPUTE, ACK, GETOUT
and RDCSR. -/

namespace Sys2Proof.Machine

open Sys2Proof.Config (cfg)

/-! ### Commands that end by putting their unit back -/

/-- A command on a live unit that ends by putting `V` in its slot: what its state then shows. -/
theorem did_of_exec_eq_done {i : Instr} {u : Byte} {s : State} {U V : DspUnit}
    (hU : liveUnit cfg s u.toNat = some U) (hi : exec i s = done (putUnit u.toNat V s)) :
    ∃ t, exec i s = .next t ∧ s.Did cfg u.toNat t ∧ liveUnit cfg t u.toNat = some V :=
  ⟨_, hi.trans (done_eq _), did_putUnit cfg _ V s, liveUnit_putUnit_self V s (lt_of_liveUnit hU)⟩

theorem exec_setc_of_class {u slot : Byte} {v : Sample} {s : State} {U : DspUnit}
    (hU : liveUnit cfg s u.toNat = some U)
    (hc : slotClass U.body slot.toNat = some .param ∨ slotClass U.body slot.toNat = some .scalar) :
    exec (.setc u slot v) s = done (putUnit u.toNat (setConst cfg slot.toNat v U) s) :=
  (withLive_some hU).trans (if_pos hc)

theorem exec_sets_of_bindOk {u slot : Byte} {h : Addr} {s : State} {U : DspUnit}
    (hU : liveUnit cfg s u.toNat = some U) (hc : slotClass U.body slot.toNat = some .param)
    (hb : bindOk cfg s u.toNat h cfg.bufsize = true) :
    exec (.sets u slot h) s = done (putUnit u.toNat (setStream slot.toNat h U) s) :=
  (withLive_some hU).trans (by simp [hc, hb])

theorem exec_ack_of_live {u : Byte} {s : State} {U : DspUnit} (hU : liveUnit cfg s u.toNat = some U) :
    exec (.ack u) s = done (putUnit u.toNat { U with cb := false } s) := withLive_some hU

/-! ### The slots of a sound unit (10_state.md R24, R25) -/

/-- Every slot a sound type-specific state defines is one of the sixteen. -/
theorem slotNumber_lt_of_class {C : Cfg} {b : Body} (hb : b.Wf C) {k : Nat} (hk : (slotClass b k).isSome = true) :
    k < 16 := by
  by_contra hge
  have hfar : ∀ n, n ≤ 16 → ¬ k < n := fun n hn hlt => hge (hlt.trans_le hn)
  have hne : ∀ n, n < 16 → k ≠ n := fun n hn he => hge (he ▸ hn)
  cases b
  case multiband m => simp [slotClass, hfar m.bounds.length (hb.2.1.trans (by decide))] at hk
  all_goals simp [slotClass, hfar, hne] at hk

/-- Reading the slots after slot `k` was written: `k` holds the written slot. -/
theorem slot_set_self {U V : DspUnit} {k : Nat} {x : Slot} (hV : V.p = U.p.set k x) (hk : k < U.p.length) :
    V.slot k = x := by
  simp [DspUnit.slot, hV, hk]

/-- Every other slot holds what it held. -/
theorem slot_set_of_ne {U V : DspUnit} {k j : Nat} {x : Slot} (hV : V.p = U.p.set k x) (hj : j ≠ k) :
    V.slot j = U.slot j := by
  rcases getD_set_cases U.p k j x with ⟨he, _⟩ | he
  · exact absurd he hj
  · rw [DspUnit.slot, hV, he, DspUnit.slot]

/-- A slot with a class exists in a sound unit. -/
theorem DspUnit.Wf.slot_lt {C : Cfg} {u k : Nat} {U : DspUnit} (h : U.Wf C u)
    (hk : (slotClass U.body k).isSome = true) : k < U.p.length := by
  rw [h.slots]
  exact slotNumber_lt_of_class h.body hk

/-! ### SETC and SETS (40_system.md R132, R133, R142) -/

/-- R142 gives no hook for a type other than BSPLIT, CONV and MIXER, nor off slot 1 of SIGTO and VARPORT. -/
theorem onSetC_of_no_hook (C : Cfg) {k : Nat} (v : Sample) {b : Body} (hbsplit : typeCode b ≠ 1)
    (hconv : typeCode b ≠ 19) (hmixer : typeCode b ≠ 13) (hsigto : ¬ (typeCode b = 11 ∧ k = 1))
    (hvarport : ¬ (typeCode b = 12 ∧ k = 1)) : onSetC C k v b = b := by
  unfold onSetC
  split
  case h_1 => exact absurd rfl hbsplit
  case h_2 => exact absurd ⟨rfl, rfl⟩ hsigto
  case h_3 => exact absurd ⟨rfl, rfl⟩ hvarport
  case h_4 => exact absurd rfl hmixer
  case h_5 => exact absurd rfl hconv
  case h_6 => rfl

/-- Settles O24: the slot exists in a sound unit, so it holds what SETC writes. -/
theorem setcSetsTheConstant : Obligations.SetcSetsTheConstant := by
  unfold Obligations.SetcSetsTheConstant
  intro u slot value s U hs hU hc
  have hsome : (slotClass U.body slot.toNat).isSome = true := by rcases hc with h | h <;> rw [h] <;> rfl
  obtain ⟨t, ht, hdid, hV⟩ := did_of_exec_eq_done hU (exec_setc_of_class (v := value) hU hc)
  exact ⟨t, _, ht, hdid, hV, slot_set_self rfl ((hs.liveUnit_wf hU).slot_lt hsome),
    fun k hk => slot_set_of_ne rfl hk, rfl, rfl, rfl, rfl, typeCode_onSetC cfg _ value U.body,
    onSetC_of_no_hook cfg value⟩

/-- A live unit after SETC of a slot that its type defines as `P` or `S` has the state its hook gives. -/
theorem exec_setc_body {u slot : Byte} {v : Sample} {s : State} {U : DspUnit} {b b' : Body}
    (hU : liveUnit cfg s u.toNat = some U) (hb : U.body = b)
    (hc : slotClass b slot.toNat = some .param ∨ slotClass b slot.toNat = some .scalar)
    (hook : onSetC cfg slot.toNat v b = b') :
    ∃ t V, exec (.setc u slot v) s = .next t ∧ s.Did cfg u.toNat t ∧ liveUnit cfg t u.toNat = some V ∧
      V.body = b' := by
  subst hb
  obtain ⟨t, ht, hdid, hV⟩ := did_of_exec_eq_done hU (exec_setc_of_class (v := v) hU hc)
  exact ⟨t, _, ht, hdid, hV, hook⟩

/-- The hook of VARPORT, its cases as R298 has them. -/
theorem varportNewTime_eq (C : Cfg) (v : Sample) (p : VarPort) :
    varportNewTime C v p =
      { n := rampLen C v
        timeout := rampLen C v + C.vpExtra
        active := p.active
        rp := if p.active = true ∧ p.rp.count < p.n then rampRetarget p.rp p.rp.last (rampLen C v)
          else if p.active = false then { p.rp with count := rampLen C v + C.vpExtra }
          else p.rp } := by
  unfold varportNewTime
  cases p.active <;> simp

/-- Settles O25, hook by hook. -/
theorem setcHooks : Obligations.SetcHooks := by
  unfold Obligations.SetcHooks
  intro u v s U hU
  refine ⟨fun b hb => ?_, fun g hg => ?_, fun p hp => ?_, fun m hm => ?_, fun c hc hfn => ?_⟩
  · obtain ⟨t, V, ht, hdid, hV, hbody⟩ := exec_setc_body (slot := 0#8) (v := v) hU hb (.inl rfl) rfl
    exact ⟨t, V, _, ht, hdid, hV, hbody, rfl, rfl, rfl, rfl⟩
  · exact exec_setc_body hU hg (.inr rfl) rfl
  · exact exec_setc_body hU hp (.inr rfl) (congrArg Body.varport (varportNewTime_eq cfg v p))
  · exact exec_setc_body hU hm (.inr rfl) rfl
  · exact exec_setc_body hU hc (.inr (if_pos ⟨hfn, rfl⟩)) rfl

/-- Settles O26: the slot exists in a sound unit, so it holds what SETS writes. -/
theorem setsBindsTheStream : Obligations.SetsBindsTheStream := by
  unfold Obligations.SetsBindsTheStream
  intro u slot h s U hs hU hc hb
  obtain ⟨t, ht, hdid, hV⟩ := did_of_exec_eq_done hU (exec_sets_of_bindOk hU hc hb)
  exact ⟨t, _, ht, hdid, hV, slot_set_self rfl ((hs.liveUnit_wf hU).slot_lt (by rw [hc]; rfl)),
    fun k hk => slot_set_of_ne rfl hk, rfl, rfl, rfl, rfl, rfl⟩

/-! ### COMPUTE (40_system.md R135, R136) -/

/-- Settles O32: a ready unit becomes `computeUnit` of it, whose output has a block per channel. -/
theorem computeCompletes : Obligations.ComputeCompletes := by
  unfold Obligations.ComputeCompletes
  intro u s U hs hready
  have hwf := hs.liveUnit_wf hready.1
  obtain ⟨_, _, _, _, _, hout⟩ := computeUnit_body (s := s) hwf
  refine ⟨_, computes_of_ready hready, ?_, ?_⟩
  · rw [hout, hwf.out_length, hwf.nch_eq]
  · rcases computeUnit_cb cfg s U with hcb | ⟨v, hv, hcb⟩
    · exact .inl hcb
    · exact .inr ⟨hcb, by rw [hv]; rfl⟩

/-! ### NOP (40_system.md R130) -/

/-- The only legal header of opcode 0 is the word of zeros: all its other bits are reserved. -/
theorem header_eq_zero_of_legal {h mask : Word} (hl : LegalHeader h mask) (hop : opOf h = 0x00#8) :
    h = 0x00000000#32 := by
  have hmask : mask = 0x00FFFFFF#32 := by
    have hres := hl.reserved
    rw [hop] at hres
    exact (Option.some.inj hres).symm
  have hlow : h &&& 0x00FFFFFF#32 = 0#32 := hmask ▸ hl.clear
  have hhigh : h &&& 0xFF000000#32 = 0#32 := by rw [and_opMask, hop]; rfl
  calc h = h &&& (0xFF000000#32 ||| 0x00FFFFFF#32) := BitVec.and_allOnes.symm
    _ = 0x00000000#32 := by rw [BitVec.and_or_distrib_left, hhigh, hlow]; rfl

/-- Settles O22. -/
theorem nopDoesNothing : Obligations.NopDoesNothing := by
  unfold Obligations.NopDoesNothing
  refine ⟨fun _ => rfl, by decide, fun p hop hne => decode_of_not_selected fun hsel => ?_⟩
  obtain ⟨mask, hl⟩ := hsel.legal
  exact hne (header_eq_zero_of_legal hl hop)

/-! ### DEL (40_system.md R131) -/

/-- An address into the output of a slot that is not live names nothing (20_memory.md R65). -/
theorem elemAt?_of_not_live {C : Cfg} {s : State} {a : Addr} (hk : kindOf a = 2)
    (hU : liveUnit C s (indexOf a) = none) (i : Nat) : elemAt? C s a i = none := by
  simp [elemAt?, hk, hU]

theorem inRegion_of_not_live {C : Cfg} {s : State} {a : Addr} (hk : kindOf a = 2)
    (hU : liveUnit C s (indexOf a) = none) (n : Nat) : inRegion C s a n = false := by
  simp [inRegion, hk, hU]

/-- Settles O23: the released slot is live no more. -/
theorem delReleasesTheUnit : Obligations.DelReleasesTheUnit := by
  unfold Obligations.DelReleasesTheUnit
  intro u s U hU
  have hnone : liveUnit cfg ((dropUnit u.toNat s).answer .ok 0#32) u.toNat = none := by
    simp [liveUnit_dropUnit]
  refine ⟨_, (withLive_some hU).trans (done_eq _), did_dropUnit cfg _ s,
    slotFree_iff.2 ⟨lt_of_liveUnit hU, hnone⟩, fun a j hk hi => ?_⟩
  rw [← hi] at hnone ⊢
  exact ⟨elemAt?_of_not_live hk hnone j, inRegion_of_not_live hk hnone _⟩

/-! ### ACK and GETOUT (40_system.md R138, R140; 10_state.md R29) -/

/-- The address of a unit's output: kind 2, the unit's number, offset 0. -/
theorem outAddr_fields {u : Nat} (hu : u < 256) :
    kindOf (outAddr u) = 2 ∧ indexOf (outAddr u) = u ∧ offsetOf (outAddr u) = 0 := by
  unfold kindOf indexOf offsetOf
  rw [outAddr_toNat hu]
  omega

/-- The address of a live unit's output names that whole output. -/
theorem outAddr_region {C : Cfg} {s : State} {u : Nat} {U : DspUnit} (hu : u < 256)
    (hU : liveUnit C s u = some U) :
    inRegion C s (outAddr u) (U.nch * C.bufsize) = true ∧ ∀ j, elemAt? C s (outAddr u) j = U.out[j]? := by
  obtain ⟨hk, hi, ho⟩ := outAddr_fields hu
  exact ⟨inRegion_iff.2 (.inr ⟨hk, U, hi.symm ▸ hU, by omega⟩), fun j => by simp [elemAt?, hk, hi, ho, hU]⟩

/-- Settles O28. -/
theorem ackAndGetout : Obligations.AckAndGetout := by
  unfold Obligations.AckAndGetout
  intro u s U hU
  refine ⟨did_of_exec_eq_done hU (exec_ack_of_live hU), outAddr u.toNat,
    (withLive_some hU).trans (doneWith_eq _ s), outAddr_toNat u.isLt, outAddr_region u.isLt hU⟩

/-! ### RDCSR (40_system.md R139; 10_state.md R26) -/

theorem exec_rdcsr_of_some {n : Byte} {s : State} {v : Word} (h : csrValue cfg s n.toNat = some v) :
    exec (.rdcsr n) s = .next { s with port := .response ⟨.ok, v⟩ } := by
  show rdcsrOn cfg n s = _
  rw [rdcsrOn, h]
  rfl

theorem exec_rdcsr_of_none {n : Byte} {s : State} (h : csrValue cfg s n.toNat = none) :
    exec (.rdcsr n) s = raise .badSlot s := by
  show rdcsrOn cfg n s = _
  rw [rdcsrOn, h]

/-- Past the nine named registers there are the nineteen seed counters only. -/
theorem csrValue_of_eight_lt (C : Cfg) (s : State) {n : Nat} (hn : 8 < n) :
    csrValue C s n = if 0x21 ≤ n ∧ n ≤ 0x33 then some (seedCount s (n - 0x20)) else none := by
  unfold csrValue
  split
  case h_10 => rfl
  all_goals omega

/-- Settles O29: the named registers one by one, then the seed counters, then the numbers past and between them. -/
theorem rdcsrReturnsTheRegister : Obligations.RdcsrReturnsTheRegister := by
  unfold Obligations.RdcsrReturnsTheRegister
  refine fun s => ⟨fun r hr => exec_rdcsr_of_some ?_, fun t ht1 ht19 => ?_, fun n hn hout => ?_⟩
  · revert r
    simp [csrValue]
  · refine exec_rdcsr_of_some ?_
    have hnum : (BitVec.ofNat 8 (0x20 + t)).toNat = 0x20 + t := by
      rw [BitVec.toNat_ofNat]
      omega
    rw [hnum, csrValue_of_eight_lt cfg s (by omega), if_pos (by omega), Nat.add_sub_cancel_left]
  · rw [exec_rdcsr_of_none (by rw [csrValue_of_eight_lt cfg s hn, if_neg (by omega)])]
    exact erred_raise _ _

end Sys2Proof.Machine
end

section
/-! PROOFS. Building a unit by a `NEW.*`, said once, and what the three band splitters start from (41_bandsplit.md R160
to R166, R170, R181, R183 to R185; 40_system.md R141). -/

namespace Sys2Proof.Machine

open Sys2Proof.Config (cfg)

/-- A `NEW.*` whose checks hold builds the unit of `NewCommon` it was given, and touches nothing else. -/
theorem builds_of_exec_eq_newUnit {i : Instr} {u : Byte} {s : State} {hs : List (Addr × Nat)} {argOk capOk : Bool}
    {nch : Nat} {inh : Addr} {slots : List Slot} {body : Body}
    (hi : exec i s = newUnit cfg u hs argOk capOk (freshUnit cfg nch inh slots body) s)
    (hfree : slotFree cfg s u.toNat = true) (hbind : ∀ h ∈ hs, bindOk cfg s u.toNat h.1 h.2 = true)
    (ha : argOk = true) (hc : capOk = true) (hlen : slots.length ≤ 16) :
    Builds cfg i u.toNat nch inh slots body s :=
  ⟨_, _, (hi.trans (newUnit_ok hfree hbind ha hc)).trans (done_eq _), did_putUnit cfg _ _ s,
    liveUnit_putUnit_self _ s (slotFree_iff.1 hfree).1, fresh_freshUnit cfg nch inh body hlen, rfl⟩

/-- The handle check of a constructor with one input and the stream operands `xs`. -/
theorem bindOk_of_bindable {C : Cfg} {s : State} {u : Nat} {inp : Addr} {xs : List XOp}
    (h : Bindable C s u [inp] xs) :
    ∀ p ∈ (inp, C.bufsize) :: streamHandles C xs, bindOk C s u p.1 p.2 = true :=
  List.forall_mem_cons.2
    ⟨(bindable_handles h).1 _ (List.mem_map_of_mem List.mem_cons_self), (bindable_handles h).2⟩

/-- The bands of a fresh BSPLIT, one by one: a constant quality gives them their coefficients, a streamed one leaves
them to COMPUTE (R160). -/
theorem newBsplitBody_bands (C : Cfg) (bands : Nat) (mn mx : Sample) (q : XOp) :
    (newBsplitBody C bands mn mx q).bands = (List.range (bandCount C bands)).map fun j =>
      match q with
      | .stream _ => freshBand (bandFreq C mn mx j (bandCount C bands))
      | .const c => bsCoeffs C c (freshBand (bandFreq C mn mx j (bandCount C bands))) := by
  cases q with
  | const c => exact List.map_map
  | stream h => rfl

/-- Settles O54: the handles pass their check, and each type-specific state is the one its constructor names. -/
theorem newBandSplitters : Obligations.NewBandSplitters := by
  unfold Obligations.NewBandSplitters
  intro u inp s hfree
  refine ⟨fun bands mn mx q hb => ?_, fun x1 x2 x3 hb => ?_, fun bands hb => ?_⟩
  · have hbuilt := builds_of_exec_eq_newUnit (i := .newBsplit u bands inp mn mx q) rfl hfree (bindOk_of_bindable hb)
      rfl rfl (by simp)
    have hbody : newBsplitBody cfg bands.toNat mn mx q = ⟨mn, mx, _, true⟩ :=
      congrArg (BSplit.mk mn mx · true) (newBsplitBody_bands cfg bands.toNat mn mx q)
    rw [hbody] at hbuilt
    cases q <;> exact hbuilt
  · exact builds_of_exec_eq_newUnit rfl hfree (bindOk_of_bindable hb) rfl rfl (by simp)
  · refine builds_of_exec_eq_newUnit rfl hfree (bindOk_of_bindable hb) rfl rfl ?_
    have := multibandCount_range bands.toNat
    simp only [List.length_map, List.length_range]
    omega

end Sys2Proof.Machine
end

section
/-! PROOFS. COMPUTE on a BSPLIT (41_bandsplit.md R164, R165, R168). -/

namespace Sys2Proof.Machine

open Sys2Proof.Config (cfg)

/-- One band of `bsplitSample`: its coefficients first where the quality streams, then its recurrence. -/
theorem bsplitSample_getElem? (C : Cfg) (stream : Bool) (q x : Nat → Sample) {bands : List Band} (i : Nat) {j : Nat}
    {d : Band} (hd : bands[j]? = some d) :
    (bsplitSample C stream q x bands i).1[j]? =
      some (bandStep (x i) (if stream then bsCoeffs C (q i) d else d)) := by
  cases stream <;> simp [bsplitSample, hd]

/-- The row of a sample holds the newest output of every band. -/
theorem bsplitSample_row (C : Cfg) (stream : Bool) (q x : Nat → Sample) (bands : List Band) (i : Nat) :
    (bsplitSample C stream q x bands i).2 = (bsplitSample C stream q x bands i).1.map (·.y1) := rfl

theorem bsplitSample_length (C : Cfg) (stream : Bool) (q x : Nat → Sample) (bands : List Band) (i : Nat) :
    (bsplitSample C stream q x bands i).1.length = bands.length := by
  cases stream <;> simp [bsplitSample]

/-- Settles O33: the bands before each sample are the states of the run that COMPUTE makes over the block. -/
theorem computeBsplitBlock : Obligations.ComputeBsplitBlock := by
  unfold Obligations.ComputeBsplitBlock
  intro u s U b hready hbody
  have hcomp : Computes cfg u s U (computeBsplit cfg s U b) := by
    have h := computes_of_ready hready
    rwa [computeUnit, hbody] at h
  obtain ⟨q, hq0, hstep, hend, hrow⟩ := scan_range_spec
    (bsplitSample cfg (decide ((U.slot 0).mode = .stream)) (pval cfg s U 0) (inputAt cfg s U))
    (if b.init = true then b.bands.map (primeBand (inputAt cfg s U 0)) else b.bands) cfg.bufsize
  have hlen : ∀ i, (q i).length = b.bands.length := by
    intro i
    induction i with
    | zero => rw [hq0]; split <;> simp
    | succ i ih => rw [hstep, bsplitSample_length, ih]
  refine ⟨_, q, hcomp, rfl, ?_, ?_, hq0, fun i hi => ⟨hlen (i + 1), fun j d hd => ?_⟩⟩
  · rw [← hend]; rfl
  · simp [computeBsplit, channelMajor_length]
  · have hj : j < b.bands.length := hlen i ▸ (List.getElem?_eq_some_iff.1 hd).1
    have hband := bsplitSample_getElem? cfg (decide ((U.slot 0).mode = .stream)) (pval cfg s U 0)
      (inputAt cfg s U) i hd
    have hout : (computeBsplit cfg s U b).out[j * cfg.bufsize + i]? = _ := channelMajor_at (by simp) hj hi (hrow i hi)
    rw [bsplitSample_row, List.getD_eq_getElem?_getD, List.getElem?_map, hband] at hout
    rw [← hstep] at hband
    cases hm : (U.slot 0).mode with
    | const => rw [hm] at hband hout; exact ⟨hband, hout⟩
    | stream => rw [hm] at hband hout; exact ⟨hband, hout⟩

end Sys2Proof.Machine
end

section
/-! PROOFS. One sample through the cascade of FOURBAND and MULTIBAND (41_bandsplit.md R171 to R175), section by section:
the sample each section sees, and what the section becomes. `corrPass` and `splitSample` hand one running sample from
section to section; here every section is said by its place alone. -/

namespace Sys2Proof.Machine

/-! ### The correction passes of one band (R175) -/

/-- The sample that reaches correction pass `m` of a band, when `v` enters the first: the low and the high section of
every pass below are summed. -/
def corrSignal : List Co → List Corr → Sample → Nat → Sample
  | co :: cos, c :: cs, v, m + 1 =>
    corrSignal cos cs (fadd (lr4Step co.lp co c.alp v).y1 (lr4Step co.hp co c.ahp v).y1) m
  | _, _, v, _ => v

/-- The two sections of one correction pass after the sample `v`. -/
def corrStep (co : Co) (c : Corr) (v : Sample) : Corr := ⟨lr4Step co.lp co c.alp v, lr4Step co.hp co c.ahp v⟩

@[simp] theorem corrSignal_zero (cos : List Co) (cs : List Corr) (v : Sample) : corrSignal cos cs v 0 = v := by
  cases cos <;> cases cs <;> rfl

/-- Pass `m` makes its sections' step on the sample that reaches it. -/
theorem corrPass_getElem? {cos : List Co} {cs : List Corr} {m : Nat} {co : Co} {c : Corr} (v : Sample)
    (hco : cos[m]? = some co) (hc : cs[m]? = some c) :
    (corrPass cos cs v).1[m]? = some (corrStep co c (corrSignal cos cs v m)) := by
  induction cos generalizing cs v m with
  | nil => simp at hco
  | cons co' cos ih =>
    cases cs with
    | nil => simp at hc
    | cons c' cs =>
      cases m with
      | zero => cases hco; cases hc; exact rfl
      | succ m => exact ih _ hco hc

/-- What reaches pass `m + 1` is the sum of the two new outputs of pass `m`. -/
theorem corrSignal_succ {cos : List Co} {cs : List Corr} {m : Nat} {co : Co} {c : Corr} (v : Sample)
    (hco : cos[m]? = some co) (hc : cs[m]? = some c) :
    corrSignal cos cs v (m + 1) = fadd (corrStep co c (corrSignal cos cs v m)).alp.y1
      (corrStep co c (corrSignal cos cs v m)).ahp.y1 := by
  induction cos generalizing cs v m with
  | nil => simp at hco
  | cons co' cos ih =>
    cases cs with
    | nil => simp at hc
    | cons c' cs =>
      cases m with
      | zero => cases hco; cases hc; exact corrSignal_zero cos cs _
      | succ m => exact ih _ hco hc

/-- The band's sample is what comes out of its last pass. -/
theorem corrPass_out {cos : List Co} {cs : List Corr} (v : Sample) (h : cos.length = cs.length) :
    (corrPass cos cs v).2 = corrSignal cos cs v cs.length := by
  induction cos generalizing cs v with
  | nil => cases List.eq_nil_of_length_eq_zero h.symm; rfl
  | cons co cos ih =>
    cases cs with
    | nil => simp at h
    | cons c cs => exact ih _ (Nat.succ.inj h)

/-! ### The boundaries (R174) -/

/-- Boundary `k`. -/
def boundaryAt (bs : List Boundary) (k : Nat) : Boundary := bs.getD k ⟨fNeg1, zeroCo, zeroSec, zeroSec, []⟩

/-- The sections of band `k` in its correction pass at boundary `j` (10_state.md R32: they are kept from `k + 1` on). -/
def corrAt (bs : List Boundary) (k j : Nat) : Corr := (boundaryAt bs k).corr.getD (j - (k + 1)) ⟨zeroSec, zeroSec⟩

theorem boundaryAt_of_getElem? {bs : List Boundary} {k : Nat} {b : Boundary} (h : bs[k]? = some b) :
    boundaryAt bs k = b := by
  rw [boundaryAt, List.getD_eq_getElem?_getD, h, Option.getD_some]

theorem getElem?_boundaryAt {bs : List Boundary} {k : Nat} (hk : k < bs.length) : bs[k]? = some (boundaryAt bs k) := by
  rw [boundaryAt, List.getD_eq_getElem _ _ hk, List.getElem?_eq_getElem hk]

theorem corrAt_of_getElem? {bs : List Boundary} {k m : Nat} {c : Corr} (h : (boundaryAt bs k).corr[m]? = some c) :
    corrAt bs k (k + 1 + m) = c := by
  rw [corrAt, Nat.add_sub_cancel_left, List.getD_eq_getElem?_getD, h, Option.getD_some]

/-- The sample that reaches boundary `k`, when `x` enters the first: the high section of every boundary below passes its
output up. -/
def splitSignal : List Boundary → Sample → Nat → Sample
  | b :: bs, x, k + 1 => splitSignal bs (lr4Step b.co.hp b.co b.hps x).y1 k
  | _, x, _ => x

/-- Boundary `b` after the sample `x`; `above` are the coefficients of the boundaries above it. -/
def boundaryStep (above : List Co) (b : Boundary) (x : Sample) : Boundary :=
  { b with
    lps := lr4Step b.co.lp b.co b.lps x
    hps := lr4Step b.co.hp b.co b.hps x
    corr := (corrPass above b.corr (lr4Step b.co.lp b.co b.lps x).y1).1 }

/-- The coefficients of the boundaries above boundary `k`. -/
def cosAbove (bs : List Boundary) (k : Nat) : List Co := (bs.drop (k + 1)).map (·.co)

@[simp] theorem splitSignal_zero (bs : List Boundary) (x : Sample) : splitSignal bs x 0 = x := by
  cases bs <;> rfl

/-- Every boundary makes its step on the sample that reaches it. -/
theorem boundaryAt_splitSample {bs : List Boundary} {k : Nat} (x : Sample) (hk : k < bs.length) :
    boundaryAt (splitSample bs x).1 k = boundaryStep (cosAbove bs k) (boundaryAt bs k) (splitSignal bs x k) := by
  induction bs generalizing x k with
  | nil => exact absurd hk (Nat.not_lt_zero k)
  | cons b bs ih =>
    cases k with
    | zero => rfl
    | succ k => exact ih _ (Nat.lt_of_succ_lt_succ hk)

/-- What reaches boundary `k + 1` is the new output of the high section of boundary `k`. -/
theorem splitSignal_succ {bs : List Boundary} {k : Nat} (x : Sample) (hk : k < bs.length) :
    splitSignal bs x (k + 1) = (boundaryAt (splitSample bs x).1 k).hps.y1 := by
  induction bs generalizing x k with
  | nil => exact absurd hk (Nat.not_lt_zero k)
  | cons b bs ih =>
    cases k with
    | zero => exact splitSignal_zero bs _
    | succ k => exact ih _ (Nat.lt_of_succ_lt_succ hk)

/-! ### The bands -/

/-- The sample of band `k` that reaches its correction pass at boundary `j`. -/
def bandSignal (bs : List Boundary) (x : Sample) (k j : Nat) : Sample :=
  corrSignal (cosAbove bs k) (boundaryAt bs k).corr (boundaryAt (splitSample bs x).1 k).lps.y1 (j - (k + 1))

/-- The first correction pass of a band sees the new output of its low section. -/
theorem bandSignal_first (bs : List Boundary) (x : Sample) (k : Nat) :
    bandSignal bs x k (k + 1) = (boundaryAt (splitSample bs x).1 k).lps.y1 := by
  rw [bandSignal, Nat.sub_self, corrSignal_zero]

/-- Band `k` has a correction pass at each boundary above it. -/
theorem length_corr_boundaryAt {bs : List Boundary} {k : Nat} (h : boundsShaped bs) (hk : k < bs.length) :
    (boundaryAt bs k).corr.length = bs.length - (k + 1) := by
  induction bs generalizing k with
  | nil => exact absurd hk (Nat.not_lt_zero k)
  | cons b bs ih =>
    cases k with
    | zero => exact h.1
    | succ k =>
      rw [List.length_cons, Nat.add_sub_add_right]
      exact ih h.2 (Nat.lt_of_succ_lt_succ hk)

theorem cosAbove_getElem? {bs : List Boundary} {k j : Nat} (hkj : k < j) (hj : j < bs.length) :
    (cosAbove bs k)[j - (k + 1)]? = some (boundaryAt bs j).co := by
  rw [cosAbove, List.getElem?_map, List.getElem?_drop, Nat.add_sub_of_le hkj, getElem?_boundaryAt hj]
  rfl

theorem corr_getElem?_corrAt {bs : List Boundary} {k j : Nat} (h : boundsShaped bs) (hkj : k < j) (hj : j < bs.length) :
    (boundaryAt bs k).corr[j - (k + 1)]? = some (corrAt bs k j) := by
  have hlt : j - (k + 1) < (boundaryAt bs k).corr.length := by
    rw [length_corr_boundaryAt h (hkj.trans hj)]; omega
  rw [corrAt, List.getD_eq_getElem _ _ hlt, List.getElem?_eq_getElem hlt]

/-- The correction pass of band `k` at boundary `j` makes its step on the sample that reaches it. -/
theorem corrAt_splitSample {bs : List Boundary} {k j : Nat} (x : Sample) (h : boundsShaped bs) (hkj : k < j)
    (hj : j < bs.length) :
    corrAt (splitSample bs x).1 k j = corrStep (boundaryAt bs j).co (corrAt bs k j) (bandSignal bs x k j) := by
  have hk := hkj.trans hj
  have hpass := corrPass_getElem? (boundaryAt (splitSample bs x).1 k).lps.y1 (cosAbove_getElem? hkj hj)
    (corr_getElem?_corrAt h hkj hj)
  rw [corrAt, List.getD_eq_getElem?_getD, bandSignal]
  rw [boundaryAt_splitSample x hk] at hpass ⊢
  exact congrArg (Option.getD · _) hpass

/-- What reaches the next correction pass is the sum of the two new outputs of this one. -/
theorem bandSignal_succ {bs : List Boundary} {k j : Nat} (x : Sample) (h : boundsShaped bs) (hkj : k < j)
    (hj : j < bs.length) :
    bandSignal bs x k (j + 1) =
      fadd (corrAt (splitSample bs x).1 k j).alp.y1 (corrAt (splitSample bs x).1 k j).ahp.y1 := by
  rw [corrAt_splitSample x h hkj hj, bandSignal, Nat.sub_add_comm hkj]
  exact corrSignal_succ _ (cosAbove_getElem? hkj hj) (corr_getElem?_corrAt h hkj hj)

/-! ### The row of a sample -/

/-- Band `k` of the row is what comes out of its correction pass at the last boundary. -/
theorem splitSample_row {bs : List Boundary} {k : Nat} (x : Sample) (h : boundsShaped bs) (hk : k < bs.length) :
    (splitSample bs x).2[k]? = some (bandSignal bs x k bs.length) := by
  induction bs generalizing x k with
  | nil => exact absurd hk (Nat.not_lt_zero k)
  | cons b bs ih =>
    cases k with
    | zero =>
      have hout := corrPass_out (lr4Step b.co.lp b.co b.lps x).y1
        (show (bs.map (·.co)).length = b.corr.length by rw [List.length_map, h.1])
      rw [h.1] at hout
      exact congrArg some hout
    | succ k =>
      rw [bandSignal, List.length_cons, Nat.add_sub_add_right]
      exact ih _ h.2 (Nat.lt_of_succ_lt_succ hk)

/-- The top band of the row is what the last boundary passes up. -/
theorem splitSample_top (bs : List Boundary) (x : Sample) :
    (splitSample bs x).2[bs.length]? = some (splitSignal bs x bs.length) := by
  induction bs generalizing x with
  | nil => rfl
  | cons b bs ih => exact ih _

end Sys2Proof.Machine
end

section
/-! PROOFS. COMPUTE on a FOURBAND or MULTIBAND (41_bandsplit.md R173 to R175, R178, R179): the refresh, then the cascade
over the block. -/

namespace Sys2Proof.Machine

open Sys2Proof.Config (cfg)

/-! ### The refresh of the coefficients (R173) -/

section refresh
variable (C : Cfg) (f : Sample) (b : Boundary)

@[simp] theorem refreshBoundary_lps : (refreshBoundary C f b).lps = b.lps := by unfold refreshBoundary; split <;> rfl

@[simp] theorem refreshBoundary_hps : (refreshBoundary C f b).hps = b.hps := by unfold refreshBoundary; split <;> rfl

@[simp] theorem refreshBoundary_corr : (refreshBoundary C f b).corr = b.corr := by unfold refreshBoundary; split <;> rfl

theorem refreshBoundary_co :
    (refreshBoundary C f b).co = if fne f b.last then C.lr4Coeffs (bandClamp C f) C.sr else b.co := by
  unfold refreshBoundary; split <;> rfl

theorem refreshBoundary_last : (refreshBoundary C f b).last = if fne f b.last then f else b.last := by
  unfold refreshBoundary; split <;> rfl

end refresh

/-- Every boundary is refreshed with its own parameter. -/
theorem boundaryAt_refreshCoeffs (C : Cfg) (f : Nat → Sample) {bs : List Boundary} (n : Nat) {k : Nat} {b : Boundary}
    (h : bs[k]? = some b) : boundaryAt (refreshCoeffs C f n bs) k = refreshBoundary C (f (n + k)) b := by
  induction bs generalizing n k with
  | nil => simp at h
  | cons b' bs ih =>
    cases k with
    | zero => cases h; rfl
    | succ k => rw [Nat.add_comm k 1, ← Nat.add_assoc, Nat.add_comm 1 k]; exact ih (n + 1) h

/-! ### The cascade over a block (R178) -/

/-- `q i` are the boundaries before sample `x i` of a run of the cascade that starts from sound ones. -/
structure CascadeRun (q : Nat → List Boundary) (x : Nat → Sample) : Prop where
  shaped_start : boundsShaped (q 0)
  step : ∀ i, q (i + 1) = (splitSample (q i) (x i)).1

namespace CascadeRun
variable {q : Nat → List Boundary} {x : Nat → Sample} (h : CascadeRun q x)
include h

theorem shaped (i : Nat) : boundsShaped (q i) := by
  induction i with
  | zero => exact h.shaped_start
  | succ i ih => rw [h.step]; exact boundsShaped_of_sameShape (splitSample_shape _ _ ih) ih

theorem length_eq (i : Nat) : (q i).length = (q 0).length := by
  induction i with
  | zero => rfl
  | succ i ih => rw [h.step, ← sameShape_length (splitSample_shape _ (x i) (h.shaped i)), ih]

/-- No sample changes the coefficients of a boundary or the parameter they were made for. -/
theorem fixed {k : Nat} (hk : k < (q 0).length) (i : Nat) :
    (boundaryAt (q i) k).co = (boundaryAt (q 0) k).co ∧ (boundaryAt (q i) k).last = (boundaryAt (q 0) k).last := by
  induction i with
  | zero => exact ⟨rfl, rfl⟩
  | succ i ih =>
    rw [h.step, boundaryAt_splitSample _ (h.length_eq i ▸ hk)]
    exact ih

/-- The main sections of boundary `k` make their step on what reaches it; the low one starts band `k`, the high one
passes its output up. -/
theorem main_step {k : Nat} (hk : k < (q 0).length) (i : Nat) :
    (boundaryAt (q (i + 1)) k).lps = lr4Step (boundaryAt (q 0) k).co.lp (boundaryAt (q 0) k).co
        (boundaryAt (q i) k).lps (splitSignal (q i) (x i) k) ∧
      (boundaryAt (q (i + 1)) k).hps = lr4Step (boundaryAt (q 0) k).co.hp (boundaryAt (q 0) k).co
        (boundaryAt (q i) k).hps (splitSignal (q i) (x i) k) ∧
      splitSignal (q i) (x i) (k + 1) = (boundaryAt (q (i + 1)) k).hps.y1 ∧
      bandSignal (q i) (x i) k (k + 1) = (boundaryAt (q (i + 1)) k).lps.y1 := by
  have hki := h.length_eq i ▸ hk
  rw [splitSignal_succ _ hki, bandSignal_first, h.step, boundaryAt_splitSample _ hki, ← (h.fixed hk i).1]
  exact ⟨rfl, rfl, rfl, rfl⟩

/-- The correction sections of band `k` at boundary `j` make their step on what reaches them, and pass their sum on. -/
theorem correction_step {k j : Nat} (hkj : k < j) (hj : j < (q 0).length) (i : Nat) :
    corrAt (q (i + 1)) k j =
        corrStep (boundaryAt (q 0) j).co (corrAt (q i) k j) (bandSignal (q i) (x i) k j) ∧
      bandSignal (q i) (x i) k (j + 1) = fadd (corrAt (q (i + 1)) k j).alp.y1 (corrAt (q (i + 1)) k j).ahp.y1 := by
  have hji := h.length_eq i ▸ hj
  rw [bandSignal_succ _ (h.shaped i) hkj hji, h.step, corrAt_splitSample _ (h.shaped i) hkj hji, (h.fixed hj i).1]
  exact ⟨rfl, rfl⟩

end CascadeRun

/-- COMPUTE on a FOURBAND or MULTIBAND is the block through the cascade. -/
theorem computeUnit_of_split (C : Cfg) (s : State) {U : DspUnit} {b : Split}
    (h : U.body = .fourband b ∨ U.body = .multiband b) :
    computeUnit C s U =
      { U with
        out := channelMajor (b.bounds.length + 1) (splitBlock C s U b).2
        body := match U.body with
          | .fourband _ => .fourband ⟨(splitBlock C s U b).1⟩
          | _ => .multiband ⟨(splitBlock C s U b).1⟩ } := by
  rcases h with h | h <;> simp only [computeUnit, h] <;> rfl

/-- The boundaries of a sound FOURBAND or MULTIBAND have the shape of R32. -/
theorem boundsShaped_of_wf {C : Cfg} {u : Nat} {U : DspUnit} {b : Split} (hU : U.Wf C u)
    (h : U.body = .fourband b ∨ U.body = .multiband b) : boundsShaped b.bounds := by
  have hb := hU.body
  rcases h with h | h <;> rw [h] at hb
  · exact hb.2
  · exact hb.2.2

/-- A block is a run of the cascade from the refreshed boundaries; what it writes is the row of each sample. -/
theorem splitBlock_run (C : Cfg) (s : State) (U : DspUnit) {b : Split} (hb : boundsShaped b.bounds) :
    ∃ q, CascadeRun q (inputAt C s U) ∧ q 0 = refreshCoeffs C (pval0 C s U) 0 b.bounds ∧
      (splitBlock C s U b).1 = q C.bufsize ∧
      ∀ i c y, i < C.bufsize → c < b.bounds.length + 1 → (splitSample (q i) (inputAt C s U i)).2[c]? = some y →
        (channelMajor (b.bounds.length + 1) (splitBlock C s U b).2)[c * C.bufsize + i]? = some y := by
  obtain ⟨q, hq0, hstep, hend, hrow⟩ := scan_range_spec (fun bs i => splitSample bs (inputAt C s U i))
    (refreshCoeffs C (pval0 C s U) 0 b.bounds) C.bufsize
  refine ⟨q, ⟨?_, hstep⟩, hq0, hend, fun i c y hi hc hy => ?_⟩
  · rw [hq0]; exact boundsShaped_of_sameShape (refreshCoeffs_shape C _ 0 b.bounds) hb
  · rw [splitBlock, channelMajor_at (by simp) hc hi (hrow i hi), List.getD_eq_getElem?_getD, hy, Option.getD_some]

/-- Settles O34: the boundaries before each sample are the states of the run that COMPUTE makes over the block, and
each section is told by its place in them. -/
theorem computeSplitSectionBySection : Obligations.ComputeSplitSectionBySection := by
  unfold Obligations.ComputeSplitSectionBySection
  intro u s U b hs hready hbody
  have hshaped := boundsShaped_of_wf (hs.liveUnit_wf hready.1) hbody
  have hcomp := computes_of_ready hready
  rw [computeUnit_of_split cfg s hbody] at hcomp
  obtain ⟨q, hrun, hq0, hend, hout⟩ := splitBlock_run cfg s U hshaped
  have hlen : ∀ i, (q i).length = b.bounds.length := fun i => by
    rw [hrun.length_eq, hq0, ← sameShape_length (refreshCoeffs_shape cfg _ 0 b.bounds)]
  have hstart : ∀ {k d}, b.bounds[k]? = some d → boundaryAt (q 0) k = refreshBoundary cfg (pval cfg s U k 0) d :=
    fun hd => by rw [hq0, boundaryAt_refreshCoeffs cfg _ 0 hd, Nat.zero_add, pval0]
  refine ⟨_, ⟨(splitBlock cfg s U b).1⟩, fun k => (boundaryAt (q 0) k).co, fun k i => (boundaryAt (q i) k).lps,
    fun k i => (boundaryAt (q i) k).hps, fun k j i => (corrAt (q i) k j).alp, fun k j i => (corrAt (q i) k j).ahp,
    fun k i => splitSignal (q i) (inputAt cfg s U i) k, fun k j i => bandSignal (q i) (inputAt cfg s U i) k j,
    hcomp, rfl, rfl, hend ▸ hlen _, ?out_length, fun k d hd => ?start,
    fun i hi => ⟨splitSignal_zero _ _, fun k hk => ?sections, ?top⟩, fun k d d' hd hd' => ?final⟩
  case out_length => simp [channelMajor_length, splitBlock]
  case start =>
    simp only [hstart hd, refreshBoundary_lps, refreshBoundary_hps, true_and]
    refine ⟨refreshBoundary_co cfg _ d, fun m c hc => ?_⟩
    rw [corrAt_of_getElem? (c := c) (by rw [hstart hd, refreshBoundary_corr, hc])]
    exact ⟨rfl, rfl⟩
  case sections =>
    obtain ⟨hlow, hhigh, hup, hfirst⟩ := hrun.main_step (hlen 0 ▸ hk) i
    refine ⟨hlow, hhigh, hup, hfirst, fun j hkj hj => ?_, ?_⟩
    · obtain ⟨hpass, hsum⟩ := hrun.correction_step hkj (hlen 0 ▸ hj) i
      exact ⟨congrArg Corr.alp hpass, congrArg Corr.ahp hpass, hsum⟩
    · exact hout i k _ hi (Nat.lt_succ_of_lt hk)
        (hlen i ▸ splitSample_row _ (hrun.shaped i) (hlen i ▸ hk))
  case top => exact hout i _ _ hi (Nat.lt_succ_self _) (hlen i ▸ splitSample_top _ _)
  case final =>
    have hk : k < b.bounds.length := (List.getElem?_eq_some_iff.1 hd).1
    have hd' : boundaryAt (q cfg.bufsize) k = d' := boundaryAt_of_getElem? (hend ▸ hd')
    obtain ⟨hco, hlast⟩ := hrun.fixed (hlen 0 ▸ hk) cfg.bufsize
    subst hd'
    refine ⟨hco, rfl, rfl, ?_, ?_, fun m c hc => ?_⟩
    · rw [hlast, hstart hd, refreshBoundary_last]
    · rw [length_corr_boundaryAt (hrun.shaped _) (hlen _ ▸ hk), hlen, ← length_corr_boundaryAt hshaped hk,
        boundaryAt_of_getElem? hd]
    · have hsame := corrAt_of_getElem? hc
      exact ⟨congrArg Corr.alp hsame.symm, congrArg Corr.ahp hsame.symm⟩

end Sys2Proof.Machine
end

section
/-! PROOFS. Exact cases of the arithmetic of Samples (00_scope.md R6, R8): where a product by `1.0` or `0.0`, a sum with
a zero and a sum with the negation give a Sample that needs no rounding. -/

namespace Sys2Proof

/-! ### The parts of a Sample -/

theorem signBit_eq_decide (s : Sample) : signBit s = decide (2 ^ 31 ≤ s.toNat) :=
  (BitVec.msb_eq_getLsbD_last s).symm.trans (BitVec.msb_eq_decide s)

theorem isZero_iff {s : Sample} : isZero s = true ↔ magBits s = 0 := by simp [isZero]

theorem isFinite_iff {s : Sample} : isFinite s = true ↔ magBits s < 0x7F800000 := by simp [isFinite]

theorem isNaN_of_isFinite {s : Sample} (h : isFinite s = true) : isNaN s = false := by
  simp only [isNaN, decide_eq_false_iff_not]
  have := isFinite_iff.1 h
  omega

theorem isInf_of_isFinite {s : Sample} (h : isFinite s = true) : isInf s = false := by
  simp only [isInf, decide_eq_false_iff_not]
  have := isFinite_iff.1 h
  omega

/-- A Sample is its sign and its magnitude. -/
theorem withSign_parts (s : Sample) : withSign (signBit s) (magBits s) = s := by
  apply BitVec.eq_of_toNat_eq
  have hlt : s.toNat < 2 ^ 32 := s.isLt
  rw [signBit_eq_decide, withSign, BitVec.toNat_ofNat, magBits]
  by_cases h : 2 ^ 31 ≤ s.toNat
  · rw [if_pos (decide_eq_true h)]; omega
  · rw [if_neg (by simpa using h)]; omega

theorem zeroOf_signBit {s : Sample} (h : isZero s = true) : zeroOf (signBit s) = s := by
  have hs := withSign_parts s
  rwa [isZero_iff.1 h] at hs

/-- The magnitude of a Sample is a multiple `m` of a power of two, of 24 leading bits unless the exponent is the least;
its bits below the sign are that exponent and `m`, added. -/
theorem exists_scaledMag (s : Sample) : ∃ e m : Nat, scaledMag s = m * 2 ^ e ∧ magBits s = e * 2 ^ 23 + m ∧
    m < 2 ^ 24 ∧ (e = 0 ∨ 2 ^ 23 ≤ m) := by
  unfold scaledMag expField fracField magBits
  by_cases h : s.toNat / 2 ^ 23 % 2 ^ 8 = 0
  · exact ⟨0, s.toNat % 2 ^ 23, by rw [if_pos h, Nat.pow_zero, Nat.mul_one], by omega, by omega, .inl rfl⟩
  · exact ⟨s.toNat / 2 ^ 23 % 2 ^ 8 - 1, 2 ^ 23 + s.toNat % 2 ^ 23, if_neg h, by omega, by omega, .inr (by omega)⟩

theorem scaledMag_eq_zero_iff {s : Sample} : scaledMag s = 0 ↔ magBits s = 0 := by
  obtain ⟨e, m, hscaled, hbits, -, he⟩ := exists_scaledMag s
  have hpos := Nat.two_pow_pos e
  rw [hscaled, hbits, Nat.mul_eq_zero]
  omega

theorem natAbs_scaled (s : Sample) : (scaled s).natAbs = scaledMag s := by
  unfold scaled; split <;> omega

theorem scaled_eq_zero_iff {s : Sample} : scaled s = 0 ↔ isZero s = true := by
  rw [← Int.natAbs_eq_zero, natAbs_scaled, scaledMag_eq_zero_iff, isZero_iff]

/-- The sign of the value of a Sample that is not a zero is its sign bit. -/
theorem decide_scaled_neg {s : Sample} (h : isZero s = false) : decide (scaled s < 0) = signBit s := by
  have hne : scaled s ≠ 0 := fun h0 => by simp [scaled_eq_zero_iff.1 h0] at h
  unfold scaled at hne ⊢
  cases hs : signBit s <;> simp_all
  omega

/-! ### Negation -/

@[simp] theorem signBit_fneg (s : Sample) : signBit (fneg s) = !signBit s := by simp [signBit, fneg]

@[simp] theorem magBits_fneg (s : Sample) : magBits (fneg s) = magBits s := by
  rw [magBits, fneg, BitVec.toNat_xor, Nat.xor_mod_two_pow]
  simp [magBits]

@[simp] theorem isFinite_fneg (s : Sample) : isFinite (fneg s) = isFinite s := by simp [isFinite]

@[simp] theorem scaledMag_fneg (s : Sample) : scaledMag (fneg s) = scaledMag s := by
  have hexp : ∀ t : Sample, expField t = magBits t / 2 ^ 23 := fun t => by unfold expField magBits; omega
  have hfrac : ∀ t : Sample, fracField t = magBits t % 2 ^ 23 := fun t => by unfold fracField magBits; omega
  simp only [scaledMag, hexp, hfrac, magBits_fneg]

@[simp] theorem scaled_fneg (s : Sample) : scaled (fneg s) = -scaled s := by
  cases hs : signBit s <;> simp [scaled, hs]

/-! ### Rounding what a Sample holds exactly -/

/-- A multiple of the unit of rounding is not rounded. -/
theorem roundShift_exact (q sh : Nat) : roundShift (q * 2 ^ sh) sh false = q := by
  have hpos := Nat.two_pow_pos sh
  unfold roundShift
  simp only [Nat.mul_div_cancel _ hpos, Nat.mul_mod_left]
  simp [hpos.ne]

theorem log2_mul_two_pow {m : Nat} (hm : m ≠ 0) (j : Nat) : (m * 2 ^ j).log2 = m.log2 + j := by
  induction j with
  | zero => simp
  | succ j ih => rw [Nat.pow_succ', Nat.mul_left_comm, Nat.log2_two_mul (by positivity), ih, Nat.add_assoc]

/-- Rounding the magnitude of a finite Sample, in any smaller unit, gives that Sample. -/
theorem roundMag_scaledMag {s : Sample} (hf : isFinite s = true) (hz : isZero s = false) (neg : Bool) (k : Nat) :
    roundMag neg (scaledMag s * 2 ^ k) k false = withSign neg (magBits s) := by
  obtain ⟨e, m, hscaled, hbits, hm, he⟩ := exists_scaledMag s
  have hfin := isFinite_iff.1 hf
  have hm0 : m ≠ 0 := by
    rintro rfl
    have hnz : magBits s ≠ 0 := fun h0 => by simp [isZero_iff.2 h0] at hz
    omega
  have hle : m.log2 < 24 := (Nat.log2_lt hm0).2 hm
  have hge : e = 0 ∨ 23 ≤ m.log2 := he.imp_right (Nat.le_log2 hm0).2
  have hsh : max ((m * 2 ^ (e + k)).log2 - 23) k = e + k := by rw [log2_mul_two_pow hm0]; omega
  rw [roundMag, hscaled, Nat.mul_assoc, ← Nat.pow_add, hsh, roundShift_exact, Nat.add_sub_cancel, ← hbits,
    Nat.min_eq_left (by omega)]

/-- A value a finite Sample has is rounded to that Sample; zero takes the sign it is given. -/
theorem roundScaled_scaled {s : Sample} (hf : isFinite s = true) (neg : Bool) :
    roundScaled (scaled s) neg = if isZero s then zeroOf neg else s := by
  cases hz : isZero s with
  | true => exact if_pos (scaled_eq_zero_iff.2 hz)
  | false =>
    have hround := roundMag_scaledMag hf hz (signBit s) 0
    rw [Nat.pow_zero, Nat.mul_one, withSign_parts] at hround
    rw [roundScaled, if_neg (fun h0 => by simp [scaled_eq_zero_iff.1 h0] at hz), decide_scaled_neg hz, natAbs_scaled,
      hround]
    rfl

/-! ### Sums and products -/

/-- The sum of finite Samples is that of their values, rounded once. -/
theorem fadd_of_finite {a b : Sample} (ha : isFinite a = true) (hb : isFinite b = true) :
    fadd a b = roundScaled (scaled a + scaled b) (signBit a && signBit b) := by
  simp [fadd, addCore, isNaN_of_isFinite, isInf_of_isFinite, ha, hb]

/-- A Sample and its negation sum to `+0.0`. -/
theorem fadd_fneg {a : Sample} (ha : isFinite a = true) : fadd a (fneg a) = f0 := by
  rw [fadd_of_finite ha (by simpa using ha), scaled_fneg, signBit_fneg, Int.add_right_neg, Bool.and_not_self]
  rfl

/-- A product by `1.0` is the other factor. -/
theorem fmul_one {a : Sample} (ha : isFinite a = true) : fmul a f1 = a := by
  have hmag : scaledMag f1 = 2 ^ 149 := by decide
  have hone : isNaN f1 = false ∧ isInf f1 = false ∧ isZero f1 = false ∧ signBit f1 = false := by decide
  obtain ⟨hnan, hinf, hzero, hsign⟩ := hone
  cases hz : isZero a with
  | true => simp [fmul, isNaN_of_isFinite, isInf_of_isFinite, ha, hz, hnan, hinf, hsign, zeroOf_signBit]
  | false =>
    have hround := roundMag_scaledMag ha hz (signBit a) 149
    rw [withSign_parts, ← hmag] at hround
    simp [fmul, isNaN_of_isFinite, isInf_of_isFinite, ha, hz, hnan, hinf, hzero, hsign, hround]

/-- A product by `+0.0` is the zero of the other factor's sign. -/
theorem fmul_zero {a : Sample} (ha : isFinite a = true) : fmul a f0 = zeroOf (signBit a) := by
  have hzero : isNaN f0 = false ∧ isInf f0 = false ∧ isZero f0 = true ∧ signBit f0 = false := by decide
  obtain ⟨hnan, hinf, hz, hsign⟩ := hzero
  simp [fmul, isNaN_of_isFinite, isInf_of_isFinite, ha, hnan, hinf, hz, hsign]

/-- Adding a zero of either sign leaves every finite Sample but `-0.0` as it is. -/
theorem fadd_zeroOf {a : Sample} (ha : isFinite a = true) (hne : a ≠ 0x80000000#32) (neg : Bool) :
    fadd a (zeroOf neg) = a := by
  have hzero : isFinite (zeroOf neg) = true ∧ scaled (zeroOf neg) = 0 := by cases neg <;> decide
  rw [fadd_of_finite ha hzero.1, hzero.2, Int.add_zero, roundScaled_scaled ha]
  cases hz : isZero a with
  | false => rfl
  | true =>
    have ha0 := zeroOf_signBit hz
    cases hs : signBit a with
    | true => rw [hs] at ha0; exact absurd ha0.symm hne
    | false => rw [hs] at ha0; exact ha0

/-- A finite Sample added to `+0.0` is that Sample, `-0.0` becoming `+0.0`. -/
theorem zero_fadd {a : Sample} (ha : isFinite a = true) : fadd f0 a = if a = 0x80000000#32 then f0 else a := by
  have hzero : isFinite f0 = true ∧ scaled f0 = 0 ∧ signBit f0 = false := by decide
  obtain ⟨hfin, hval, hsign⟩ := hzero
  rw [fadd_of_finite hfin ha, hval, Int.zero_add, hsign, Bool.false_and, roundScaled_scaled ha]
  cases hz : isZero a with
  | true =>
    have ha0 := zeroOf_signBit hz
    cases hs : signBit a <;> rw [hs] at ha0 <;> subst ha0 <;> decide
  | false =>
    have hne : a ≠ 0x80000000#32 := by rintro rfl; exact absurd hz (by decide)
    rw [if_neg hne]; rfl

end Sys2Proof
end

section
/-! PROOFS. The convolution engine (42_convolution.md R200 to R202): what its ring holds, what a block through it gives,
and the impulses that reproduce or silence the input. -/

namespace Sys2Proof.Machine

open Sys2Proof.Config (cfg)

/-! ### A block through the engine (R200) -/

/-- A run of an engine that makes one ConvStep per sample: the ring keeps its length, the impulse is not written. -/
theorem convRun_fixed {q : Nat → Engine} {x : Nat → Sample} (hstep : ∀ i, q (i + 1) = (convStep (q i) (x i)).1)
    (i : Nat) : (q i).ring.length = (q 0).ring.length ∧ (q i).imp = (q 0).imp := by
  induction i with
  | zero => exact ⟨rfl, rfl⟩
  | succ i ih => rw [hstep, convStep_ring_length]; exact ih

/-- The partial sum of R200: the first `n` terms, added from `+0.0` upward. -/
def convPartial (ring imp : List Sample) (wc n : Nat) : Sample :=
  (List.range n).foldl
    (fun acc k => fadd acc (fmul (ring.getD (ringIndex wc k ring.length) f0) (imp.getD k f0))) f0

theorem convSum_eq_convPartial (ring imp : List Sample) (wc : Nat) :
    convSum ring imp wc = convPartial ring imp wc ring.length := rfl

theorem convPartial_succ (ring imp : List Sample) (wc n : Nat) :
    convPartial ring imp wc (n + 1) = fadd (convPartial ring imp wc n)
      (fmul (ring.getD (ringIndex wc n ring.length) f0) (imp.getD n f0)) := by
  simp [convPartial, List.range_succ]

/-- A block is the run of R200, sample by sample. -/
theorem convBlock_runs (C : Cfg) (x : Nat → Sample) (e : Engine) :
    e.Runs x C.bufsize (convBlock C x e).1 (convBlock C x e).2 := by
  obtain ⟨q, hq0, hstep, hend, hout⟩ := scan_range_spec (fun e i => convStep e (x i)) e C.bufsize
  have hfixed := convRun_fixed hstep
  rw [hq0] at hfixed
  refine ⟨fun i => (q i).ring, fun i => (q i).wc,
    fun i => convPartial (q (i + 1)).ring e.imp (q i).wc, congrArg Engine.ring hq0, congrArg Engine.wc hq0,
    fun i hi => ⟨congrArg Engine.ring (hstep i), ?cursor, rfl, fun k hk => ?term, ?output⟩,
    convBlock_length C x e, ?final⟩
  case cursor => rw [← (hfixed i).1]; exact congrArg Engine.wc (hstep i)
  case term => exact (hfixed (i + 1)).1 ▸ convPartial_succ (q (i + 1)).ring e.imp (q i).wc k
  case output =>
    have hsum : (convStep (q i) (x i)).2 = convPartial (q (i + 1)).ring e.imp (q i).wc e.ring.length := by
      rw [← (hfixed (i + 1)).1, ← (hfixed i).2, hstep]; rfl
    exact (hout i hi).trans (congrArg some hsum)
  case final => rw [convBlock, hend, ← (hfixed C.bufsize).2]

/-- Settles O35: both types run their engine over the block, from the impulse they hold. -/
theorem computeFixedImpulse : Obligations.ComputeFixedImpulse := by
  unfold Obligations.ComputeFixedImpulse
  intro u s U hready
  have hcomp := computes_of_ready hready
  refine ⟨fun e hbody => ?_, fun g hbody => ?_⟩
  · rw [computeUnit, hbody] at hcomp
    exact ⟨_, _, hcomp, rfl, rfl, convBlock_runs cfg _ e⟩
  · rw [computeUnit, hbody] at hcomp
    exact ⟨_, _, hcomp, rfl, rfl, convBlock_runs cfg _ g.eng⟩

/-! ### What the ring holds (R201) -/

/-- The place in a ring of `N` of the input of `d` calls ago, under the cursor `wc`. -/
def agoIndex (wc N d : Nat) : Nat := (wc + 2 * N - 1 - d) % N

theorem agoIndex_eq {wc N d : Nat} (hwc : wc < N) (hd : d < N) :
    agoIndex wc N d = if d < wc then wc - 1 - d else wc + N - 1 - d := by
  unfold agoIndex
  split
  · rw [show wc + 2 * N - 1 - d = wc - 1 - d + N * 2 by omega, Nat.add_mul_mod_self_left, Nat.mod_eq_of_lt (by omega)]
  · rw [show wc + 2 * N - 1 - d = wc + N - 1 - d + N by omega, Nat.add_mod_right, Nat.mod_eq_of_lt (by omega)]

/-- Moving the cursor on: the place it leaves is that of the newest input, and every other input is one call older. -/
theorem agoIndex_next {wc N : Nat} (hwc : wc < N) :
    agoIndex ((wc + 1) % N) N 0 = wc ∧
      ∀ d, d + 1 < N → agoIndex ((wc + 1) % N) N (d + 1) = agoIndex wc N d ∧ agoIndex wc N d ≠ wc := by
  have hnext : (wc + 1) % N = if wc + 1 = N then 0 else wc + 1 := by
    split <;> rename_i h
    · rw [h, Nat.mod_self]
    · rw [Nat.mod_eq_of_lt (by omega)]
  have hlt : (wc + 1) % N < N := Nat.mod_lt _ (by omega)
  refine ⟨?_, fun d hd => ?_⟩
  · rw [agoIndex_eq hlt (by omega), hnext]; split <;> split <;> omega
  · rw [agoIndex_eq hlt hd, agoIndex_eq hwc (by omega), hnext]
    constructor
    · split <;> split <;> split <;> omega
    · split <;> omega

/-- The engine has a ring of `N` that holds the last of the inputs `x 0, .., x (m-1)` under its cursor. -/
structure Engine.Holds (N : Nat) (x : Nat → Sample) (m : Nat) (e : Engine) : Prop where
  wc_lt : e.wc < N
  length_eq : e.ring.length = N
  ring_at : ∀ d, d < N → e.ring[agoIndex e.wc N d]? = some (if d < m then x (m - 1 - d) else f0)

theorem freshEngine_holds {N : Nat} (hN : 1 ≤ N) (taps : List Sample) (x : Nat → Sample) :
    (freshEngine taps N).Holds N x 0 where
  wc_lt := hN
  length_eq := List.length_replicate
  ring_at _ _ := List.getElem?_replicate_of_lt (Nat.mod_lt _ hN)

theorem convStep_holds {N m : Nat} {x : Nat → Sample} {e : Engine} (h : e.Holds N x m) :
    (convStep e (x m)).1.Holds N x (m + 1) where
  wc_lt := by rw [convStep, h.length_eq]; exact Nat.mod_lt _ (Nat.zero_lt_of_lt h.wc_lt)
  length_eq := (convStep_ring_length e _).trans h.length_eq
  ring_at d hd := by
    obtain ⟨hnewest, holder⟩ := agoIndex_next h.wc_lt
    simp only [convStep, h.length_eq]
    cases d with
    | zero => rw [hnewest, List.getElem?_set_self (h.length_eq ▸ h.wc_lt)]; rfl
    | succ d =>
      obtain ⟨hplace, hne⟩ := holder d hd
      rw [hplace, List.getElem?_set_ne hne.symm, h.ring_at d (by omega)]
      simp only [Nat.add_lt_add_iff_right, Nat.add_sub_cancel, Nat.sub_sub, Nat.add_comm 1 d]

/-- A rebuilt impulse leaves ring and cursor as they are, so the ring holds the same inputs. -/
theorem Engine.Holds.with_imp {N m : Nat} {x : Nat → Sample} {e : Engine} (h : e.Holds N x m) (imp : List Sample) :
    Engine.Holds N x m { e with imp := imp } := ⟨h.wc_lt, h.length_eq, h.ring_at⟩

/-- Settles O37, by induction on the number of calls. -/
theorem convolutionHistory : Obligations.ConvolutionHistory := by
  unfold Obligations.ConvolutionHistory
  refine ⟨fun N taps imp x q hN hq0 hstep m => ?_, fun synth f bw g => ?_, fun c r m g => ?_⟩
  · have hholds : (q m).Holds N x m := by
      induction m with
      | zero => rw [hq0]; exact freshEngine_holds hN taps x
      | succ m ih => rw [hstep]; exact convStep_holds (ih.with_imp (imp m))
    exact ⟨hholds.wc_lt, hholds.length_eq, hholds.ring_at⟩
  · unfold typedRefresh; split <;> exact ⟨rfl, rfl⟩
  · unfold fmRefresh; split <;> exact ⟨rfl, rfl⟩

/-! ### The unit impulse and the zero impulse (R202) -/

/-- Terms of a zero tap add zeros, which change no partial sum that is finite and not `-0.0`. -/
theorem convPartial_of_zero_taps {ring imp : List Sample} {wc n m : Nat} {v : Sample}
    (hring : ∀ y ∈ ring, isFinite y = true) (hv : convPartial ring imp wc n = v) (hfin : isFinite v = true)
    (hne : v ≠ 0x80000000#32) (hzero : ∀ k, n ≤ k → imp.getD k f0 = f0) (hm : n ≤ m) :
    convPartial ring imp wc m = v := by
  induction m, hm using Nat.le_induction with
  | base => exact hv
  | succ k hk ih =>
    have helem : isFinite (ring.getD (ringIndex wc k ring.length) f0) = true := by
      rw [List.getD_eq_getElem?_getD]
      cases hget : ring[ringIndex wc k ring.length]? with
      | none => decide
      | some y => exact hring y (List.mem_of_getElem? hget)
    rw [convPartial_succ, ih, hzero k hk, fmul_zero helem, fadd_zeroOf hfin hne]

theorem getD_replicate_f0 (n k : Nat) : (List.replicate n f0).getD k f0 = f0 := by
  rw [List.getD_eq_getElem?_getD, List.getElem?_replicate]; split <;> rfl

/-- Settles O38: the first term of the sum is the newest input, every further term a zero. -/
theorem convolutionIdentityAndSilence : Obligations.ConvolutionIdentityAndSilence := by
  unfold Obligations.ConvolutionIdentityAndSilence
  intro e x hwc hring hx
  have hset : ∀ y ∈ e.ring.set e.wc x, isFinite y = true := fun y hy =>
    (List.mem_or_eq_of_mem_set hy).elim (hring y) (fun h => h ▸ hx)
  have hsum : (convStep e x).2 = convPartial (e.ring.set e.wc x) e.imp e.wc e.ring.length := by
    rw [convStep, convSum_eq_convPartial, List.length_set]
  rw [hsum]
  refine ⟨fun himp => ?_, fun himp => ?_⟩
  · have hnewest : (e.ring.set e.wc x).getD (ringIndex e.wc 0 e.ring.length) f0 = x := by
      rw [ringIndex, Nat.sub_zero, Nat.add_mod_right, Nat.mod_eq_of_lt hwc]
      simp [hwc]
    have hfirst : convPartial (e.ring.set e.wc x) e.imp e.wc 1 = if x = 0x80000000#32 then f0 else x := by
      rw [convPartial_succ, List.length_set, hnewest, himp, List.getD_cons_zero, fmul_one hx]
      exact zero_fadd hx
    refine convPartial_of_zero_taps hset hfirst ?_ ?_ (fun k hk => ?_) (Nat.zero_lt_of_lt hwc)
    · split
      · decide
      · exact hx
    · split
      · decide
      · assumption
    · obtain ⟨j, rfl⟩ := Nat.exists_eq_add_of_le' hk
      rw [himp, List.getD_cons_succ, getD_replicate_f0]
  · exact convPartial_of_zero_taps hset rfl (by decide) (by decide)
      (fun k _ => himp ▸ getD_replicate_f0 e.ring.length k) (Nat.zero_le _)

end Sys2Proof.Machine
end

section
/-! PROOFS. Synthesised impulses (42_convolution.md R208, R209, R214 to R220, R229, R230, R235, R236): the taps of R216
for every type, the spectral inversion, and COMPUTE with its refresh. -/

namespace Sys2Proof.Machine

open Sys2Proof.Config (cfg)

/-! ### The taps of an IRWINSINC (R215, R216, R220) -/

/-- The band-reject impulse is the low-pass at the lower edge plus the high-pass at the upper one. -/
theorem bandReject_spec (C : Cfg) (fc bc : Sample) (order : Nat) :
    BandRejectTaps C (fClampHz C (fsub fc (fdiv bc f2))) (fClampHz C (fadd fc (fdiv bc f2))) order
      (bandReject C fc bc order) := by
  refine ⟨_, _, _, lowPass_spec C _ order, lowPass_spec C _ order, invertTaps_spec _ order, by simp,
    fun i x y hx hy => ?_⟩
  rw [bandReject, List.getElem?_zipWith, hx, hy]

/-- The impulse of every type holds the taps of R216. -/
theorem winSincImpulse_spec (C : Cfg) (type : Nat) (f bw : Sample) (order : Nat) :
    WinSincTaps C type f bw order (winSincImpulse C type f bw order) :=
  match type with
  | 0 => lowPass_spec C _ order
  | 1 => ⟨_, lowPass_spec C _ order, invertTaps_spec _ order⟩
  | 2 => bandReject_spec C _ _ order
  | _ + 3 => ⟨_, bandReject_spec C _ _ order, invertTaps_spec _ order⟩

/-- A finite tap and its spectral inversion sum to `+0.0` off the centre. -/
theorem fadd_invertTaps (t : List Sample) (order : Nat) {i : Nat} (hi : i < t.length)
    (hfin : isFinite (t.getD i f0) = true) :
    fadd (t.getD i f0) ((invertTaps t order).getD i f0) =
      if i = order / 2 then fadd (t.getD i f0) (fadd (fneg (t.getD i f0)) f1) else f0 := by
  obtain ⟨-, hinv⟩ := invertTaps_spec t order
  have htap : t[i]? = some (t.getD i f0) := by simp [hi]
  rw [List.getD_eq_getElem?_getD (l := invertTaps t order), hinv i _ htap, Option.getD_some]
  split
  · rfl
  · exact fadd_fneg hfin

/-- Settles O39: the high-pass impulse is the low-pass one, inverted. -/
theorem spectralInversion : Obligations.SpectralInversion := by
  unfold Obligations.SpectralInversion
  intro C f bw order _
  have hlow := winSincImpulse_length C 0 f bw order
  exact ⟨winSincImpulse_spec C 0 f bw order, winSincImpulse_spec C 1 f bw order, hlow,
    winSincImpulse_length C 1 f bw order, fun i hi hfin =>
      fadd_invertTaps (winSincImpulse C 0 f bw order) order (hlow ▸ Nat.lt_succ_of_le hi) hfin⟩

/-! ### COMPUTE with a refresh (R217, R218, R230, R236) -/

/-- `imp`, `last` and `lastbw` are the impulse and the caches of `g` after its change test on `f` and `bw`; `Rebuilt`
says what a rebuilt impulse is. -/
def TypedCaches (Rebuilt : List Sample → Prop) (f bw : Sample) (g : IrTyped) (imp : List Sample)
    (last lastbw : Sample) : Prop :=
  if fne f g.lastf = true ∨ fne bw g.lastbw = true ∨ g.dirty = true then last = f ∧ lastbw = bw ∧ Rebuilt imp
  else last = g.lastf ∧ lastbw = g.lastbw ∧ imp = g.eng.imp

/-- The refresh writes the impulse and the caches, and leaves the flag clean. -/
theorem typedRefresh_eq {synth : Nat → Sample → Sample → Nat → List Sample} {Rebuilt : List Sample → Prop}
    {f bw : Sample} {g : IrTyped} (hsynth : Rebuilt (synth g.type f bw g.order)) :
    ∃ imp last lastbw, TypedCaches Rebuilt f bw g imp last lastbw ∧ typedRefresh synth f bw g =
      { g with eng := { g.eng with imp := imp }, lastf := last, lastbw := lastbw, dirty := false } := by
  have hstale : typedStale g f bw = true ↔ fne f g.lastf = true ∨ fne bw g.lastbw = true ∨ g.dirty = true := by
    simp [typedStale, or_assoc]
  unfold typedRefresh TypedCaches
  by_cases h : typedStale g f bw = true
  · exact ⟨_, _, _, (if_pos (hstale.1 h)).mpr ⟨rfl, rfl, hsynth⟩, if_pos h⟩
  · have hclean : g.dirty = false := Bool.eq_false_iff.2 fun hd => h (hstale.2 (.inr (.inr hd)))
    refine ⟨_, _, _, (if_neg (mt hstale.2 h)).mpr ⟨rfl, rfl, rfl⟩, (if_neg h).trans ?_⟩
    rw [← hclean]

/-- What the compute rules of IRWINSINC and IRPULSE share: the refresh with `synth`, then the block. -/
def computeTyped (C : Cfg) (synth : Nat → Sample → Sample → Nat → List Sample) (body : IrTyped → Body)
    (s : State) (U : DspUnit) (g : IrTyped) : DspUnit :=
  let g' := typedRefresh synth (pval C s U 0 0) (pval C s U 1 0) g
  let run := convBlock C (inputAt C s U) g'.eng
  { U with out := run.2, body := body { g' with eng := run.1 } }

theorem computeUnit_of_irwinsinc {C : Cfg} {s : State} {U : DspUnit} {g : IrTyped} (h : U.body = .irwinsinc g) :
    computeUnit C s U = computeTyped C (winSincImpulse C) .irwinsinc s U g := by rw [computeUnit, h]; rfl

theorem computeUnit_of_irpulse {C : Cfg} {s : State} {U : DspUnit} {g : IrTyped} (h : U.body = .irpulse g) :
    computeUnit C s U = computeTyped C (pulseImpulse C) .irpulse s U g := by rw [computeUnit, h]; rfl

/-- The new impulse applies from the first sample, with the ring and the cursor as they were. -/
theorem computeTyped_spec {C : Cfg} {synth : Nat → Sample → Sample → Nat → List Sample}
    {body : IrTyped → Body} {s : State} {U : DspUnit} {g : IrTyped} {Rebuilt : List Sample → Prop}
    (hsynth : Rebuilt (synth g.type (pval C s U 0 0) (pval C s U 1 0) g.order)) :
    ∃ imp e' last bw, TypedCaches Rebuilt (pval C s U 0 0) (pval C s U 1 0) g imp last bw ∧
      (computeTyped C synth body s U g).body =
        body { g with eng := e', lastf := last, lastbw := bw, dirty := false } ∧
      Engine.Runs (inputAt C s U) C.bufsize { g.eng with imp := imp } e' (computeTyped C synth body s U g).out := by
  obtain ⟨imp, last, bw, hcaches, href⟩ := typedRefresh_eq hsynth
  simp only [computeTyped, href]
  exact ⟨imp, _, last, bw, hcaches, rfl, convBlock_runs C _ _⟩

/-- `imp`, `lc`, `lr` and `li` are the impulse and the caches of `g` after its change test on `c`, `r` and `m`. -/
def FmCaches (C : Cfg) (c r m : Sample) (g : IrFm) (imp : List Sample) (lc lr li : Sample) : Prop :=
  if fne c g.lastc = true ∨ fne r g.lastr = true ∨ fne m g.lasti = true then
    lc = c ∧ lr = r ∧ li = m ∧ imp = fmImpulse C c r m g.order
  else lc = g.lastc ∧ lr = g.lastr ∧ li = g.lasti ∧ imp = g.eng.imp

theorem fmRefresh_eq (C : Cfg) (c r m : Sample) (g : IrFm) :
    ∃ imp lc lr li, FmCaches C c r m g imp lc lr li ∧ fmRefresh C c r m g =
      { g with eng := { g.eng with imp := imp }, lastc := lc, lastr := lr, lasti := li } := by
  unfold fmRefresh FmCaches
  simp only [Bool.or_eq_true, or_assoc]
  split
  · exact ⟨_, _, _, _, ⟨rfl, rfl, rfl, rfl⟩, rfl⟩
  · exact ⟨_, _, _, _, ⟨rfl, rfl, rfl, rfl⟩, rfl⟩

/-- What a rebuilt impulse is, for the type that `b` is: the taps of R216 or the open synthesis on clamped frequencies
(R229). -/
def RebuiltFor (C : Cfg) (b : Body) (f bw : Sample) (g : IrTyped) (imp : List Sample) : Prop :=
  (b = .irwinsinc g → WinSincTaps C g.type f bw g.order imp) ∧
    (b = .irpulse g → imp = pulseImpulse C g.type f bw g.order)

theorem rebuiltFor_irwinsinc (C : Cfg) (f bw : Sample) (g : IrTyped) :
    RebuiltFor C (.irwinsinc g) f bw g (winSincImpulse C g.type f bw g.order) :=
  ⟨fun _ => winSincImpulse_spec C g.type f bw g.order, nofun⟩

theorem rebuiltFor_irpulse (C : Cfg) (f bw : Sample) (g : IrTyped) :
    RebuiltFor C (.irpulse g) f bw g (pulseImpulse C g.type f bw g.order) := ⟨nofun, fun _ => rfl⟩

/-- Settles O36: each type's COMPUTE is its refresh and then a run of the engine. -/
theorem computeSynthesisedImpulse : Obligations.ComputeSynthesisedImpulse := by
  unfold Obligations.ComputeSynthesisedImpulse
  intro u s U hready
  have hcomp := computes_of_ready hready
  refine ⟨fun g hbody => ?_, fun g hbody => ?_⟩
  · rcases hbody with hbody | hbody
    · rw [computeUnit_of_irwinsinc hbody] at hcomp
      obtain ⟨imp, e', last, bw, hcaches, hV, hruns⟩ := computeTyped_spec (body := .irwinsinc)
        (rebuiltFor_irwinsinc cfg (pval cfg s U 0 0) (pval cfg s U 1 0) g)
      rw [hbody]
      exact ⟨_, imp, e', last, bw, hcomp, rfl, hcaches, fun _ => hV, nofun, hruns⟩
    · rw [computeUnit_of_irpulse hbody] at hcomp
      obtain ⟨imp, e', last, bw, hcaches, hV, hruns⟩ := computeTyped_spec (body := .irpulse)
        (rebuiltFor_irpulse cfg (pval cfg s U 0 0) (pval cfg s U 1 0) g)
      rw [hbody]
      exact ⟨_, imp, e', last, bw, hcomp, rfl, hcaches, nofun, fun _ => hV, hruns⟩
  · obtain ⟨imp, c, r, m, hcaches, href⟩ :=
      fmRefresh_eq cfg (pval0 cfg s U 0) (pval0 cfg s U 1) (pval0 cfg s U 2) g
    simp only [computeUnit, hbody, computeIrfm, href] at hcomp
    exact ⟨_, imp, _, c, r, m, hcomp, rfl, hcaches, rfl, convBlock_runs cfg _ _⟩

end Sys2Proof.Machine
end

section
/-! PROOFS. What the five convolution constructors build (42_convolution.md R203, R207, R210 to R212, R222, R223, R227,
R233), and SETI, which writes the type of two of them (R219, R231). -/

namespace Sys2Proof.Machine

open Sys2Proof.Config (cfg)

/-- `EvenOrder` caps the order at `MAXORD`, makes it even and keeps it from 2 on (R207). -/
theorem evenOrder_eq (C : Cfg) (o : Nat) :
    evenOrder C o = max (min o (maxOrder C) + min o (maxOrder C) % 2) 2 := by
  unfold evenOrder
  dsimp only
  split <;> omega

/-- `MAXORD` is the greatest even number not above `MAXTAPS - 1` (R207). -/
theorem maxOrder_spec (C : Cfg) :
    maxOrder C % 2 = 0 ∧ maxOrder C ≤ C.maxtaps - 1 ∧ C.maxtaps - 1 ≤ maxOrder C + 1 := by
  unfold maxOrder; omega

/-- Settles O55: the handles pass their check, and each type-specific state is the one its constructor names. -/
theorem newConvolutionUnits : Obligations.NewConvolutionUnits := by
  unfold Obligations.NewConvolutionUnits
  refine fun u inp s hfree => ⟨fun taps hb hpos hmax => ?convolve, fun order => ?_⟩
  case convolve =>
    exact builds_of_exec_eq_newUnit rfl hfree (bindOk_of_bindable hb) (decide_eq_true hpos) (decide_eq_true hmax)
      (Nat.zero_le _)
  obtain ⟨heven, hle, hge⟩ := maxOrder_spec cfg
  obtain ⟨hoeven, -, homax⟩ := evenOrder_spec cfg_valid order.toNat
  refine ⟨evenOrder cfg order.toNat, maxOrder cfg, heven, hle, hge, evenOrder_eq cfg _, hoeven, homax,
    fun hb => ⟨_, averageImpulse_spec cfg _, ?average⟩, fun type f bw hb => ⟨?winsinc, ?pulse⟩,
    fun c r m hb => ?fm⟩
  all_goals exact builds_of_exec_eq_newUnit rfl hfree (bindOk_of_bindable hb) rfl rfl (by simp)

/-! ### SETI (40_system.md R134) -/

theorem exec_seti_of_class {u slot : Byte} {v : Word} {s : State} {U : DspUnit}
    (hU : liveUnit cfg s u.toNat = some U) (hc : slotClass U.body slot.toNat = some .integer) :
    exec (.seti u slot v) s = done (putUnit u.toNat { U with body := setInteger v U.body } s) :=
  (withLive_some hU).trans (if_pos hc)

/-- SETI on an integer slot of a unit whose state `setInteger` turns into `b'`. -/
theorem exec_seti_body {u slot : Byte} {v : Word} {s : State} {U : DspUnit} {b b' : Body}
    (hU : liveUnit cfg s u.toNat = some U) (hb : U.body = b) (hc : slotClass b slot.toNat = some .integer)
    (hv : setInteger v b = b') :
    ∃ t, exec (.seti u slot v) s = .next t ∧ s.Did cfg u.toNat t ∧
      liveUnit cfg t u.toNat = some { U with body := b' } := by
  subst hb hv
  exact did_of_exec_eq_done hU (exec_seti_of_class hU hc)

/-- Settles O27: slot 2 is the integer attribute of both types. -/
theorem setiStoresTheType : Obligations.SetiStoresTheType := by
  unfold Obligations.SetiStoresTheType
  exact fun u v s U g hU => ⟨fun hb => exec_seti_body hU hb rfl rfl, fun hb => exec_seti_body hU hb rfl rfl⟩

end Sys2Proof.Machine
end

section
/-! PROOFS. COMPUTE on a FREEVERB (43_freeverb.md R254 to R257, R260): the combs in parallel, the all-passes in series,
and what a block depends on. -/

namespace Sys2Proof.Machine

open Sys2Proof.Config (cfg)

/-! ### Two runs side by side -/

/-- Runs over the same list whose steps keep two states related, with the same result at each element, end related and
give the same results. -/
theorem scan_simulates {σ τ β α : Type} {f : σ → β → σ × α} {g : τ → β → τ × α} {R : σ → τ → Prop} {xs : List β}
    (hstep : ∀ a b, ∀ x ∈ xs, R a b → R (f a x).1 (g b x).1 ∧ (f a x).2 = (g b x).2) {a : σ} {b : τ} (h0 : R a b) :
    R (scan f a xs).1 (scan g b xs).1 ∧ (scan f a xs).2 = (scan g b xs).2 := by
  induction xs generalizing a b with
  | nil => exact ⟨h0, rfl⟩
  | cons x xs ih =>
    obtain ⟨hnext, hout⟩ := hstep a b x List.mem_cons_self h0
    obtain ⟨hend, hrest⟩ := ih (fun a b y hy => hstep a b y (List.mem_cons_of_mem x hy)) hnext
    rw [scan_cons, scan_cons, hout, hrest]
    exact ⟨hend, rfl⟩

/-! ### The combs and the all-passes, one by one (R255 to R257) -/

/-- The sum of the taps grows comb by comb. -/
theorem combBank_take_succ {x fb dm : Sample} {cs : List Comb} {k : Nat} {c : Comb} (acc : Sample)
    (hc : cs[k]? = some c) :
    (combBank x fb dm (cs.take (k + 1)) acc).2 = fadd (combBank x fb dm (cs.take k) acc).2 (c.buf.getD c.pos f0) := by
  induction cs generalizing k acc with
  | nil => simp at hc
  | cons d cs ih =>
    cases k with
    | zero => cases hc; rfl
    | succ k => exact ih _ hc

/-- Every comb makes its step on the input sample. -/
theorem combBank_getElem? {x fb dm : Sample} {cs : List Comb} {k : Nat} {c : Comb} (acc : Sample)
    (hc : cs[k]? = some c) : (combBank x fb dm cs acc).1[k]? = some (combStep x fb dm c).1 := by
  rw [combBank_spec, List.getElem?_map, hc]
  rfl

/-- What leaves an all-pass is what enters the next. -/
theorem allpassChain_take_succ {as : List Allpass} {k : Nat} {a : Allpass} (v : Sample) (ha : as[k]? = some a) :
    (allpassChain (as.take (k + 1)) v).2 = (allpassStep (allpassChain (as.take k) v).2 a).2 := by
  induction as generalizing k v with
  | nil => simp at ha
  | cons b as ih =>
    cases k with
    | zero => cases ha; rfl
    | succ k => exact ih _ ha

/-- Every all-pass makes its step on what leaves the ones before it. -/
theorem allpassChain_getElem? {as : List Allpass} {k : Nat} {a : Allpass} (v : Sample) (ha : as[k]? = some a) :
    (allpassChain as v).1[k]? = some (allpassStep (allpassChain (as.take k) v).2 a).1 := by
  induction as generalizing k v with
  | nil => simp at ha
  | cons b as ih =>
    cases k with
    | zero => cases ha; rfl
    | succ k => exact ih _ ha

theorem combBank_length (x fb dm : Sample) (cs : List Comb) (acc : Sample) :
    (combBank x fb dm cs acc).1.length = cs.length := by
  rw [combBank_spec, List.length_map]

theorem allpassChain_length (as : List Allpass) (v : Sample) : (allpassChain as v).1.length = as.length := by
  simpa using congrArg List.length (allpassChain_lengths as v)

/-! ### One sample of the unit (R256) -/

/-- Sample `i` of the block of the unit `U`, whose FREEVERB is `f` before it. -/
def freeverbStep (C : Cfg) (s : State) (U : DspUnit) (f : Freeverb) (i : Nat) : Freeverb × Sample :=
  freeverbSample C (pval C s U 0) (pval C s U 1) (pval C s U 2) (inputAt C s U) f i

/-- The sum of the taps of the combs below `k` at sample `i`. -/
def tapSum (C : Cfg) (s : State) (U : DspUnit) (f : Freeverb) (i k : Nat) : Sample :=
  (combBank (inputAt C s U i) (feedbackOf C (pval C s U 0 i)) (dampOf C (pval C s U 1 i)) (f.combs.take k) f0).2

/-- The signal that enters all-pass `a` at sample `i`. -/
def seriesSignal (C : Cfg) (s : State) (U : DspUnit) (f : Freeverb) (i a : Nat) : Sample :=
  (allpassChain (f.aps.take a) (tapSum C s U f i f.combs.length)).2

/-- After the sample the combs have stepped and the all-passes have run on the whole sum; the last signal is mixed. -/
theorem freeverbStep_eq (C : Cfg) (s : State) (U : DspUnit) (f : Freeverb) (i : Nat) :
    freeverbStep C s U f i =
      ({ f with
          combs := (combBank (inputAt C s U i) (feedbackOf C (pval C s U 0 i)) (dampOf C (pval C s U 1 i))
            f.combs f0).1
          aps := (allpassChain f.aps (tapSum C s U f i f.combs.length)).1 },
        wetDry C (unitClamp (pval C s U 2 i)) (seriesSignal C s U f i f.aps.length) (inputAt C s U i)) := by
  simp only [seriesSignal, tapSum, List.take_length]
  rfl

/-- `g` has the seed and the jitter of `f`, and as many combs and all-passes. -/
def Freeverb.SameLayout (f g : Freeverb) : Prop :=
  g.seed = f.seed ∧ g.jit = f.jit ∧ g.combs.length = f.combs.length ∧ g.aps.length = f.aps.length

/-- A sample keeps the layout. -/
theorem freeverbStep_sameLayout (C : Cfg) (s : State) (U : DspUnit) {f g : Freeverb} (h : f.SameLayout g) (i : Nat) :
    f.SameLayout (freeverbStep C s U g i).1 := by
  obtain ⟨hseed, hjit, hcombs, haps⟩ := h
  exact ⟨hseed, hjit, (combBank_length _ _ _ _ _).trans hcombs, (allpassChain_length _ _).trans haps⟩

/-! ### The block (R256) -/

/-- The run of a FREEVERB from `f` over the block of the unit `U`. -/
def freeverbBlock (C : Cfg) (s : State) (U : DspUnit) (f : Freeverb) : Freeverb × List Sample :=
  scan (freeverbStep C s U) f (List.range C.bufsize)

/-- COMPUTE on a FREEVERB keeps the state and the output of the run over the block. -/
theorem computes_freeverb {u : Byte} {s : State} {U : DspUnit} {f : Freeverb} (hready : Ready cfg u s U)
    (hbody : U.body = .freeverb f) :
    Computes cfg u s U
      { U with out := (freeverbBlock cfg s U f).2, body := .freeverb (freeverbBlock cfg s U f).1 } := by
  have hcomp := computes_of_ready hready
  rwa [computeUnit, hbody] at hcomp

theorem freeverbBlock_length (C : Cfg) (s : State) (U : DspUnit) (f : Freeverb) :
    (freeverbBlock C s U f).2.length = C.bufsize := by
  rw [freeverbBlock, scan_length, List.length_range]

/-- Settles O40: the states before each sample are those of the run over the block. -/
theorem computeFreeverbBlock : Obligations.ComputeFreeverbBlock := by
  unfold Obligations.ComputeFreeverbBlock
  intro u s U f hready hbody
  obtain ⟨q, hq0, hstep, hend, hout⟩ := scan_range_spec (freeverbStep cfg s U) f cfg.bufsize
  have hlayout : ∀ i, f.SameLayout (q i) := by
    intro i
    induction i with
    | zero => rw [hq0]; exact ⟨rfl, rfl, rfl, rfl⟩
    | succ i ih => rw [hstep]; exact freeverbStep_sameLayout cfg s U ih i
  refine ⟨_, q, fun i k => tapSum cfg s U (q i) i k, fun i a => seriesSignal cfg s U (q i) i a,
    computes_freeverb hready hbody, rfl, congrArg Body.freeverb hend, freeverbBlock_length cfg s U f, hq0,
    fun i hi => ?_⟩
  obtain ⟨hseed, hjit, hcombs, haps⟩ := hlayout (i + 1)
  obtain ⟨-, -, hcombs_i, haps_i⟩ := hlayout i
  have hrow := hout i hi
  rw [← hcombs_i, ← haps_i]
  rw [freeverbStep_eq] at hrow
  refine ⟨hseed, hjit, hcombs.trans hcombs_i.symm, haps.trans haps_i.symm, rfl, rfl,
    fun k c hc => ⟨combBank_take_succ f0 hc, ?_⟩, fun k a ha => ⟨allpassChain_take_succ _ ha, ?_⟩, hrow⟩
  · rw [hstep, freeverbStep_eq]
    exact combBank_getElem? f0 hc
  · rw [hstep, freeverbStep_eq]
    exact allpassChain_getElem? _ ha

/-! ### What a block depends on (R260) -/

/-- Units that read the same parameters and the same input run a FREEVERB alike. -/
theorem freeverbBlock_congr {C : Cfg} {s r : State} {U W : DspUnit} (f : Freeverb)
    (hp : ∀ k i, k < 3 → i < C.bufsize → pval C s U k i = pval C r W k i)
    (hx : ∀ i, i < C.bufsize → inputAt C s U i = inputAt C r W i) :
    freeverbBlock C s U f = freeverbBlock C r W f := by
  have hrun := scan_simulates (f := freeverbStep C s U) (g := freeverbStep C r W) (R := Eq) (a := f)
    (xs := List.range C.bufsize) (fun a b i hi hab => by
      have hlt := List.mem_range.1 hi
      simp only [hab, freeverbStep, freeverbSample, hp 0 i (by decide) hlt, hp 1 i (by decide) hlt,
        hp 2 i (by decide) hlt, hx i hlt, and_self]) rfl
  exact Prod.ext hrun.1 hrun.2

theorem pval_of_const {C : Cfg} {s : State} {U : DspUnit} {k : Nat} (hm : (U.slot k).mode = .const) (i : Nat) :
    pval C s U k i = (U.slot k).c := by
  rw [pval, hm]

theorem pval_of_stream {C : Cfg} {s : State} {U : DspUnit} {k : Nat} (hm : (U.slot k).mode = .stream) (i : Nat) :
    pval C s U k i = elemAt C s (U.slot k).h i := by
  rw [pval, hm]

/-- Settles O41: a stream of the constant gives every parameter the value the constant gives it. -/
theorem freeverbModeCombinations : Obligations.FreeverbModeCombinations := by
  unfold Obligations.FreeverbModeCombinations
  intro u w s r U W f c hU hUf hW hWf hx hconst hmode
  have hp : ∀ k i, k < 3 → i < cfg.bufsize → pval cfg s U k i = pval cfg r W k i := by
    intro k i hk hi
    obtain ⟨hUm, hUc⟩ := hconst k hk
    rw [pval_of_const hUm, hUc]
    rcases hmode k hk with ⟨hm, hc⟩ | ⟨hm, helems⟩
    · rw [pval_of_const hm, hc]
    · rw [pval_of_stream hm, elemAt_of_some (helems i hi)]
  have hblock := freeverbBlock_congr f hp hx
  exact ⟨_, _, computes_freeverb hU hUf, computes_freeverb hW hWf, congrArg Prod.snd hblock,
    congrArg (fun run => Body.freeverb run.1) hblock⟩

end Sys2Proof.Machine
end

section
/-! PROOFS. RESET on a FREEVERB (43_freeverb.md R262, R263): what it clears, and that the rings then behave as fresh ones
from any cursor position. -/

namespace Sys2Proof.Machine

open Sys2Proof.Config (cfg)

/-! ### What RESET writes (R262) -/

theorem exec_reset_of_freeverb {u : Byte} {s : State} {U : DspUnit} {f : Freeverb}
    (hU : liveUnit cfg s u.toNat = some U) (hbody : U.body = .freeverb f) :
    exec (.reset u) s = done (putUnit u.toNat { U with body := .freeverb (clearFreeverb f) } s) := by
  show resetOn cfg u s = _
  rw [resetOn, withLive_some hU, hbody]

/-- Settles O30: RESET maps over the combs and over the all-passes. -/
theorem resetClearsFreeverb : Obligations.ResetClearsFreeverb := by
  unfold Obligations.ResetClearsFreeverb
  intro u s U f hU hbody
  obtain ⟨t, ht, hdid, hV⟩ := did_of_exec_eq_done hU (exec_reset_of_freeverb hU hbody)
  refine ⟨t, clearFreeverb f, ht, hdid, hV, rfl, rfl, List.length_map _, List.length_map _,
    fun k c d hc hd => ?_, fun k a b ha hb => ?_⟩
  · rw [clearFreeverb, List.getElem?_map, hc] at hd
    cases hd
    exact ⟨rfl, rfl, List.length_replicate, fun _ hx => List.eq_of_mem_replicate hx⟩
  · rw [clearFreeverb, List.getElem?_map, ha] at hb
    cases hb
    exact ⟨rfl, List.length_replicate, fun _ hx => List.eq_of_mem_replicate hx⟩

/-! ### Rings told from their cursor on -/

/-- Writing at the cursor and moving it on drops the oldest element and appends the new one. -/
theorem rotate_set_cursor {α : Type} {l : List α} {p : Nat} (hp : p < l.length) (v : α) :
    (l.set p v).rotate ((p + 1) % l.length) = (l.rotate p).tail ++ [v] := by
  have hlen : (l.set p v).length = l.length := List.length_set
  calc (l.set p v).rotate ((p + 1) % l.length)
      = (l.set p v).drop (p + 1) ++ (l.set p v).take (p + 1) := by
        rw [← hlen, List.rotate_mod, List.rotate_eq_drop_append_take (by omega)]
    _ = l.drop (p + 1) ++ (l.take p ++ [v]) := by
        rw [List.drop_set_of_lt (Nat.lt_succ_self p), List.take_add_one, List.take_set_of_le (Nat.le_refl p),
          List.getElem?_set_self hp]
        rfl
    _ = (l.rotate p).tail ++ [v] := by
        rw [List.rotate_eq_drop_append_take hp.le, List.tail_append_of_ne_nil (by simpa using hp), List.tail_drop,
          List.append_assoc]

/-- The oldest element is the one at the cursor. -/
theorem rotate_getD_zero {α : Type} {l : List α} {p : Nat} (hp : p < l.length) (d : α) :
    (l.rotate p).getD 0 d = l.getD p d := by
  rw [List.getD_eq_getElem?_getD, List.getD_eq_getElem?_getD, List.getElem?_rotate (by omega), Nat.zero_add,
    Nat.mod_eq_of_lt hp]

/-- The comb with its ring turned so that the cursor is at 0. -/
def Comb.rewound (c : Comb) : Comb := ⟨c.buf.rotate c.pos, 0, c.st⟩

/-- The all-pass with its ring turned so that the cursor is at 0. -/
def Allpass.rewound (a : Allpass) : Allpass := ⟨a.buf.rotate a.pos, 0⟩

/-- A comb step, told from the cursor on: the oldest element is read and leaves, the new one comes last. -/
theorem rewound_combStep (x fb dm : Sample) {c : Comb} (hc : c.pos < c.buf.length) :
    (combStep x fb dm c).1.rewound =
      let tap := (c.buf.rotate c.pos).getD 0 f0
      let st := fadd tap (fmul (fsub c.st tap) dm)
      ⟨(c.buf.rotate c.pos).tail ++ [fadd (fmul st fb) x], 0, st⟩ := by
  rw [rotate_getD_zero hc]
  exact congrArg (Comb.mk · 0 _) (rotate_set_cursor hc _)

/-- An all-pass step, told from the cursor on. -/
theorem rewound_allpassStep (v : Sample) {a : Allpass} (ha : a.pos < a.buf.length) :
    (allpassStep v a).1.rewound =
      ⟨(a.buf.rotate a.pos).tail ++ [fadd (fmul ((a.buf.rotate a.pos).getD 0 f0) fHalf) v], 0⟩ := by
  rw [rotate_getD_zero ha]
  exact congrArg (Allpass.mk · 0) (rotate_set_cursor ha _)

/-- A comb step depends on the comb only as it is told from its cursor on. -/
theorem combStep_rewound (x fb dm : Sample) {c : Comb} (hc : c.pos < c.buf.length) :
    (combStep x fb dm c.rewound).1.rewound = (combStep x fb dm c).1.rewound ∧
      (combStep x fb dm c.rewound).2 = (combStep x fb dm c).2 := by
  have hring : c.rewound.buf.rotate c.rewound.pos = c.buf.rotate c.pos := List.rotate_zero _
  have hpos : c.rewound.pos < c.rewound.buf.length := (Nat.zero_lt_of_lt hc).trans_eq (List.length_rotate _ _).symm
  refine ⟨?_, rotate_getD_zero hc f0⟩
  rw [rewound_combStep x fb dm hpos, rewound_combStep x fb dm hc, hring]
  rfl

/-- An all-pass step depends on the all-pass only as it is told from its cursor on. -/
theorem allpassStep_rewound (v : Sample) {a : Allpass} (ha : a.pos < a.buf.length) :
    (allpassStep v a.rewound).1.rewound = (allpassStep v a).1.rewound ∧
      (allpassStep v a.rewound).2 = (allpassStep v a).2 := by
  have hring : a.rewound.buf.rotate a.rewound.pos = a.buf.rotate a.pos := List.rotate_zero _
  have hpos : a.rewound.pos < a.rewound.buf.length := (Nat.zero_lt_of_lt ha).trans_eq (List.length_rotate _ _).symm
  refine ⟨?_, congrArg (fsub · v) (rotate_getD_zero ha f0)⟩
  rw [rewound_allpassStep v hpos, rewound_allpassStep v ha, hring]

theorem combBank_rewound (x fb dm : Sample) {cs : List Comb} (h : ∀ c ∈ cs, c.pos < c.buf.length) (acc : Sample) :
    (combBank x fb dm (cs.map Comb.rewound) acc).1.map Comb.rewound =
        (combBank x fb dm cs acc).1.map Comb.rewound ∧
      (combBank x fb dm (cs.map Comb.rewound) acc).2 = (combBank x fb dm cs acc).2 := by
  induction cs generalizing acc with
  | nil => exact ⟨rfl, rfl⟩
  | cons c cs ih =>
    obtain ⟨hc, hcs⟩ := List.forall_mem_cons.1 h
    obtain ⟨hnext, htap⟩ := combStep_rewound x fb dm hc
    obtain ⟨hrest, hsum⟩ := ih hcs (fadd acc (combStep x fb dm c).2)
    simp only [List.map_cons, combBank, htap, hnext, hrest, hsum, and_self]

theorem allpassChain_rewound {as : List Allpass} (h : ∀ a ∈ as, a.pos < a.buf.length) (v : Sample) :
    (allpassChain (as.map Allpass.rewound) v).1.map Allpass.rewound = (allpassChain as v).1.map Allpass.rewound ∧
      (allpassChain (as.map Allpass.rewound) v).2 = (allpassChain as v).2 := by
  induction as generalizing v with
  | nil => exact ⟨rfl, rfl⟩
  | cons a as ih =>
    obtain ⟨ha, has⟩ := List.forall_mem_cons.1 h
    obtain ⟨hnext, hout⟩ := allpassStep_rewound v ha
    obtain ⟨hrest, hlast⟩ := ih has (allpassStep v a).2
    simp only [List.map_cons, allpassChain, hout, hnext, hrest, hlast, and_self]

/-! ### Runs from rings that are alike -/

/-- Every cursor is inside its ring. -/
structure Freeverb.CursorsIn (f : Freeverb) : Prop where
  combs : ∀ c ∈ f.combs, c.pos < c.buf.length
  aps : ∀ a ∈ f.aps, a.pos < a.buf.length

/-- The rings of `f` and `g` are the same told from their cursors on, which are inside them, and so are the damping
states. -/
structure Freeverb.Alike (f g : Freeverb) : Prop where
  left_in : f.CursorsIn
  right_in : g.CursorsIn
  combs : f.combs.map Comb.rewound = g.combs.map Comb.rewound
  aps : f.aps.map Allpass.rewound = g.aps.map Allpass.rewound

theorem combBank_pos (x fb dm : Sample) {cs : List Comb} (h : ∀ c ∈ cs, c.pos < c.buf.length) (acc : Sample) :
    ∀ c ∈ (combBank x fb dm cs acc).1, c.pos < c.buf.length := by
  rw [combBank_spec]
  refine List.forall_mem_map.2 fun c hc => ?_
  exact (Nat.mod_lt _ (Nat.zero_lt_of_lt (h c hc))).trans_eq List.length_set.symm

/-- One sample keeps rings alike and gives the same output. -/
theorem freeverbSample_alike (C : Cfg) (size damp mix x : Nat → Sample) {f g : Freeverb} (h : f.Alike g) (i : Nat) :
    (freeverbSample C size damp mix x f i).1.Alike (freeverbSample C size damp mix x g i).1 ∧
      (freeverbSample C size damp mix x f i).2 = (freeverbSample C size damp mix x g i).2 := by
  obtain ⟨hf, hg, hcombs, haps⟩ := h
  obtain ⟨hfc, hfsum⟩ := combBank_rewound (x i) (feedbackOf C (size i)) (dampOf C (damp i)) hf.combs f0
  obtain ⟨hgc, hgsum⟩ := combBank_rewound (x i) (feedbackOf C (size i)) (dampOf C (damp i)) hg.combs f0
  rw [hcombs] at hfc hfsum
  have hsum := hfsum.symm.trans hgsum
  simp only [freeverbSample, hsum]
  generalize (combBank (x i) (feedbackOf C (size i)) (dampOf C (damp i)) g.combs f0).2 = v
  obtain ⟨hfa, hfout⟩ := allpassChain_rewound hf.aps v
  obtain ⟨hga, hgout⟩ := allpassChain_rewound hg.aps v
  rw [haps] at hfa hfout
  exact ⟨⟨⟨combBank_pos _ _ _ hf.combs f0, allpassChain_pos _ v hf.aps⟩,
      ⟨combBank_pos _ _ _ hg.combs f0, allpassChain_pos _ v hg.aps⟩, hfc.symm.trans hgc, hfa.symm.trans hga⟩,
    congrArg (wetDry C _ · _) (hfout.symm.trans hgout)⟩

/-- Rings that are alike compute the same block. -/
theorem freeverbBlock_out_of_alike (C : Cfg) (s : State) (U : DspUnit) {f g : Freeverb} (h : f.Alike g) :
    (freeverbBlock C s U f).2 = (freeverbBlock C s U g).2 :=
  (scan_simulates (R := Freeverb.Alike) (fun _ _ i _ hab => freeverbSample_alike C _ _ _ _ hab i) h).2

/-! ### Cleared rings are alike from any cursor position (R263) -/

theorem delayLen_pos (C : Cfg) (base : Sample) (J : Nat) : 0 < delayLen C base J := by
  unfold delayLen
  omega

/-- The cursors of a fresh FREEVERB are inside its rings, which have at least one element. -/
theorem freshFreeverb_cursorsIn (C : Cfg) (seed : Word) : (freshFreeverb C seed).CursorsIn where
  combs := List.forall_mem_map.2 <| List.forall_mem_map.2 fun _ _ =>
    (delayLen_pos C _ _).trans_eq List.length_replicate.symm
  aps := List.forall_mem_map.2 <| List.forall_mem_map.2 fun _ _ =>
    (delayLen_pos C _ _).trans_eq List.length_replicate.symm

theorem clearFreeverb_cursorsIn {f : Freeverb} (h : f.CursorsIn) : (clearFreeverb f).CursorsIn where
  combs := List.forall_mem_map.2 fun c hc => (h.combs c hc).trans_eq List.length_replicate.symm
  aps := List.forall_mem_map.2 fun a ha => (h.aps a ha).trans_eq List.length_replicate.symm

/-- A ring of `+0.0` is the same from any cursor on, so a cleared FREEVERB is like a fresh one of the same lengths. -/
theorem clearFreeverb_alike_fresh {C : Cfg} {f : Freeverb} (hin : f.CursorsIn)
    (hcombs : f.combs.map (fun c => c.buf.length) = combLens C (jitterOf C f.seed))
    (haps : f.aps.map (fun a => a.buf.length) = apLens C (jitterOf C f.seed)) :
    (clearFreeverb f).Alike (freshFreeverb C f.seed) where
  left_in := clearFreeverb_cursorsIn hin
  right_in := freshFreeverb_cursorsIn C f.seed
  combs := by
    simp [clearFreeverb, freshFreeverb, ← hcombs, Comb.rewound, List.rotate_replicate]
  aps := by
    simp [clearFreeverb, freshFreeverb, ← haps, Allpass.rewound, List.rotate_replicate]

/-! ### COMPUTE after RESET -/

section newBody
variable {C : Cfg} {s : State} {u : Nat} {U : DspUnit} (b : Body)

/-- Replacing the type-specific state of a unit changes no element of buffer space. -/
theorem elemAt?_putUnit_body (hU : liveUnit C s u = some U) (a : Addr) (i : Nat) :
    elemAt? C (putUnit u { U with body := b } s) a i = elemAt? C s a i := by
  by_cases ha : kindOf a = 2 ∧ indexOf a = u
  · obtain ⟨hk, rfl⟩ := ha
    simp [elemAt?, hk, hU, liveUnit_putUnit_self _ s (lt_of_liveUnit hU)]
  · exact elemAt?_putUnit _ s ha i

/-- Replacing the type-specific state of a unit changes no region. -/
theorem inRegion_putUnit_body (hU : liveUnit C s u = some U) (a : Addr) (n : Nat) :
    inRegion C (putUnit u { U with body := b } s) a n = inRegion C s a n := by
  by_cases hi : indexOf a = u
  · subst hi
    simp only [inRegion, hU, liveUnit_putUnit_self _ s (lt_of_liveUnit hU)]
  · simp only [inRegion, liveUnit_putUnit_of_ne C _ s hi]

/-- A unit put back with another type-specific state that reads the same handles is ready still. -/
theorem ready_putUnit_body {b : Body} {u : Byte} (h : Ready C u s U)
    (hreads : readHandles C { U with body := b } = readHandles C U) :
    Ready C u ((putUnit u.toNat { U with body := b } s).answer .ok 0#32) { U with body := b } :=
  ⟨liveUnit_putUnit_self _ s (lt_of_liveUnit h.1), handlesLive_iff.2 fun x hx =>
    (inRegion_putUnit_body b h.1 _ _).trans (handlesLive_iff.1 h.2 x (hreads ▸ hx))⟩

/-- A unit put back with another type-specific state runs a FREEVERB as before. -/
theorem freeverbBlock_putUnit_body (hU : liveUnit C s u = some U) (f : Freeverb) :
    freeverbBlock C ((putUnit u { U with body := b } s).answer .ok 0#32) { U with body := b } f =
      freeverbBlock C s U f := by
  have helem : ∀ a i, elemAt C ((putUnit u { U with body := b } s).answer .ok 0#32) a i = elemAt C s a i :=
    fun a i => congrArg (Option.getD · f0) (elemAt?_putUnit_body b hU a i)
  refine freeverbBlock_congr f (fun k i _ _ => ?_) (fun i _ => helem U.inp i)
  rw [pval, pval, helem]
  rfl

end newBody

/-- Settles O31: RESET leaves what the unit reads as it is, and cleared rings compute the block of fresh ones. -/
theorem resetMatchesAFreshFreeverb : Obligations.ResetMatchesAFreshFreeverb := by
  unfold Obligations.ResetMatchesAFreshFreeverb
  intro u w s r U W f hU hUf hcombs haps hcpos hapos hW hWf hp hx
  have hready := ready_putUnit_body (b := .freeverb (clearFreeverb f)) hU (by
    simp only [readHandles, hUf]
    rfl)
  obtain ⟨s2, hs2, -, hU2, -⟩ := computes_freeverb hready rfl
  obtain ⟨r1, hr1, -, hW2, -⟩ := computes_freeverb hW hWf
  refine ⟨_, s2, r1, _, _, (exec_reset_of_freeverb hU.1 hUf).trans (done_eq _), hs2, hr1, hU2, hW2, ?_,
    freeverbBlock_length _ _ _ _⟩
  calc _ = (freeverbBlock cfg s U (clearFreeverb f)).2 := congrArg Prod.snd (freeverbBlock_putUnit_body _ hU.1 _)
    _ = (freeverbBlock cfg r W (clearFreeverb f)).2 := congrArg Prod.snd (freeverbBlock_congr _ hp hx)
    _ = (freeverbBlock cfg r W (freshFreeverb cfg f.seed)).2 :=
        freeverbBlock_out_of_alike cfg r W (clearFreeverb_alike_fresh ⟨hcpos, hapos⟩ hcombs haps)

end Sys2Proof.Machine
end

section
/-! PROOFS. NEW.FREEVERB (43_freeverb.md R250, R252, R253; 10_state.md R27): the seed it draws, the lengths it jitters
and what it builds. -/

namespace Sys2Proof.Machine

open Sys2Proof.Config (cfg)

/-- The twelve delay lengths that have to fit. -/
theorem delaysFit_iff {C : Cfg} {J : Nat} :
    delaysFit C J = true ↔ (∀ c, c < 8 → delayLen C (C.combBase c) J ≤ C.maxdelay) ∧
      ∀ a, a < 4 → delayLen C (C.apBase a) J ≤ C.maxdelay := by
  simp [delaysFit, combLens, apLens]

/-- The rings of a fresh FREEVERB, one by one. -/
theorem freshFreeverb_eq (C : Cfg) (seed : Word) :
    freshFreeverb C seed =
      { seed := seed
        jit := jitterOf C seed
        combs := (List.range 8).map fun c =>
          ⟨List.replicate (delayLen C (C.combBase c) (jitterOf C seed)) f0, 0, f0⟩
        aps := (List.range 4).map fun a =>
          ⟨List.replicate (delayLen C (C.apBase a) (jitterOf C seed)) f0, 0⟩ } := by
  simp only [freshFreeverb, combLens, apLens, List.map_map, Function.comp_def]

section checks
variable {C : Cfg} {u : Byte} {inp : Addr} {size damp mix : XOp} {s : State}
  (hf : slotFree C s u.toNat = true)
  (hb : ∀ h ∈ (inp, C.bufsize) :: streamHandles C [size, damp, mix], bindOk C s u.toNat h.1 h.2 = true)
include hf hb

/-- Where every check holds, the seed is drawn and the unit is in its slot. -/
theorem newFreeverbOn_ok (hc : delaysFit C (jitterOf C (nextSeed C s 9)) = true) :
    newFreeverbOn C u inp size damp mix s =
      done (putUnit u.toNat (freshUnit C 1 inp [xslot size, xslot damp, xslot mix]
        (.freeverb (freshFreeverb C (nextSeed C s 9)))) (drawSeed 9 s)) := by
  simp only [newFreeverbOn, freeverbType, newCheck_eq_none.2 ⟨hf, hb, rfl, hc⟩]

/-- Where only the capacity check fails, it answers E_ALLOC. -/
theorem newFreeverbOn_alloc (hc : delaysFit C (jitterOf C (nextSeed C s 9)) = false) :
    newFreeverbOn C u inp size damp mix s = raise .alloc s := by
  have hcheck : newCheck C s u.toNat ((inp, C.bufsize) :: streamHandles C [size, damp, mix]) true false =
      some .alloc := by
    simp only [newCheck, hf, List.all_eq_true.2 hb]
    rfl
  simp only [newFreeverbOn, freeverbType, hc, hcheck]

end checks

/-- Settles O56: the capacity check is the one on the twelve lengths, made before the seed is drawn. -/
theorem newFreeverbDrawsItsSeed : Obligations.NewFreeverbDrawsItsSeed := by
  unfold Obligations.NewFreeverbDrawsItsSeed
  intro u inp size damp mix s hfree hbind
  have hb := bindOk_of_bindable hbind
  refine ⟨fun hfits => ?_, fun hfits => ?_⟩
  · have hexec := newFreeverbOn_ok hfree hb (delaysFit_iff.2 hfits)
    have hdid := did_putUnit cfg u.toNat (freshUnit cfg 1 inp [xslot size, xslot damp, xslot mix]
      (.freeverb (freshFreeverb cfg (nextSeed cfg s 9)))) (drawSeed 9 s)
    have hseed : ∀ k, 1 ≤ k → seedCount (drawSeed 9 s) k = if k = 9 then seedCount s 9 + 1#32 else seedCount s k :=
      fun k hk => seedCount_drawSeed s (by decide) (by decide) hk
    exact ⟨_, _, hexec.trans (done_eq _), rfl,
      liveUnit_putUnit_self _ _ (slotFree_iff.1 hfree).1, fresh_freshUnit cfg 1 inp _ (by simp),
      congrArg Body.freeverb (freshFreeverb_eq cfg _), (hseed 9 (by decide)).trans (if_pos rfl),
      fun k hk _ hne => (hseed k hk).trans (if_neg hne), hdid.units, rfl, rfl, rfl, rfl, rfl, hdid.elements⟩
  · exact ⟨_, newFreeverbOn_alloc hfree hb (Bool.eq_false_iff.2 (mt delaysFit_iff.1 hfits)), rfl⟩

end Sys2Proof.Machine
end

section
/-! PROOFS. The ramp engine (44_ramp_mix.md R282 to R286): the course of a ramp towards its target, and the ramp length
of a time. -/

namespace Sys2Proof.Machine

/-! ### The course of a ramp (R283, R284, R286) -/

theorem rampRetarget_zero (rp : Ramp) (t : Sample) : rampRetarget rp t 0 = ⟨t, t, f0, 0⟩ := rfl

theorem rampRetarget_pos (rp : Ramp) (t : Sample) {n : Nat} (hn : 0 < n) :
    rampRetarget rp t n = ⟨t, rp.cur, fdiv (fsub t rp.cur) (ofNat n), 0⟩ := if_neg hn.ne'

/-- Before its last sample a ramp adds its step. -/
theorem rampStep_before_last {rp : Ramp} {n : Nat} (h : rp.count + 1 < n) :
    rampStep rp n = { rp with cur := fadd rp.cur rp.step, count := rp.count + 1 } := by
  rw [rampStep, if_pos (by omega), if_neg h.ne]

/-- At its last sample a ramp takes the value of its target. -/
theorem rampStep_last {rp : Ramp} {n : Nat} (h : rp.count + 1 = n) :
    rampStep rp n = { rp with cur := rp.last, count := n } := by
  rw [rampStep, if_pos (by omega), if_pos h, h]

/-- A ramp whose counter is saturated stays as it is. -/
theorem rampStep_saturated {rp : Ramp} {n : Nat} (h : n ≤ rp.count) : rampStep rp n = rp := if_neg h.not_gt

/-- The ramp `k` samples after `rp`. -/
def rampRun (n : Nat) (rp : Ramp) (k : Nat) : Ramp := (fun r => rampStep r n)^[k] rp

theorem rampRun_succ (n : Nat) (rp : Ramp) (k : Nat) : rampRun n rp (k + 1) = rampStep (rampRun n rp k) n :=
  Function.iterate_succ_apply' _ k rp

/-- A retargeted ramp before its last sample: `k` rounded additions of its step from where it started. -/
theorem rampRun_rampRetarget_of_lt (rp : Ramp) (t : Sample) {n k : Nat} (hk : k < n) :
    rampRun n (rampRetarget rp t n) k =
      ⟨t, (fun y => fadd y (fdiv (fsub t rp.cur) (ofNat n)))^[k] rp.cur, fdiv (fsub t rp.cur) (ofNat n), k⟩ := by
  induction k with
  | zero => exact rampRetarget_pos rp t hk
  | succ k ih => rw [rampRun_succ, ih (by omega), rampStep_before_last hk, Function.iterate_succ_apply']

/-- A retargeted ramp from its last sample on: on its target, its counter saturated. -/
theorem rampRun_rampRetarget_of_le (rp : Ramp) (t : Sample) {n k : Nat} (hk : n ≤ k) :
    ∃ step, rampRun n (rampRetarget rp t n) k = ⟨t, t, step, n⟩ := by
  induction k, hk using Nat.le_induction with
  | base =>
    cases n with
    | zero => exact ⟨f0, rampRetarget_zero rp t⟩
    | succ m => exact ⟨_, by rw [rampRun_succ, rampRun_rampRetarget_of_lt rp t m.lt_succ_self, rampStep_last rfl]⟩
  | succ k _ ih =>
    obtain ⟨step, hrun⟩ := ih
    exact ⟨step, by rw [rampRun_succ, hrun, rampStep_saturated (Nat.le_refl n)]⟩

/-- Settles O42: the two stretches of a retargeted ramp. -/
theorem rampReachesItsTarget : Obligations.RampReachesItsTarget := by
  unfold Obligations.RampReachesItsTarget
  intro rp t n k step q
  rcases Nat.lt_or_ge k n with hk | hk
  · have hrun : q = ⟨t, (fun y => fadd y step)^[k] rp.cur, step, k⟩ := rampRun_rampRetarget_of_lt rp t hk
    rw [hrun]
    exact ⟨rfl, (Nat.min_eq_left hk.le).symm, fun _ => rfl, fun h => absurd hk h.not_gt⟩
  · obtain ⟨_, hrun⟩ : ∃ step', q = ⟨t, t, step', n⟩ := rampRun_rampRetarget_of_le rp t hk
    rw [hrun]
    exact ⟨rfl, (Nat.min_eq_right hk).symm, fun h => absurd h hk.not_gt, fun _ => rfl⟩

/-! ### The ramp length of a time (R282) -/

theorem fge_iff {a b : Sample} :
    fge a b = true ↔ isNaN a = false ∧ isNaN b = false ∧ orderKey b ≤ orderKey a := by
  simp [fge, fle, ordered, and_assoc, and_left_comm]

theorem twoPow31_eq : twoPow31 = 0x4F000000#32 := by decide

/-- A Sample from `1.0` up is not negative. -/
theorem signBit_of_fge_one {p : Sample} (h : fge p f1 = true) : signBit p = false := by
  have hone : orderKey f1 = 0x3F800000 := by decide
  obtain ⟨-, -, hle⟩ := fge_iff.1 h
  rw [hone, orderKey] at hle
  split at hle
  · omega
  · simpa using ‹¬signBit p = true›

/-- A Sample from `1.0` up and below `2^31`: its bits lie below those of `2^31`. -/
theorem magBits_of_below_twoPow31 {p : Sample} (h1 : fge p f1 = true) (h2 : fge p twoPow31 = false) :
    magBits p < 0x4F000000 := by
  have htop : isNaN twoPow31 = false ∧ orderKey twoPow31 = 0x4F000000 := by rw [twoPow31_eq]; decide
  obtain ⟨hp, -, -⟩ := fge_iff.1 h1
  have hlt : ¬ orderKey twoPow31 ≤ orderKey p := fun hle => by
    rw [fge_iff.2 ⟨hp, htop.1, hle⟩] at h2; cases h2
  rw [htop.2, orderKey, signBit_of_fge_one h1, if_neg Bool.false_ne_true] at hlt
  omega

/-- Bits below those of `2^31` make a magnitude below `2^31`. -/
theorem scaledMag_lt_of_magBits {p : Sample} (h : magBits p < 0x4F000000) : scaledMag p < 2 ^ 31 * 2 ^ 149 := by
  obtain ⟨e, m, hscaled, hbits, hm, he⟩ := exists_scaledMag p
  have hexp : e ≤ 156 := by omega
  calc scaledMag p = m * 2 ^ e := hscaled
    _ ≤ m * 2 ^ 156 := Nat.mul_le_mul_left m (Nat.pow_le_pow_right (by decide) hexp)
    _ < 2 ^ 31 * 2 ^ 149 := by omega

/-- The integer part of a Sample from `1.0` up and below `2^31`. -/
theorem ftrunc_of_below_twoPow31 {p : Sample} (h1 : fge p f1 = true) (h2 : fge p twoPow31 = false) :
    0 ≤ ftrunc p ∧ ftrunc p ≤ 2147483647 := by
  have hbits := magBits_of_below_twoPow31 h1 h2
  have hfin : isFinite p = true := isFinite_iff.2 (by omega)
  have htrunc : ftrunc p = ((scaledMag p / 2 ^ 149 : Nat) : Int) := by
    rw [ftrunc, if_pos hfin, scaled, signBit_of_fge_one h1]
    rfl
  have hlt : scaledMag p / 2 ^ 149 < 2 ^ 31 :=
    Nat.div_lt_of_lt_mul (Nat.mul_comm _ _ ▸ scaledMag_lt_of_magBits hbits)
  omega

theorem fge_one_of_fge_twoPow31 {p : Sample} (h : fge p twoPow31 = true) : fge p f1 = true := by
  have hkeys : isNaN f1 = false ∧ orderKey f1 ≤ orderKey twoPow31 := by rw [twoPow31_eq]; decide
  obtain ⟨hp, -, hle⟩ := fge_iff.1 h
  exact fge_iff.2 ⟨hp, hkeys.1, hkeys.2.trans hle⟩

theorem rampLen_of_lt_one {C : Cfg} {t : Sample} (h : fge (fmul t C.sr) f1 = false) : rampLen C t = 0 := by
  simp [rampLen, h]

theorem rampLen_of_ge_twoPow31 {C : Cfg} {t : Sample} (h : fge (fmul t C.sr) twoPow31 = true) :
    rampLen C t = 2147483647 := by
  simp [rampLen, h, fge_one_of_fge_twoPow31 h]

theorem rampLen_of_between {C : Cfg} {t : Sample} (h1 : fge (fmul t C.sr) f1 = true)
    (h2 : fge (fmul t C.sr) twoPow31 = false) : (rampLen C t : Int) = ftrunc (fmul t C.sr) := by
  simp [rampLen, h1, h2, (ftrunc_of_below_twoPow31 h1 h2).1]

theorem rampLen_le (C : Cfg) (t : Sample) : rampLen C t ≤ 2147483647 := by
  cases h1 : fge (fmul t C.sr) f1 with
  | false => rw [rampLen_of_lt_one h1]; omega
  | true =>
    cases h2 : fge (fmul t C.sr) twoPow31 with
    | true => rw [rampLen_of_ge_twoPow31 h2]
    | false =>
      have heq := rampLen_of_between h1 h2
      have hle := (ftrunc_of_below_twoPow31 h1 h2).2
      omega

/-- Settles O43: the three ranges of `t * SR`, and the bound in each. -/
theorem rampLengthOfATime : Obligations.RampLengthOfATime := by
  unfold Obligations.RampLengthOfATime
  intro C t
  rw [← twoPow31_eq]
  exact ⟨rampLen_le C t, rampLen_of_lt_one, rampLen_of_ge_twoPow31, rampLen_of_between⟩

end Sys2Proof.Machine
end

section
/-! PROOFS. COMPUTE on a SIG, a SIGTO and a VARPORT (44_ramp_mix.md R281, R289, R299). -/

namespace Sys2Proof.Machine

open Sys2Proof.Config (cfg)

/-- COMPUTE on a ready unit, its compute rule picked by its type. -/
theorem computes_of_computeUnit_eq {u : Byte} {s : State} {U V : DspUnit} (hready : Ready cfg u s U)
    (hV : computeUnit cfg s U = V) : Computes cfg u s U V := hV ▸ computes_of_ready hready

/-! ### SIG and SIGTO (R281, R289) -/

/-- Settles O44: the ramps before each sample of a SIGTO are the states of the run that COMPUTE makes over the block. -/
theorem computeSigAndSigto : Obligations.ComputeSigAndSigto := by
  unfold Obligations.ComputeSigAndSigto
  refine fun u s U hready => ⟨fun hbody => ?sig, fun g hbody => ?sigto⟩
  case sig =>
    exact ⟨computeSig cfg s U, computes_of_computeUnit_eq hready (by rw [computeUnit, hbody]), rfl, hbody,
      by simp [computeSig], fun i hi => by simp [computeSig, hi]⟩
  case sigto =>
    obtain ⟨q, hq0, hstep, hend, hout⟩ := scan_range_spec (sigtoSample g.n (pval cfg s U 0)) g.rp cfg.bufsize
    exact ⟨computeSigto cfg s U g, q, computes_of_computeUnit_eq hready (by rw [computeUnit, hbody]), rfl,
      congrArg (fun rp => Body.sigto ⟨rp, g.n⟩) hend, hq0, by simp [computeSigto],
      fun i hi => ⟨hstep i, hstep i ▸ hout i hi⟩⟩

/-! ### VARPORT (R299) -/

/-- The target a VARPORT sees makes it active, and changes its ramp and nothing else. -/
theorem varportSee_eq (t : Sample) (p : VarPort) :
    varportSee t p =
      { p with
        rp := if fne t p.rp.last = true then rampRetarget p.rp t p.n else p.rp
        active := fne t p.rp.last || p.active } := by
  unfold varportSee
  cases fne t p.rp.last <;> rfl

/-- One sample of R299 on the ramp of a VARPORT: in ramp, on the way to the timeout, or standing. -/
def varportRamp (n timeout : Nat) (active : Bool) (rp : Ramp) : Ramp :=
  if active = false then rp
  else if rp.count < n then rampStep rp n
  else if rp.count < timeout then { rp with count := rp.count + 1 }
  else rp

/-- A sample changes the ramp of a VARPORT only, and gives its value. -/
theorem varportSample_eq (v : VarPort) (i : Nat) :
    varportSample v i =
      ({ v with rp := varportRamp v.n v.timeout v.active v.rp }, (varportRamp v.n v.timeout v.active v.rp).cur) := by
  cases h : v.active <;> simp [varportSample, varportRamp, h]

/-- The VARPORT after the last sample of a block, before the deadline is looked at. -/
def varportRun (C : Cfg) (U : DspUnit) (p : VarPort) : VarPort :=
  (scan varportSample (varportSee (U.slot 0).c p) (List.range C.bufsize)).1

/-- At the end of a block a VARPORT that has reached its deadline becomes inactive and raises its flag. -/
theorem computeVarport_end (C : Cfg) (U : DspUnit) (p : VarPort) :
    (computeVarport C U p).body = .varport
      { varportRun C U p with active := (varportRun C U p).active && !varportDone (varportRun C U p) } ∧
    (computeVarport C U p).cb = (varportDone (varportRun C U p) || U.cb) := by
  unfold computeVarport varportRun
  generalize scan varportSample (varportSee (U.slot 0).c p) (List.range C.bufsize) = run
  cases h : varportDone run.1 <;> simp [h]

/-- Settles O45: the VARPORTs before each sample are the states of the run over the block, of which only the ramp
changes. -/
theorem computeVarportBlock : Obligations.ComputeVarportBlock := by
  unfold Obligations.ComputeVarportBlock
  intro u s U p hready hbody
  obtain ⟨v, hv0, hstep, hend, hout⟩ := scan_range_spec varportSample (varportSee (U.slot 0).c p) cfg.bufsize
  have hfixed : ∀ i, v i = { p with rp := (v i).rp, active := fne (U.slot 0).c p.rp.last || p.active } := by
    intro i
    induction i with
    | zero => rw [hv0, varportSee_eq]
    | succ i ih => rw [hstep, varportSample_eq, ih]
  have hramp : ∀ i, (v (i + 1)).rp =
      varportRamp p.n p.timeout (fne (U.slot 0).c p.rp.last || p.active) (v i).rp := by
    intro i
    rw [hstep, varportSample_eq, hfixed i]
  have hrun : varportRun cfg U p = v cfg.bufsize := hend
  obtain ⟨hstate, hflag⟩ := computeVarport_end cfg U p
  rw [hrun, hfixed cfg.bufsize] at hstate hflag
  exact ⟨computeVarport cfg U p, fun i => (v i).rp, computes_of_computeUnit_eq hready (by rw [computeUnit, hbody]),
    by simp [computeVarport], by simp only [hv0, varportSee_eq],
    fun i hi => ⟨hramp i, (hout i hi).trans (congrArg (fun w => some w.rp.cur) (hstep i).symm)⟩, hstate, hflag⟩

end Sys2Proof.Machine
end

section
/-! PROOFS. MIXADD, MIXDEL and MIXAMP (44_ramp_mix.md R301, R303 to R305): what each does to the list of inputs, split
at the entry of its key. -/

namespace Sys2Proof.Machine

open Sys2Proof.Config (cfg)

/-- The MIXER in a slot of a sound state is sound. -/
theorem State.Inv.mixer_wf {C : Cfg} {s : State} {u : Nat} {U : DspUnit} {m : Mixer} (hs : State.Inv C s)
    (hU : liveUnit C s u = some U) (hm : U.body = .mixer m) : m.Wf C := by
  have hbody := (hs.liveUnit_wf hU).body
  rwa [hm] at hbody

/-! ### The entry of a key -/

theorem hasKey_iff {m : Mixer} {key : Word} : hasKey m key = true ↔ ∃ e ∈ m.ins, e.key = key := by
  simp [hasKey]

section entry
variable {before after : List MixIn} {old : MixIn}

/-- Where keys are pairwise distinct, an entry's key is that of no other. -/
theorem other_keys_ne (hkeys : ((before ++ old :: after).map (·.key)).Nodup) :
    (∀ e ∈ before, e.key ≠ old.key) ∧ ∀ e ∈ after, e.key ≠ old.key := by
  rw [List.map_append, List.map_cons, List.nodup_middle, List.nodup_cons, List.mem_append, not_or] at hkeys
  obtain ⟨⟨hbefore, hafter⟩, -⟩ := hkeys
  exact ⟨fun e he hek => hbefore (hek ▸ List.mem_map_of_mem he),
    fun e he hek => hafter (hek ▸ List.mem_map_of_mem he)⟩

/-- Changing the entries of one key changes that one entry, in its place. -/
theorem map_entry_of_key (hkeys : ((before ++ old :: after).map (·.key)).Nodup) (f : MixIn → MixIn) :
    ((before ++ old :: after).map fun e => if e.key = old.key then f e else e) = before ++ f old :: after := by
  obtain ⟨hbefore, hafter⟩ := other_keys_ne hkeys
  have hkeep : ∀ l : List MixIn, (∀ e ∈ l, e.key ≠ old.key) →
      (l.map fun e => if e.key = old.key then f e else e) = l :=
    fun l hl => (List.map_congr_left fun e he => if_neg (hl e he)).trans (List.map_id l)
  rw [List.map_append, List.map_cons, hkeep _ hbefore, hkeep _ hafter, if_pos rfl]

/-- Removing the entries of one key removes that one entry; the others keep their order. -/
theorem filter_entry_of_key (hkeys : ((before ++ old :: after).map (·.key)).Nodup) :
    ((before ++ old :: after).filter fun e => decide (e.key ≠ old.key)) = before ++ after := by
  obtain ⟨hbefore, hafter⟩ := other_keys_ne hkeys
  have hkeep : ∀ l : List MixIn, (∀ e ∈ l, e.key ≠ old.key) →
      (l.filter fun e => decide (e.key ≠ old.key)) = l :=
    fun l hl => List.filter_eq_self.2 fun e he => decide_eq_true (hl e he)
  rw [List.filter_append, List.filter_cons, hkeep _ hbefore, hkeep _ hafter, if_neg (by simp)]

end entry

/-- Setting a target replaces one gain by itself with that target. -/
theorem setTarget_eq_set {o : Nat} {gs : List Gain} {g : Gain} (gain : Sample) (hg : gs[o]? = some g) :
    setTarget o gain gs = gs.set o { g with target := gain } := by
  rw [setTarget, List.modify_eq_set_getElem?, hg]
  rfl

/-! ### The commands on a live MIXER -/

section commands
variable {u : Byte} {s : State} {U : DspUnit} {m : Mixer} {key : Word}

theorem exec_mixadd_of_room {h : Addr} (hU : liveUnit cfg s u.toNat = some U) (hm : U.body = .mixer m)
    (hb : bindOk cfg s u.toNat h cfg.bufsize = true) (hroom : hasKey m key = true ∨ m.ins.length < cfg.maxmixin) :
    exec (.mixadd u key h) s = done (putUnit u.toNat { U with body := .mixer (mixRegister m key h) } s) := by
  refine (withMixer_some hU hm).trans ?_
  rw [hb, if_neg (by decide), if_neg]
  rcases hroom with hk | hlt
  · simp [hk]
  · simp [hlt]

theorem exec_mixdel_of_hasKey (hU : liveUnit cfg s u.toNat = some U) (hm : U.body = .mixer m)
    (hk : hasKey m key = true) :
    exec (.mixdel u key) s = done (putUnit u.toNat
      { U with body := .mixer { m with ins := m.ins.filter fun e => decide (e.key ≠ key) } } s) := by
  refine (withMixer_some hU hm).trans ?_
  rw [hk, if_neg (by decide)]

theorem exec_mixamp_of_hasKey {vout : Byte} {gain : Sample} (hU : liveUnit cfg s u.toNat = some U)
    (hm : U.body = .mixer m) (hvout : vout.toNat < m.outs) (hk : hasKey m key = true) :
    exec (.mixamp u vout key gain) s = done (putUnit u.toNat
      { U with
        body := .mixer { m with
          ins := m.ins.map fun e =>
            if e.key = key then { e with g := setTarget vout.toNat gain e.g } else e } } s) := by
  refine (withMixer_some hU hm).trans ?_
  rw [hk, if_neg (by simpa using hvout), if_neg (by decide)]

end commands

/-- Settles O46: keys are pairwise distinct in a sound state, so each command touches the entry of its key only. -/
theorem mixerCommands : Obligations.MixerCommands := by
  unfold Obligations.MixerCommands
  intro u s U m key hs hU hm silent known becomes
  have hwf := hs.mixer_wf hU hm
  have hhas : ∀ {before old after}, m.ins = before ++ old :: after → old.key = key → hasKey m key = true :=
    fun hins hkey => hasKey_iff.2 ⟨_, hins ▸ List.mem_append_cons_self, hkey⟩
  refine ⟨fun h hb hnew hroom => ?append, fun h hb before old after hins hkey => ?replace,
    fun before old after hins hkey => ?delete, fun vout gain before old after hvout hins hkey => ?amp⟩
  case append =>
    have hreg : mixRegister m key h = { m with ins := m.ins ++ [silent h] } := by
      rw [mixRegister, if_neg (mt hasKey_iff.1 hnew)]
      rfl
    exact did_of_exec_eq_done hU (hreg ▸ exec_mixadd_of_room hU hm hb (.inr hroom))
  case replace =>
    have hk := hhas hins hkey
    subst hkey
    have hreg : mixRegister m old.key h = { m with ins := before ++ silent h :: after } := by
      rw [mixRegister, if_pos hk, hins, map_entry_of_key (hins ▸ hwf.keys)]
      rfl
    exact did_of_exec_eq_done hU (hreg ▸ exec_mixadd_of_room hU hm hb (.inl hk))
  case delete =>
    have hexec := exec_mixdel_of_hasKey hU hm (hhas hins hkey)
    subst hkey
    rw [hins, filter_entry_of_key (hins ▸ hwf.keys)] at hexec
    exact did_of_exec_eq_done hU hexec
  case amp =>
    have hlen : vout.toNat < old.g.length := by
      rw [hwf.gains old (hins ▸ List.mem_append_cons_self)]
      exact hvout
    have hg := List.getElem?_eq_getElem hlen
    have hexec := exec_mixamp_of_hasKey (gain := gain) hU hm hvout (hhas hins hkey)
    subst hkey
    rw [hins, map_entry_of_key (hins ▸ hwf.keys), setTarget_eq_set gain hg] at hexec
    exact ⟨_, hg, did_of_exec_eq_done hU hexec⟩

end Sys2Proof.Machine
end

section
/-! PROOFS. COMPUTE on a MIXER (44_ramp_mix.md R306): the gains over a block, the rows after each entry, and the output
they make. -/

namespace Sys2Proof.Machine

open Sys2Proof.Config (cfg)

/-- A run over a list goes through states `q 0, q 1, ..`, one more than the list has elements; result `k` is that of the
step from `q k`. -/
theorem scan_spec {σ β α : Type} (f : σ → β → σ × α) (st : σ) (xs : List β) :
    ∃ q : Nat → σ, q 0 = st ∧ (scan f st xs).1 = q xs.length ∧
      ∀ k x, xs[k]? = some x → q (k + 1) = (f (q k) x).1 ∧ (scan f st xs).2[k]? = some (f (q k) x).2 := by
  induction xs generalizing st with
  | nil => exact ⟨fun _ => st, rfl, rfl, fun k x hk => by simp at hk⟩
  | cons y ys ih =>
    obtain ⟨q, hq0, hend, hstep⟩ := ih (f st y).1
    refine ⟨fun | 0 => st | k + 1 => q k, rfl, hend, fun k x hk => ?_⟩
    cases k with
    | zero =>
      obtain rfl : y = x := by simpa using hk
      exact ⟨hq0, rfl⟩
    | succ k => exact hstep k x (by simpa using hk)

/-- Element `i` of row `o`, of rows of `n` elements laid out one after the other (10_state.md R29). -/
theorem flatten_getElem?_of_rows {rows : List (List Sample)} {row : List Sample} {n o i : Nat}
    (hrows : ∀ row ∈ rows, row.length = n) (ho : rows[o]? = some row) (hi : i < n) :
    rows.flatten[o * n + i]? = row[i]? := by
  induction rows generalizing o with
  | nil => simp at ho
  | cons r rs ih =>
    have hr : r.length = n := hrows r List.mem_cons_self
    cases o with
    | zero =>
      obtain rfl : r = row := by simpa using ho
      rw [Nat.zero_mul, Nat.zero_add, List.flatten_cons, List.getElem?_append_left (hr.symm ▸ hi)]
    | succ o =>
      have hoff : (o + 1) * n + i = r.length + (o * n + i) := by rw [hr, Nat.succ_mul]; omega
      rw [hoff, List.flatten_cons, List.getElem?_append_right (Nat.le_add_right _ _), Nat.add_sub_cancel_left]
      exact ih (fun row' h => hrows row' (List.mem_cons_of_mem r h)) (by simpa using ho)

/-! ### One gain over a block -/

/-- The ramp of a gain after `i` samples of a block: the retarget test once, then one step per sample. -/
def gainRamp (n : Nat) (g : Gain) (i : Nat) : Ramp := rampRun n (rampSee g.rp g.target n) i

theorem gainRamp_succ (n : Nat) (g : Gain) (i : Nat) : gainRamp n g (i + 1) = rampStep (gainRamp n g i) n :=
  rampRun_succ n _ i

theorem gainBlock_eq (C : Cfg) (n : Nat) (g : Gain) :
    (gainBlock C n g).1 = { g with rp := gainRamp n g C.bufsize } ∧
      ∀ i, i < C.bufsize → (gainBlock C n g).2[i]? = some (gainRamp n g (i + 1)).cur := by
  obtain ⟨q, hq0, hstep, hend, hout⟩ := scan_range_spec
    (fun (rp : Ramp) (_ : Nat) => (rampStep rp n, (rampStep rp n).cur)) (rampSee g.rp g.target n) C.bufsize
  have hq : ∀ i, q i = gainRamp n g i := by
    intro i
    induction i with
    | zero => exact hq0
    | succ i ih => rw [hstep, ih, gainRamp_succ]
  refine ⟨?_, fun i hi => ?_⟩
  · rw [← hq, ← hend]; rfl
  · rw [gainRamp_succ, ← hq]; exact hout i hi

/-! ### One entry over a block -/

/-- Element `i` of row `o`. -/
def rowSample (rows : List (List Sample)) (o i : Nat) : Sample := (rows.getD o []).getD i f0

/-- The rows of a MIXER: one per output, each of one block. -/
structure RowsOk (C : Cfg) (outs : Nat) (rows : List (List Sample)) : Prop where
  count : rows.length = outs
  block : ∀ row ∈ rows, row.length = C.bufsize

/-- The zeroed rows, element by element. -/
theorem rowSample_zero {outs n o i : Nat} (ho : o < outs) (hi : i < n) :
    rowSample (List.replicate outs (List.replicate n f0)) o i = f0 := by
  simp [rowSample, ho, hi]

theorem RowsOk.getElem?_rowSample {C : Cfg} {outs : Nat} {rows : List (List Sample)} (h : RowsOk C outs rows)
    {o i : Nat} (ho : o < outs) (hi : i < C.bufsize) :
    ∃ row, rows[o]? = some row ∧ row[i]? = some (rowSample rows o i) := by
  have ho' : o < rows.length := h.count ▸ ho
  have hi' : i < rows[o].length := h.block _ (List.getElem_mem ho') ▸ hi
  exact ⟨rows[o], List.getElem?_eq_getElem ho', by simp [rowSample, ho', hi']⟩

/-- An entry of a sound MIXER keeps the rows in shape. -/
theorem RowsOk.afterEntry {C : Cfg} (s : State) {m : Mixer} {rows : List (List Sample)} {e : MixIn} (hm : m.Wf C)
    (he : e ∈ m.ins) (h : RowsOk C m.outs rows) : RowsOk C m.outs (mixEntry C s m.n rows e).1 := by
  obtain ⟨hcount, hblock, -⟩ := mixEntry_spec C s m.n h.count h.block (hm.gains e he) (hm.counts e he)
  exact ⟨hcount, hblock⟩

/-- The output buffer of a MIXER, element by element. -/
theorem RowsOk.flatten_getElem? {C : Cfg} {outs : Nat} {rows : List (List Sample)} (h : RowsOk C outs rows)
    {o i : Nat} (ho : o < outs) (hi : i < C.bufsize) :
    rows.flatten[o * C.bufsize + i]? = some (rowSample rows o i) := by
  obtain ⟨row, hrow, hsample⟩ := h.getElem?_rowSample ho hi
  rw [flatten_getElem?_of_rows h.block hrow hi, hsample]

/-- An entry adds its input times its gain to every sample of the output of that gain. -/
theorem rowSample_mixEntry {C : Cfg} (s : State) (n : Nat) {outs : Nat} {rows : List (List Sample)}
    (h : RowsOk C outs rows) {e : MixIn} {g : Gain} {o i : Nat} (ho : o < outs) (hg : e.g[o]? = some g)
    (hi : i < C.bufsize) :
    rowSample (mixEntry C s n rows e).1 o i =
      fadd (rowSample rows o i) (fmul (elemAt C s e.h i) (gainRamp n g (i + 1)).cur) := by
  obtain ⟨row, hrow, hsample⟩ := h.getElem?_rowSample ho hi
  have hin : (memRead C s e.h C.bufsize)[i]? = some (elemAt C s e.h i) := by simp [memRead, hi]
  have hnew : (mixEntry C s n rows e).1[o]? =
      some (mixRow (memRead C s e.h C.bufsize) row (gainBlock C n g).2) := by
    simp [mixEntry, List.getElem?_zipWith, hrow, hg]
  have hmix : (mixRow (memRead C s e.h C.bufsize) row (gainBlock C n g).2)[i]? =
      some (fadd (rowSample rows o i) (fmul (elemAt C s e.h i) (gainRamp n g (i + 1)).cur)) := by
    simp [mixRow, List.getElem?_zipWith, hsample, hin, (gainBlock_eq C n g).2 i hi]
  simp [rowSample, hnew, hmix]

/-! ### The block (R306) -/

/-- The ramp of gain `o` of entry `k` after `i` samples of a block. -/
def mixerRamp (m : Mixer) (k o i : Nat) : Ramp :=
  ((m.ins[k]?.bind fun e => e.g[o]?).elim (rampAtRest f0 m.n) fun g => gainRamp m.n g i)

theorem mixerRamp_eq {m : Mixer} {k o : Nat} {e : MixIn} {g : Gain} (hk : m.ins[k]? = some e)
    (hg : e.g[o]? = some g) (i : Nat) : mixerRamp m k o i = gainRamp m.n g i := by
  simp [mixerRamp, hk, hg]

/-- Settles O47: the rows before each entry are the states of the run over the list of inputs. -/
theorem computeMixerBlock : Obligations.ComputeMixerBlock := by
  unfold Obligations.ComputeMixerBlock
  intro u s U m hs hready hbody
  have hwf := hs.mixer_wf hready.1 hbody
  obtain ⟨rows, hzero, hend, hstep⟩ := scan_spec (mixEntry cfg s m.n)
    (List.replicate m.outs (List.replicate cfg.bufsize f0)) m.ins
  have hrows : ∀ k, k ≤ m.ins.length → RowsOk cfg m.outs (rows k) := by
    intro k
    induction k with
    | zero => rw [hzero]; exact fun _ => ⟨by simp, by simp⟩
    | succ k ih =>
      intro hk
      rw [(hstep k _ (List.getElem?_eq_getElem hk)).1]
      exact (ih (Nat.le_of_succ_le hk)).afterEntry s hwf (List.getElem_mem hk)
  have hlast := hrows m.ins.length (Nat.le_refl _)
  have hout : (computeMixer cfg s U m).out = (rows m.ins.length).flatten := congrArg List.flatten hend
  refine ⟨computeMixer cfg s U m, _, fun k => rowSample (rows k), mixerRamp m,
    computes_of_computeUnit_eq hready (by rw [computeUnit, hbody]), rfl, rfl, rfl, rfl, scan_length _ _ _,
    ?length, fun o i ho hi => ⟨?start, ?output⟩, fun k e hk => ?entry⟩
  case length => rw [hout, flatten_length_of_rows hlast.block, hlast.count]
  case start => exact (congrArg (rowSample · o i) hzero).trans (rowSample_zero ho hi)
  case output => rw [hout]; exact hlast.flatten_getElem? ho hi
  case entry =>
    have hklt : k < m.ins.length := (List.getElem?_eq_some_iff.1 hk).1
    obtain ⟨hnext, hresult⟩ := hstep k e hk
    refine ⟨fun o g hg => ⟨mixerRamp_eq hk hg 0, fun i hi => ⟨?ramp, ?sum⟩⟩, _, hresult, rfl, rfl,
      by simp [mixEntry], fun o g g' hg hg' => ?gain⟩
    case ramp => rw [mixerRamp_eq hk hg, mixerRamp_eq hk hg, gainRamp_succ]
    case sum =>
      have ho : o < m.outs := by
        rw [← hwf.gains e (List.mem_of_getElem? hk)]
        exact (List.getElem?_eq_some_iff.1 hg).1
      rw [mixerRamp_eq hk hg]
      dsimp only
      rw [hnext]
      exact rowSample_mixEntry s m.n (hrows k hklt.le) ho hg hi
    case gain =>
      obtain rfl : (gainBlock cfg m.n g).1 = g' := by simpa [mixEntry, hg] using hg'
      rw [mixerRamp_eq hk hg, (gainBlock_eq cfg m.n g).1]
      exact ⟨rfl, rfl⟩

end Sys2Proof.Machine
end

section
/-! PROOFS. COMPUTE on a SCALE (44_ramp_mix.md R311, R312). -/

namespace Sys2Proof.Machine

open Sys2Proof.Config (cfg)

/-- The map of R311, the power law of its exponent given. -/
def scaleWith (bend : Sample → Sample) (x a b c d : Sample) : Sample :=
  let irev := fgt a b
  let orev := fgt c d
  let imin := if irev then b else a
  let imax := if irev then a else b
  let omin := if orev then d else c
  let omax := if orev then c else d
  let irange := fsub imax imin
  let orange := fsub omax omin
  let raw := fdiv (fsub (fclamp x imin imax) imin) irange
  let nrm := if irev then fsub f1 raw else raw
  if feq irange f0 = true ∨ feq orange f0 = true then c
  else if orev then fsub omax (fmul (bend nrm) orange) else fadd (fmul (bend nrm) orange) omin

theorem scaleSample_eq (C : Cfg) (e x a b c d : Sample) :
    scaleSample C e x a b c d = scaleWith (fun nrm => if feq e f1 then nrm else C.pow nrm e) x a b c d := by
  have hbend : ∀ y : Sample, (if fne e f1 then C.pow y e else y) = if feq e f1 then y else C.pow y e := by
    intro y
    cases h : feq e f1 <;> simp [fne, h]
  simp only [scaleSample, scaleWith, hbend, Bool.or_eq_true]

/-- With an exponent of `1.0` a SCALE is linear: the power of the configuration plays no part. -/
theorem scaleSample_one (C : Cfg) (x a b c d : Sample) : scaleSample C f1 x a b c d = scaleWith id x a b c d := by
  have hone : feq f1 f1 = true := by decide
  simp only [scaleSample_eq, hone, if_true]
  rfl

/-- Every sample of a SCALE is that of R311 on its input and its four bounds. -/
theorem computeScale_out (C : Cfg) (s : State) (U : DspUnit) {i : Nat} (hi : i < C.bufsize) :
    (computeScale C s U).out[i]? =
      some (scaleWith (fun nrm => if feq (U.slot 4).c f1 then nrm else C.pow nrm (U.slot 4).c) (inputAt C s U i)
        (pval C s U 0 i) (pval C s U 1 i) (pval C s U 2 i) (pval C s U 3 i)) := by
  simp [computeScale, hi, scaleSample_eq]

/-- Settles O48. -/
theorem computeScaleBlock : Obligations.ComputeScaleBlock := by
  unfold Obligations.ComputeScaleBlock
  intro u s U hready hbody
  exact ⟨computeScale cfg s U, computes_of_computeUnit_eq hready (by rw [computeUnit, hbody]), rfl, hbody,
    by simp [computeScale], fun i hi => computeScale_out cfg s U hi⟩

/-- Settles O49: with an exponent of `1.0` both cases are closed computations. -/
theorem scaleIsExactAndSymmetric : Obligations.ScaleIsExactAndSymmetric := by
  unfold Obligations.ScaleIsExactAndSymmetric
  intro C
  have hforward : scaleWith id fHalf f0 f1 0x41200000#32 0x41A00000#32 = 0x41700000#32 := by decide +kernel
  have hreversed : scaleWith id fHalf f1 f0 0x41200000#32 0x41A00000#32 = 0x41700000#32 := by decide +kernel
  exact ⟨(scaleSample_one C _ _ _ _ _).trans hforward, (scaleSample_one C _ _ _ _ _).trans hreversed⟩

end Sys2Proof.Machine
end

section
/-! PROOFS. What NEW.SIG, NEW.SIGTO, NEW.VARPORT, NEW.MIXER and NEW.SCALE build (44_ramp_mix.md R280, R285, R295, R297,
R300, R310; 40_system.md R141). -/

namespace Sys2Proof.Machine

open Sys2Proof.Config (cfg)

/-- Settles O57: the handles pass their check, and each type-specific state is the one its constructor names. -/
theorem newRampMixScaleUnits : Obligations.NewRampMixScaleUnits := by
  unfold Obligations.NewRampMixScaleUnits
  intro u s hfree num rest
  refine ⟨fun value hb => ?value, fun value time init => ?varport, fun outs time => ?mixer,
    fun inp a b c d e hb => ?scale⟩
  case value =>
    have hbind := (bindable_handles hb).2
    exact ⟨builds_of_exec_eq_newUnit rfl hfree hbind rfl rfl (by simp),
      fun time init => builds_of_exec_eq_newUnit rfl hfree hbind rfl rfl (by simp)⟩
  case varport => exact builds_of_exec_eq_newUnit rfl hfree (List.forall_mem_nil _) rfl rfl (by simp)
  case mixer => exact builds_of_exec_eq_newUnit rfl hfree (List.forall_mem_nil _) rfl rfl (by simp)
  case scale => exact builds_of_exec_eq_newUnit rfl hfree (bindOk_of_bindable hb) rfl rfl (by simp)

end Sys2Proof.Machine
end

section
/-! PROOFS. Small natural numbers as Samples (00_scope.md R6, R8): `toSample(n)` is exact below `2^24`, so that such
Samples compare, subtract and truncate as the numbers do. -/

namespace Sys2Proof

open Sys2Proof.Machine

/-! ### Order -/

/-- The bits below the sign are ordered as the magnitudes are. -/
theorem scaledMag_lt_of_magBits_lt {a b : Sample} (h : magBits a < magBits b) : scaledMag a < scaledMag b := by
  obtain ⟨ea, ma, hsa, hba, hma, hnorma⟩ := exists_scaledMag a
  obtain ⟨eb, mb, hsb, hbb, hmb, hnormb⟩ := exists_scaledMag b
  rw [hsa, hsb]
  rcases Nat.lt_trichotomy ea eb with hlt | rfl | hgt
  · have hmb' : 2 ^ 23 ≤ mb := hnormb.resolve_left (by omega)
    calc ma * 2 ^ ea < 2 ^ 24 * 2 ^ ea := Nat.mul_lt_mul_of_pos_right hma (Nat.two_pow_pos ea)
      _ = 2 ^ 23 * 2 ^ (ea + 1) := by rw [Nat.pow_succ' (n := ea), ← Nat.mul_assoc, ← Nat.pow_succ]
      _ ≤ mb * 2 ^ eb := Nat.mul_le_mul hmb' (Nat.pow_le_pow_right (by decide) hlt)
  · exact Nat.mul_lt_mul_of_pos_right (by omega) (Nat.two_pow_pos ea)
  · omega

theorem orderKey_of_nonneg {s : Sample} (h : signBit s = false) : orderKey s = magBits s := by
  simp [orderKey, h]

theorem feq_iff {a b : Sample} :
    feq a b = true ↔ isNaN a = false ∧ isNaN b = false ∧ orderKey a = orderKey b := by
  simp [feq, ordered, and_assoc]

theorem flt_iff {a b : Sample} :
    flt a b = true ↔ isNaN a = false ∧ isNaN b = false ∧ orderKey a < orderKey b := by
  simp [flt, ordered, and_assoc]

theorem not_flt_of_fge {a b : Sample} (h : fge a b = true) : ¬ flt a b = true := fun hlt => by
  obtain ⟨-, -, hle⟩ := fge_iff.1 h
  obtain ⟨-, -, hkey⟩ := flt_iff.1 hlt
  omega

theorem fge_trans {a b c : Sample} (hab : fge a b = true) (hbc : fge b c = true) : fge a c = true := by
  obtain ⟨ha, -, hle⟩ := fge_iff.1 hab
  obtain ⟨-, hc, hle'⟩ := fge_iff.1 hbc
  exact fge_iff.2 ⟨ha, hc, hle'.trans hle⟩

theorem natAbs_orderKey (s : Sample) : (orderKey s).natAbs = magBits s := by
  unfold orderKey; split <;> omega

/-- A Sample that is not a zero stands below zero exactly when its sign bit is set. -/
theorem decide_orderKey_neg {s : Sample} (h : isZero s = false) : decide (orderKey s < 0) = signBit s := by
  have hne : magBits s ≠ 0 := fun h0 => by simp [isZero_iff.2 h0] at h
  unfold orderKey
  cases hs : signBit s
  case false => simp
  case true => simpa using Nat.pos_of_ne_zero hne

/-- Samples at the same place of the order are the same, or the two zeros. -/
theorem eq_or_isZero_of_orderKey_eq {a b : Sample} (h : orderKey a = orderKey b) :
    a = b ∨ (isZero a = true ∧ isZero b = true) := by
  have hmag : magBits a = magBits b := by rw [← natAbs_orderKey, h, natAbs_orderKey]
  have hzero : isZero b = isZero a := by rw [isZero, isZero, hmag]
  cases hz : isZero a with
  | true => exact .inr ⟨rfl, hzero.trans hz⟩
  | false =>
    left
    rw [← withSign_parts a, ← withSign_parts b, ← decide_orderKey_neg hz, ← decide_orderKey_neg (hzero.trans hz), h,
      hmag]

/-! ### `toSample(n)` -/

/-- Bits below the sign make a Sample that is not negative. -/
theorem parts_of_lt {b : Nat} (h : b < 2 ^ 31) :
    signBit (withSign false b) = false ∧ magBits (withSign false b) = b := by
  have hnat : (withSign false b).toNat = b := by
    rw [withSign, if_neg Bool.false_ne_true, BitVec.toNat_ofNat]
    omega
  rw [signBit_eq_decide, magBits, hnat]
  exact ⟨decide_eq_false (by omega), Nat.mod_eq_of_lt h⟩

/-- A magnitude is read off the bits below the sign: 24 leading bits and an exponent, added. -/
theorem scaledMag_of_magBits {s : Sample} {e m : Nat} (hbits : magBits s = e * 2 ^ 23 + m) (hle : 2 ^ 23 ≤ m)
    (hlt : m < 2 ^ 24) : scaledMag s = m * 2 ^ e := by
  obtain ⟨e', m', hscaled, hbits', hlt', hnorm⟩ := exists_scaledMag s
  obtain rfl : e' = e := by omega
  obtain rfl : m' = m := by omega
  exact hscaled

/-- Below `2^24` some Sample has the value of the number: its leading bit goes to the exponent, the others to the
fraction. -/
theorem exists_scaled_eq_natCast {n : Nat} (h : n < 2 ^ 24) :
    ∃ s : Sample, isFinite s = true ∧ signBit s = false ∧ scaled s = n * 2 ^ 149 := by
  rcases Nat.eq_zero_or_pos n with rfl | hpos
  · exact ⟨f0, by decide, by decide, by decide⟩
  have hexp : n.log2 ≤ 23 := Nat.le_of_lt_succ ((Nat.log2_lt hpos.ne').2 h)
  obtain ⟨k, hk⟩ := Nat.exists_eq_add_of_le hexp
  have hle : 2 ^ 23 ≤ n * 2 ^ k := by
    rw [hk, Nat.pow_add]
    exact Nat.mul_le_mul_right _ (Nat.log2_self_le hpos.ne')
  have hlt : n * 2 ^ k < 2 ^ 24 := by
    rw [show 24 = n.log2 + 1 + k by omega, Nat.pow_add]
    exact Nat.mul_lt_mul_of_pos_right Nat.lt_log2_self (Nat.two_pow_pos k)
  obtain ⟨hsign, hmag⟩ := parts_of_lt (b := (n.log2 + 126) * 2 ^ 23 + n * 2 ^ k) (by omega)
  refine ⟨_, isFinite_iff.2 (by rw [hmag]; omega), hsign, ?_⟩
  have hval : n * 2 ^ k * 2 ^ (n.log2 + 126) = n * 2 ^ 149 := by
    rw [Nat.mul_assoc, ← Nat.pow_add]
    congr 2
    omega
  rw [scaled, hsign, if_neg Bool.false_ne_true, scaledMag_of_magBits hmag hle hlt, hval, Int.natCast_mul,
    Int.natCast_pow]
  rfl

/-- `toSample(n)` below `2^24` is not rounded. -/
theorem ofNat_spec {n : Nat} (h : n < 2 ^ 24) :
    isFinite (ofNat n) = true ∧ signBit (ofNat n) = false ∧ scaled (ofNat n) = n * 2 ^ 149 := by
  obtain ⟨s, hfin, hsign, hval⟩ := exists_scaled_eq_natCast h
  suffices hs : ofNat n = s from hs ▸ ⟨hfin, hsign, hval⟩
  have hround : ofNat n = if isZero s then zeroOf false else s := by
    rw [← roundScaled_scaled hfin, hval]; rfl
  rw [hround]
  split
  case isTrue hz => rw [← hsign, zeroOf_signBit hz]
  case isFalse => rfl

theorem fge_ofNat {m n : Nat} (hm : m < 2 ^ 24) (hn : n < 2 ^ 24) (h : n ≤ m) : fge (ofNat m) (ofNat n) = true := by
  obtain ⟨hfinm, hsignm, hvalm⟩ := ofNat_spec hm
  obtain ⟨hfinn, hsignn, hvaln⟩ := ofNat_spec hn
  refine fge_iff.2 ⟨isNaN_of_isFinite hfinm, isNaN_of_isFinite hfinn, ?_⟩
  rw [orderKey_of_nonneg hsignm, orderKey_of_nonneg hsignn, Int.ofNat_le]
  by_contra hgt
  have hmag := scaledMag_lt_of_magBits_lt (Nat.lt_of_not_le hgt)
  rw [← natAbs_scaled, ← natAbs_scaled, hvalm, hvaln] at hmag
  omega

theorem ofNat_zero : ofNat 0 = f0 := by decide

theorem ofNat_one : ofNat 1 = f1 := by decide

theorem fge_ofNat_zero {n : Nat} (h : n < 2 ^ 24) : fge (ofNat n) f0 = true := by
  rw [← ofNat_zero]
  exact fge_ofNat h (by decide) (Nat.zero_le n)

theorem ftrunc_ofNat {n : Nat} (h : n < 2 ^ 24) : ftrunc (ofNat n) = n := by
  obtain ⟨hfin, -, hval⟩ := ofNat_spec h
  rw [ftrunc, if_pos hfin, hval]
  exact Int.mul_tdiv_cancel _ (by decide)

/-! ### Differences -/

/-- The difference of finite Samples is that of their values, rounded once. -/
theorem fsub_of_finite {a b : Sample} (ha : isFinite a = true) (hb : isFinite b = true) :
    fsub a b = roundScaled (scaled a - scaled b) (signBit a && !signBit b) := by
  have hb' : isFinite (fneg b) = true := (isFinite_fneg b).trans hb
  simp [fsub, addCore, isNaN_of_isFinite, isInf_of_isFinite, ha, hb', Int.sub_eq_add_neg]

/-- A difference of two such numbers is that of the numbers, not rounded either. -/
theorem fsub_ofNat {m n : Nat} (hm : m < 2 ^ 24) (h : n ≤ m) : fsub (ofNat m) (ofNat n) = ofNat (m - n) := by
  obtain ⟨hfinm, hsignm, hvalm⟩ := ofNat_spec hm
  obtain ⟨hfinn, -, hvaln⟩ := ofNat_spec (h.trans_lt hm)
  rw [fsub_of_finite hfinm hfinn, hvalm, hvaln, hsignm, Bool.false_and, ← Int.sub_mul, ← Int.ofNat_sub h]
  rfl

end Sys2Proof
end

section
/-! PROOFS. The adjacent-pair crossfade (45_spatial_convert_resample.md R330). -/

namespace Sys2Proof.Machine

/-- Both laws take their gains from the fraction. -/
theorem crossfade_eq (pos : Sample) (N : Nat) (lin : Bool) :
    let j := min (ftrunc (xfPos pos N)).toNat (N - 2)
    let f := fsub (xfPos pos N) (ofNat j)
    crossfade pos N lin = ⟨j, if lin then fsub f1 f else fsqrt (fsub f1 f), if lin then f else fsqrt f⟩ := by
  cases lin <;> simp [crossfade]

/-- The lower channel has a channel above it. -/
theorem crossfade_j_add_two_le (pos : Sample) {N : Nat} (lin : Bool) (h : 2 ≤ N) :
    (crossfade pos N lin).j + 2 ≤ N := by
  have hj : (crossfade pos N lin).j = min (ftrunc (xfPos pos N)).toNat (N - 2) := by rw [crossfade_eq]
  omega

theorem fsqrt_zero : fsqrt f0 = f0 := by decide +kernel

theorem fsqrt_one : fsqrt f1 = f1 := by decide +kernel

/-! ### Where the position saturates -/

theorem xfPos_of_below {pos : Sample} (h : isNaN pos = true ∨ flt pos f0 = true) (N : Nat) :
    xfPos pos N = ofNat 0 := by
  have hge : ¬ fge pos f0 = true := fun hge => by
    rcases h with hnan | hlt
    · obtain ⟨hnum, -, -⟩ := fge_iff.1 hge
      simp [hnan] at hnum
    · exact not_flt_of_fge hge hlt
  rw [xfPos, if_neg hge, ofNat_zero]

theorem xfPos_ofNat {k N : Nat} (hk : k < N) (hN : N < 2 ^ 24) : xfPos (ofNat k) N = ofNat k := by
  have hlast : fge (ofNat (N - 1)) (ofNat k) = true := fge_ofNat (by omega) (by omega) (by omega)
  rw [xfPos, if_pos (fge_ofNat_zero (by omega))]
  exact if_neg (not_flt_of_fge hlast)

/-- From the last channel on the position stands at that channel. -/
theorem xfPos_of_above {pos : Sample} {N : Nat} (h2 : 2 ≤ N) (hN : N < 2 ^ 24) (h : fge pos (ofNat (N - 1)) = true) :
    xfPos pos N = ofNat (N - 1) := by
  obtain ⟨hnan, hnan', hle⟩ := fge_iff.1 h
  rw [xfPos, if_pos (fge_trans h (fge_ofNat_zero (by omega)))]
  split
  case isTrue => rfl
  case isFalse hgt =>
    have hkey : orderKey (ofNat (N - 1)) = orderKey pos :=
      le_antisymm hle (not_lt.1 fun hlt => hgt (flt_iff.2 ⟨hnan', hnan, hlt⟩))
    refine ((eq_or_isZero_of_orderKey_eq hkey).resolve_right fun hz => ?_).symm
    obtain ⟨-, -, hval⟩ := ofNat_spec (n := N - 1) (by omega)
    have := scaled_eq_zero_iff.2 hz.1
    omega

/-! ### The gains -/

/-- Where the position saturates to channel `k`, below the last, that channel has the whole signal. -/
theorem crossfade_of_xfPos {pos : Sample} {k N : Nat} (hN : N < 2 ^ 24) (hk : k + 1 < N) (h : xfPos pos N = ofNat k)
    (lin : Bool) : crossfade pos N lin = ⟨k, f1, f0⟩ := by
  have hj : min (ftrunc (ofNat k)).toNat (N - 2) = k := by rw [ftrunc_ofNat (by omega)]; omega
  have hfrac : fsub (ofNat k) (ofNat k) = f0 := by rw [fsub_ofNat (by omega) le_rfl, Nat.sub_self, ofNat_zero]
  have hgain : fsub f1 f0 = f1 := by decide
  cases lin <;> simp [crossfade_eq, h, hj, hfrac, hgain, fsqrt_zero, fsqrt_one]

/-- Where the position saturates to the last channel, the upper channel of the last pair has the whole signal. -/
theorem crossfade_of_xfPos_last {pos : Sample} {N : Nat} (h2 : 2 ≤ N) (hN : N < 2 ^ 24)
    (h : xfPos pos N = ofNat (N - 1)) (lin : Bool) : crossfade pos N lin = ⟨N - 2, f0, f1⟩ := by
  have hj : min (ftrunc (ofNat (N - 1))).toNat (N - 2) = N - 2 := by rw [ftrunc_ofNat (by omega)]; omega
  have hfrac : fsub (ofNat (N - 1)) (ofNat (N - 2)) = f1 := by
    rw [fsub_ofNat (by omega) (by omega), show N - 1 - (N - 2) = 1 by omega, ofNat_one]
  have hgain : fsub f1 f1 = f0 := by decide
  cases lin <;> simp [crossfade_eq, h, hj, hfrac, hgain, fsqrt_zero, fsqrt_one]

/-- Settles O50: the position saturates to an integer in each of the three cases, where the gains are exact. -/
theorem crossfadeAtIntegersAndEnds : Obligations.CrossfadeAtIntegersAndEnds := by
  unfold Obligations.CrossfadeAtIntegersAndEnds
  intro N lin h2 h255
  have hN : N < 2 ^ 24 := by omega
  refine ⟨fun pos => crossfade_eq pos N lin, fun pos => crossfade_j_add_two_le pos lin h2,
    fun pos h => ?below, fun k hk => ?integer, fun pos h => ?above⟩
  case below => exact crossfade_of_xfPos hN h2 (xfPos_of_below h N) lin
  case integer => exact crossfade_of_xfPos hN hk (xfPos_ofNat (by omega) hN) lin
  case above => exact crossfade_of_xfPos_last h2 hN (xfPos_of_above h2 hN h) lin

end Sys2Proof.Machine
end

section
/-! PROOFS. COMPUTE on a PAN, a SWITCH and a SELECTOR (45_spatial_convert_resample.md R333, R341, R347). -/

namespace Sys2Proof.Machine

open Sys2Proof.Config (cfg)

/-- The position of a sample of a PAN, scaled from `[0, 1]` to the channels, or of a SWITCH, in channels already. -/
def spreadPos (C : Cfg) (s : State) (U : DspUnit) (b : Spread) (i : Nat) : Sample :=
  if typeCode U.body = 16 then fmul (pval C s U 0 i) (ofNat (b.chnls - 1)) else pval C s U 0 i

/-- PAN and SWITCH differ in their position only. -/
theorem computeUnit_of_spread {C : Cfg} {s : State} {U : DspUnit} {b : Spread}
    (h : U.body = .pan b ∨ U.body = .switch b) :
    computeUnit C s U =
      { U with
        out := channelMajor b.chnls ((List.range C.bufsize).map fun i =>
          spreadRow (inputAt C s U i) (crossfade (spreadPos C s U b i) b.chnls b.lin) b.chnls) } := by
  rcases h with h | h
  · simp [computeUnit, h, computePan, spreadPos, typeCode]
  · simp [computeUnit, h, computeSwitch, spreadPos, typeCode]

/-- A block of rows spread over the channels, sample by sample. -/
theorem spreadRows_getElem? (n N : Nat) (x : Nat → Sample) (xf : Nat → Crossfade) {c i : Nat} (hc : c < N)
    (hi : i < n) :
    (channelMajor N ((List.range n).map fun i => spreadRow (x i) (xf i) N))[c * n + i]? = some (
      if c = (xf i).j then fmul (x i) (xf i).g0
      else if c = (xf i).j + 1 then fmul (x i) (xf i).g1 else f0) := by
  rw [channelMajor_at (row := spreadRow (x i) (xf i) N) (by simp) hc hi (by simp [hi])]
  simp [spreadRow, hc]

/-- Settles O51: the rows of PAN and SWITCH are spread around their positions; the two inputs a SELECTOR reads exist
because the lower channel of a crossfade has one above it. -/
theorem computeSpatialBlock : Obligations.ComputeSpatialBlock := by
  unfold Obligations.ComputeSpatialBlock
  intro u s U hready
  refine ⟨fun b hbody => ?spread, fun b hbody htwo => ?selector⟩
  case spread =>
    exact ⟨_, computes_of_computeUnit_eq hready (computeUnit_of_spread hbody), rfl, rfl,
      by simp [channelMajor_length], fun c i hc hi => spreadRows_getElem? _ _ _ _ hc hi⟩
  case selector =>
    refine ⟨computeSelector cfg s U b, computes_of_computeUnit_eq hready (by rw [computeUnit, hbody]), rfl, rfl,
      by simp [computeSelector], fun i hi => ?_⟩
    have hj := crossfade_j_add_two_le (pval cfg s U 0 i) b.lin htwo
    have hlo := List.getElem?_eq_getElem (Nat.lt_of_succ_lt hj)
    have hhi := List.getElem?_eq_getElem (Nat.lt_of_succ_le hj)
    exact ⟨_, _, hlo, hhi, by simp [computeSelector, selectSample, hi, List.getD_eq_getElem?_getD, hlo, hhi]⟩

end Sys2Proof.Machine
end

section
/-! PROOFS. COMPUTE on a conversion: its memo (45_spatial_convert_resample.md R351, R353). -/

namespace Sys2Proof.Machine

open Sys2Proof.Config (cfg)

/-- The memo holds what its input converts to. -/
def Conv.Sound (C : Cfg) (ck : Sample) (b : Conv) : Prop :=
  b.valid = true → b.lastout = convFn C b.fn b.lastin ck

/-- A sample of R351 keeps a sound memo, which then holds the conversion of the sample, or of the zero of the other
sign where the sample is a zero. -/
theorem convSample_spec (C : Cfg) (ck : Sample) (x : Nat → Sample) {b : Conv} (h : b.Sound C ck) (i : Nat) :
    let b' := (convSample C ck x b i).1
    b'.fn = b.fn ∧ b'.valid = true ∧ b'.Sound C ck ∧
      (b'.lastin = x i ∨ (isZero b'.lastin = true ∧ isZero (x i) = true)) := by
  intro b'
  cases hhit : b.valid && feq (x i) b.lastin with
  | false =>
    have hb' : b' = { b with valid := true, lastin := x i, lastout := convFn C b.fn (x i) ck } := by
      simp [b', convSample, hhit]
    rw [hb']
    exact ⟨rfl, rfl, fun _ => rfl, .inl rfl⟩
  | true =>
    have hb' : b' = b := by simp [b', convSample, hhit]
    obtain ⟨hvalid, heq⟩ := Bool.and_eq_true_iff.1 hhit
    obtain ⟨-, -, hkey⟩ := feq_iff.1 heq
    rw [hb']
    exact ⟨rfl, hvalid, h, eq_or_isZero_of_orderKey_eq hkey.symm⟩

/-- Settles O52: the memos before each sample are the states of the run over the block, and every one is sound. -/
theorem conversionMemoIsTransparent : Obligations.ConversionMemoIsTransparent := by
  unfold Obligations.ConversionMemoIsTransparent
  intro u s U b hready hbody hfn ck convert hsound
  have hconvert : ∀ v, convert v = convFn cfg b.fn v ck := fun _ => rfl
  obtain ⟨q, hq0, hstep, hend, hout⟩ :=
    scan_range_spec (convSample cfg ck (inputAt cfg s U)) b cfg.bufsize
  have hinv : ∀ i, (q i).fn = b.fn ∧ (q i).Sound cfg ck := by
    intro i
    induction i with
    | zero => rw [hq0]; exact ⟨rfl, hsound⟩
    | succ i ih =>
      obtain ⟨hkeep, -, hnext, -⟩ := convSample_spec cfg ck (inputAt cfg s U) ih.2 i
      rw [hstep]
      exact ⟨hkeep.trans ih.1, hnext⟩
  have hnext : ∀ i, (q (i + 1)).valid = true ∧ (q (i + 1)).lastout = convert (q (i + 1)).lastin ∧
      ((q (i + 1)).lastin = inputAt cfg s U i ∨
        (isZero (q (i + 1)).lastin = true ∧ isZero (inputAt cfg s U i) = true)) := by
    intro i
    obtain ⟨-, hvalid, -, hin⟩ := convSample_spec cfg ck (inputAt cfg s U) (hinv i).2 i
    rw [← hstep] at hvalid hin
    refine ⟨hvalid, ?_, hin⟩
    rw [hconvert, ← (hinv (i + 1)).1]
    exact (hinv (i + 1)).2 hvalid
  obtain ⟨n, hn⟩ := Nat.exists_eq_add_of_lt cfg_valid.bufsize_pos
  have hlast : cfg.bufsize = n + 1 := by omega
  obtain ⟨hvalid, hmemo, -⟩ := hnext n
  rw [← hlast] at hvalid hmemo
  refine ⟨computeConv cfg s U b, q cfg.bufsize, computes_of_computeUnit_eq hready (by rw [computeUnit, hbody]), rfl,
    congrArg Body.conv hend, (hinv _).1, hmemo, hvalid, by simp [computeConv], fun i hi => ?_⟩
  obtain ⟨-, hconv, hin⟩ := hnext i
  refine ⟨(q (i + 1)).lastin, ?_, hin⟩
  rw [← hconv, hstep]
  exact hout i hi

end Sys2Proof.Machine
end

section
/-! PROOFS. COMPUTE on a RESAMPLE (45_spatial_convert_resample.md R361, R362). -/

namespace Sys2Proof.Machine

open Sys2Proof.Config (cfg)

theorem State.Inv.resample_wf {C : Cfg} {s : State} {u : Nat} {U : DspUnit} {r : Resample} (hs : State.Inv C s)
    (hU : liveUnit C s u = some U) (hbody : U.body = .resample r) : r.Wf C := by
  have hwf := (hs.liveUnit_wf hU).body
  rwa [hbody] at hwf

/-- The filterless tier has no state (R362). -/
theorem computeResample_of_filterless (C : Cfg) (s : State) (U : DspUnit) {r : Resample} (h : r.mode ≤ 1) :
    computeResample C s U r =
      { U with
        out := (List.range C.bufsize).map (filterless r.dir r.factor (memRead C s U.inp r.lin))
        body := .resample { r with rs := r.rs } } := by
  simp [computeResample, resampleBlock, h]

/-- From mode 2 on output and state are the configuration's (R361). -/
theorem computeResample_of_filter (C : Cfg) (s : State) (U : DspUnit) {r : Resample} (h : 2 ≤ r.mode) :
    computeResample C s U r =
      { U with
        out := (List.range C.bufsize).map
          (C.resampleStep r.dir r.factor r.mode r.rs (memRead C s U.inp r.lin)).1
        body := .resample { r with
          rs := (C.resampleStep r.dir r.factor r.mode r.rs (memRead C s U.inp r.lin)).2 } } := by
  simp [computeResample, resampleBlock, Nat.not_le_of_lt h]

/-- On the way up sample `k` fills the `factor` places from `k * factor` on. -/
theorem filterless_up (C : Cfg) (s : State) (a : Addr) {factor n k m : Nat} (hk : k < n) (hm : m < factor) :
    filterless .up factor (memRead C s a n) (k * factor + m) = elemAt C s a k := by
  have hdiv : (k * factor + m) / factor = k := by
    rw [Nat.mul_comm, Nat.mul_add_div (Nat.zero_lt_of_lt hm), Nat.div_eq_of_lt hm, Nat.add_zero]
  exact (congrArg ((memRead C s a n).getD · f0) hdiv).trans (memRead_getD C s a hk)

/-- On the way down every `factor`-th sample is kept. -/
theorem filterless_down (C : Cfg) (s : State) (a : Addr) {factor n k : Nat} (hk : k * factor < n) :
    filterless .down factor (memRead C s a n) k = elemAt C s a (k * factor) := memRead_getD C s a hk

/-- The lengths of the two blocks: the longer holds `factor` samples for each one of the shorter (R360). -/
theorem Resample.Wf.lin_mul_of_up {C : Cfg} {r : Resample} (h : r.Wf C) (hdir : r.dir = .up) :
    r.lin * r.factor = C.bufsize := by
  rw [h.lin_eq, hdir]
  exact Nat.div_mul_cancel (Nat.dvd_of_mod_eq_zero (h.divides hdir))

theorem Resample.Wf.lin_of_down {C : Cfg} {r : Resample} (h : r.Wf C) (hdir : r.dir = .down) :
    r.lin = C.bufsize * r.factor := by
  rw [h.lin_eq, hdir]
  rfl

/-- Settles O53: every element the filterless tier takes lies in the input block. -/
theorem computeResampleBlock : Obligations.ComputeResampleBlock := by
  unfold Obligations.ComputeResampleBlock
  intro u s U r hs hready hbody
  have hwf := hs.resample_wf hready.1 hbody
  have hcomp : Computes cfg u s U (computeResample cfg s U r) :=
    computes_of_computeUnit_eq hready (by rw [computeUnit, hbody])
  rcases Nat.lt_or_ge r.mode 2 with hmode | hmode
  case inl =>
    rw [computeResample_of_filterless cfg s U (Nat.le_of_lt_succ hmode)] at hcomp
    refine ⟨_, r.rs, hcomp, rfl, rfl, by simp,
      fun _ => ⟨rfl, fun hdir => ⟨hwf.lin_mul_of_up hdir, fun k m hk hm => ?up⟩,
        fun hdir => ⟨hwf.lin_of_down hdir, fun k hk => ?down⟩⟩,
      fun h => absurd hmode h.not_gt⟩
    case up =>
      have hin : k * r.factor + m < cfg.bufsize := by
        calc k * r.factor + m < (k + 1) * r.factor := by rw [Nat.succ_mul]; omega
          _ ≤ r.lin * r.factor := Nat.mul_le_mul_right _ hk
          _ = cfg.bufsize := hwf.lin_mul_of_up hdir
      simp [hin, hdir, filterless_up cfg s U.inp hk hm]
    case down =>
      have hin : k * r.factor < r.lin := by
        rw [hwf.lin_of_down hdir]
        exact Nat.mul_lt_mul_of_pos_right hk hwf.factor_pos
      simp [hk, hdir, filterless_down cfg s U.inp hin]
  case inr =>
    rw [computeResample_of_filter cfg s U hmode] at hcomp
    exact ⟨_, _, hcomp, rfl, rfl, by simp, fun h => absurd hmode (Nat.not_le_of_lt (Nat.lt_succ_of_le h)),
      fun _ => ⟨rfl, fun i hi => by simp [hi]⟩⟩

end Sys2Proof.Machine
end

section
/-! PROOFS. What NEW.PAN, NEW.SWITCH, NEW.SELECTOR, the seven conversions and NEW.RESAMPLE build
(45_spatial_convert_resample.md R331, R332, R340, R345, R346, R350, R360; 40_system.md R141). -/

namespace Sys2Proof.Machine

open Sys2Proof.Config (cfg)

/-- Settles O58: the handles pass their check, and the number of channels is the clamp of R331. -/
theorem newSpatialUnits : Obligations.NewSpatialUnits := by
  unfold Obligations.NewSpatialUnits
  intro u n lin x s hfree
  refine ⟨fun inp hb => ?spread, fun inputs _ hb => ?selector⟩
  case spread =>
    have hbind := bindOk_of_bindable hb
    exact ⟨builds_of_exec_eq_newUnit rfl hfree hbind rfl rfl (by simp),
      builds_of_exec_eq_newUnit rfl hfree hbind rfl rfl (by simp)⟩
  case selector =>
    obtain ⟨hinputs, hstream⟩ := bindable_handles hb
    exact builds_of_exec_eq_newUnit rfl hfree (List.forall_mem_append.2 ⟨hstream, hinputs⟩) rfl rfl (by simp)

/-- A constructor of a conversion: one input, the slots of its function, an empty memo. -/
theorem builds_of_exec_eq_newConvOn {i : Instr} {u : Byte} {inp : Addr} {s : State} {fn : Nat} {slots : List Slot}
    (hi : exec i s = newConvOn cfg fn slots u inp s) (hfree : slotFree cfg s u.toNat = true)
    (hbind : bindOk cfg s u.toNat inp cfg.bufsize = true) (hlen : slots.length ≤ 16) :
    Builds cfg i u.toNat 1 inp slots (.conv { fn := fn, valid := false, lastin := f0, lastout := f0 }) s :=
  builds_of_exec_eq_newUnit hi hfree (List.forall_mem_singleton.2 hbind) rfl rfl hlen

/-- Settles O59: the seven conversions share one constructor; the direction of a RESAMPLE says how long an input it
checks. -/
theorem newConversionsAndResample : Obligations.NewConversionsAndResample := by
  unfold Obligations.NewConversionsAndResample
  intro u inp s hfree memo
  refine ⟨fun hb => ?conversions, fun factor mode => ?resample⟩
  case conversions =>
    have hconv : ∀ {i : Instr} {fn : Nat}, exec i s = newConvOn cfg fn [] u inp s →
        Builds cfg i u.toNat 1 inp [] (memo fn) s :=
      fun hi => builds_of_exec_eq_newConvOn hi hfree hb (Nat.zero_le _)
    exact ⟨hconv rfl, hconv rfl, hconv rfl, hconv rfl,
      fun ck => builds_of_exec_eq_newConvOn rfl hfree hb (by simp), hconv rfl, hconv rfl⟩
  case resample =>
    intro n rs
    exact ⟨fun hdiv hb => builds_of_exec_eq_newUnit rfl hfree (List.forall_mem_singleton.2 hb)
        (decide_eq_true hdiv) rfl (Nat.zero_le _),
      fun hb => builds_of_exec_eq_newUnit rfl hfree (List.forall_mem_singleton.2 hb) rfl rfl (Nat.zero_le _)⟩

end Sys2Proof.Machine
end

section
/-! PROOFS. Refused commands (60_exceptions.md R371, R372, R380): what each check raises where the checks before it
pass, and that a refused packet leaves the state but for LASTERR and FAULTS. -/

namespace Sys2Proof.Machine

open Sys2Proof.Config (cfg)

theorem erred_of_eq_raise {r : Result} {e : Code} {s : State} (h : r = raise e s) :
    ∃ t, r = .next t ∧ s.Erred e t := h ▸ erred_raise e s

/-! ### What a packet leaves in LASTERR and FAULTS (R372) -/

/-- A command is refused, or it ends `OK` in a state with both registers as they were. -/
theorem exec_refused_or_done (i : Instr) (s : State) :
    (∃ e, e ≠ .ok ∧ exec i s = raise e s) ∨
      ∃ v t, exec i s = doneWith v t ∧ t.lasterr = s.lasterr ∧ t.faults = s.faults := by
  have heff := exec_effect i s
  generalize exec i s = r at heff
  cases heff with
  | refused e he => exact .inl ⟨e, he, rfl⟩
  | value v => exact .inr ⟨v, s, rfl, rfl, rfl⟩
  | release | update | build | seeded => exact .inr ⟨0#32, _, rfl, rfl, rfl⟩

/-- A packet that does not decode is refused too. -/
theorem stepPacket_refused_or_done (p : Packet) (s : State) :
    (∃ e, e ≠ .ok ∧ stepPacket p s = raise e s) ∨
      ∃ v t, stepPacket p s = doneWith v t ∧ t.lasterr = s.lasterr ∧ t.faults = s.faults := by
  cases hp : decode p with
  | command i => exact stepPacket_of_command s hp ▸ exec_refused_or_done i s
  | badOp => exact .inl ⟨.badOp, by decide, stepPacket_of_badOp s hp⟩
  | badLen => exact .inl ⟨.badLen, by decide, stepPacket_of_badLen s hp⟩

/-- Settles O8: a packet that is refused raises its code, and one that is done answers `OK`. -/
theorem errorsArePrecise : Obligations.ErrorsArePrecise := by
  unfold Obligations.ErrorsArePrecise
  intro s t p rest code value hin hstep hport
  rw [step_of_packet hin] at hstep
  rcases stepPacket_refused_or_done p { s with input := rest } with ⟨e, he, hr⟩ | ⟨v, t', hr, hlast, hfaults⟩
  case inl =>
    have ht := raise_next.1 (hr.symm.trans hstep)
    subst ht
    cases hport
    exact ⟨fun _ => ⟨rfl, rfl, rfl, rfl⟩, fun hok => absurd hok he⟩
  case inr =>
    rw [hr, doneWith_eq] at hstep
    cases hstep
    cases hport
    exact ⟨fun hne => absurd rfl hne, fun _ => ⟨hlast, hfaults⟩⟩

/-! ### E_BADUNIT -/

theorem withMixer_none {C : Cfg} {u : Byte} {s : State} {k : DspUnit → Mixer → Result}
    (h : liveUnit C s u.toNat = none) : withMixer C u s k = raise .badUnit s := by
  simp only [withMixer, h]

section newUnit
variable {C : Cfg} {u : Byte} {s : State} {hs : List (Addr × Nat)} {U : DspUnit}

theorem newCheck_badUnit (hf : slotFree C s u.toNat = false) (argOk capOk : Bool) :
    newCheck C s u.toNat hs argOk capOk = some .badUnit := by
  simp [newCheck, hf]

theorem newUnit_badUnit {argOk capOk : Bool} (hf : slotFree C s u.toNat = false) :
    newUnit C u hs argOk capOk U s = raise .badUnit s := by
  rw [newUnit, newCheck_badUnit hf]

theorem newFreeverbOn_badUnit {inp : Addr} {size damp mix : XOp} (hf : slotFree C s u.toNat = false) :
    newFreeverbOn C u inp size damp mix s = raise .badUnit s := by
  rw [newFreeverbOn, newCheck_badUnit hf]

/-- The type's own argument check comes after the one of the handles and answers the same code. -/
theorem newUnit_badArg_of_argument {capOk : Bool} (hf : slotFree C s u.toNat = true) :
    newUnit C u hs false capOk U s = raise .badArg s := by
  have hcheck : newCheck C s u.toNat hs false capOk = some .badArg := by simp [newCheck, hf]
  rw [newUnit, hcheck]

theorem newUnit_alloc (hf : slotFree C s u.toNat = true) (hb : ∀ h ∈ hs, bindOk C s u.toNat h.1 h.2 = true) :
    newUnit C u hs true false U s = raise .alloc s := by
  have hcheck : newCheck C s u.toNat hs true false = some .alloc := by
    simp only [newCheck, hf, List.all_eq_true.2 hb]
    rfl
  rw [newUnit, hcheck]

end newUnit

/-- Every command on a unit checks first that it is live. -/
theorem exec_of_not_live {i : Instr} {u : Byte} {s : State} (hi : unitField i = some u) (hn : isNew i = false)
    (hU : liveUnit cfg s u.toNat = none) : exec i s = raise .badUnit s := by
  cases i
  case nop | rdcsr => cases hi
  case del | setc | sets | compute | reset | getout | ack | seti =>
    cases hi
    exact withLive_none hU
  case mixadd | mixdel | mixamp =>
    cases hi
    exact withMixer_none hU
  all_goals cases hn

/-- Every `NEW.*` checks first that its slot is FREE. -/
theorem exec_new_of_not_free {i : Instr} {u : Byte} {s : State} (hi : unitField i = some u) (hn : isNew i = true)
    (hf : slotFree cfg s u.toNat = false) : exec i s = raise .badUnit s := by
  cases i
  case nop | del | setc | sets | compute | reset | getout | rdcsr | ack | mixadd | mixdel | mixamp | seti => cases hn
  case newFreeverb =>
    cases hi
    exact newFreeverbOn_badUnit hf
  all_goals
    cases hi
    exact newUnit_badUnit hf

/-- Settles O11: each command makes this check before any other. -/
theorem badUnitAnswers : Obligations.BadUnitAnswers := by
  unfold Obligations.BadUnitAnswers
  rintro i u s hi (⟨hn, hU⟩ | ⟨hn, hf⟩)
  · exact erred_of_eq_raise (exec_of_not_live hi hn hU)
  · exact erred_of_eq_raise (exec_new_of_not_free hi hn hf)

/-! ### E_BADTYPE and E_BADSLOT -/

section liveUnit
variable {u : Byte} {s : State} {U : DspUnit} (hU : liveUnit cfg s u.toNat = some U)
include hU

theorem withMixer_badType {k : DspUnit → Mixer → Result} (hm : typeCode U.body ≠ 13) :
    withMixer cfg u s k = raise .badType s := by
  cases hb : U.body
  case mixer => exact absurd (by rw [hb]; rfl) hm
  all_goals simp only [withMixer, hU, hb]

theorem exec_reset_of_not_freeverb (hf : typeCode U.body ≠ 9) : exec (.reset u) s = raise .badType s := by
  refine (withLive_some hU).trans ?_
  cases hb : U.body
  case freeverb => exact absurd (by rw [hb]; rfl) hf
  all_goals rfl

theorem exec_setc_badSlot {slot : Byte} {v : Sample}
    (hc : slotClass U.body slot.toNat = none ∨ slotClass U.body slot.toNat = some .integer) :
    exec (.setc u slot v) s = raise .badSlot s :=
  (withLive_some hU).trans (if_neg (by rcases hc with h | h <;> simp [h]))

theorem exec_sets_badSlot {slot : Byte} {h : Addr} (hc : slotClass U.body slot.toNat ≠ some .param) :
    exec (.sets u slot h) s = raise .badSlot s :=
  (withLive_some hU).trans (if_pos hc)

theorem exec_seti_badSlot {slot : Byte} {v : Word} (hc : slotClass U.body slot.toNat ≠ some .integer) :
    exec (.seti u slot v) s = raise .badSlot s :=
  (withLive_some hU).trans (if_neg hc)

end liveUnit

/-- Settles O13: the type and slot checks come right after the one for a live unit. -/
theorem wrongTypeOrSlotAnswers : Obligations.WrongTypeOrSlotAnswers := by
  unfold Obligations.WrongTypeOrSlotAnswers
  intro u s U hU
  refine ⟨fun hf => erred_of_eq_raise (exec_reset_of_not_freeverb hU hf), fun hm key h vout gain => ?mixer,
    fun slot w => ?slot⟩
  case mixer =>
    exact ⟨erred_of_eq_raise (withMixer_badType hU hm), erred_of_eq_raise (withMixer_badType hU hm),
      erred_of_eq_raise (withMixer_badType hU hm)⟩
  case slot =>
    exact ⟨fun hc => erred_of_eq_raise (exec_setc_badSlot hU hc),
      fun hc => erred_of_eq_raise (exec_sets_badSlot hU hc),
      fun hc => erred_of_eq_raise (exec_seti_badSlot hU hc)⟩

/-! ### E_BADARG, E_ALLOC and E_BADKEY -/

theorem hasKey_eq_false {m : Mixer} {key : Word} (h : ∀ e ∈ m.ins, e.key ≠ key) : hasKey m key = false :=
  Bool.eq_false_iff.2 fun hk => by
    obtain ⟨e, he, hkey⟩ := hasKey_iff.1 hk
    exact h e he hkey

theorem exec_sets_badArg {u slot : Byte} {s : State} {U : DspUnit} {h : Addr}
    (hU : liveUnit cfg s u.toNat = some U) (hc : slotClass U.body slot.toNat = some .param)
    (hb : bindOk cfg s u.toNat h cfg.bufsize = false) : exec (.sets u slot h) s = raise .badArg s := by
  refine (withLive_some hU).trans ?_
  rw [if_neg (not_not.2 hc), hb]
  rfl

section mixer
variable {u : Byte} {s : State} {U : DspUnit} {m : Mixer} {key : Word}
  (hU : liveUnit cfg s u.toNat = some U) (hm : U.body = .mixer m)
include hU hm

theorem exec_mixadd_badArg {h : Addr} (hb : bindOk cfg s u.toNat h cfg.bufsize = false) :
    exec (.mixadd u key h) s = raise .badArg s := by
  refine (withMixer_some hU hm).trans ?_
  rw [hb]
  rfl

theorem exec_mixadd_alloc {h : Addr} (hb : bindOk cfg s u.toNat h cfg.bufsize = true)
    (hk : hasKey m key = false) (hfull : cfg.maxmixin ≤ m.ins.length) :
    exec (.mixadd u key h) s = raise .alloc s := by
  refine (withMixer_some hU hm).trans ?_
  rw [hb, hk, decide_eq_true hfull]
  rfl

theorem exec_mixdel_badKey (hk : hasKey m key = false) : exec (.mixdel u key) s = raise .badKey s := by
  refine (withMixer_some hU hm).trans ?_
  rw [hk]
  rfl

theorem exec_mixamp_badArg {vout : Byte} {gain : Sample} (hvout : m.outs ≤ vout.toNat) :
    exec (.mixamp u vout key gain) s = raise .badArg s := by
  refine (withMixer_some hU hm).trans ?_
  rw [decide_eq_false (Nat.not_lt.2 hvout)]
  rfl

theorem exec_mixamp_badKey {vout : Byte} {gain : Sample} (hvout : vout.toNat < m.outs)
    (hk : hasKey m key = false) : exec (.mixamp u vout key gain) s = raise .badKey s := by
  refine (withMixer_some hU hm).trans ?_
  rw [decide_eq_true hvout, hk]
  rfl

end mixer

section constructors
variable {u : Byte} {s : State} {inp : Addr} (hf : slotFree cfg s u.toNat = true)
include hf

theorem exec_newConvolve_of_no_taps : exec (.newConvolve u inp []) s = raise .badArg s :=
  newUnit_badArg_of_argument hf

theorem exec_newConvolve_alloc {taps : List Sample} (hb : bindOk cfg s u.toNat inp cfg.bufsize = true)
    (htaps : cfg.maxtaps < taps.length) : exec (.newConvolve u inp taps) s = raise .alloc s := by
  show newConvolveOn cfg u inp taps s = _
  rw [newConvolveOn, decide_eq_true (Nat.one_le_of_lt htaps), decide_eq_false (Nat.not_le.2 htaps)]
  exact newUnit_alloc hf (List.forall_mem_singleton.2 hb)

theorem exec_newResample_of_not_dvd {factor : BitVec 7} {mode : Byte} (hdiv : cfg.bufsize % max factor.toNat 1 ≠ 0) :
    exec (.newResample u .up factor mode inp) s = raise .badArg s := by
  show newResampleOn cfg u .up factor mode inp s = _
  simp only [newResampleOn, decide_eq_false hdiv]
  exact newUnit_badArg_of_argument hf

end constructors

/-- Settles O14: in each command the check named is the first to fail. -/
theorem unusableOperandsAnswer : Obligations.UnusableOperandsAnswer := by
  unfold Obligations.UnusableOperandsAnswer
  intro u s
  refine ⟨fun U slot h hU hc hb => erred_of_eq_raise (exec_sets_badArg hU hc hb),
    fun U m key h vout gain hU hm => ?mixer, fun hf inp => ?constructor⟩
  case mixer =>
    exact ⟨fun hb => erred_of_eq_raise (exec_mixadd_badArg hU hm hb),
      fun hb hnew hfull => erred_of_eq_raise (exec_mixadd_alloc hU hm hb (hasKey_eq_false hnew) hfull),
      fun hnew => erred_of_eq_raise (exec_mixdel_badKey hU hm (hasKey_eq_false hnew)),
      fun hvout => erred_of_eq_raise (exec_mixamp_badArg hU hm hvout),
      fun hvout hnew => erred_of_eq_raise (exec_mixamp_badKey hU hm hvout (hasKey_eq_false hnew))⟩
  case constructor =>
    exact ⟨fun hb _ => newUnit_badArg hf (List.mem_singleton.2 rfl) hb,
      erred_of_eq_raise (exec_newConvolve_of_no_taps hf),
      fun hb _ htaps => erred_of_eq_raise (exec_newConvolve_alloc hf hb htaps),
      fun _ _ hdiv => erred_of_eq_raise (exec_newResample_of_not_dvd hf hdiv)⟩

end Sys2Proof.Machine
end

section
/-! PROOFS. Reset (70_reset_and_hazards.md R410, R411; 10_state.md R26): what the slots, the control registers and the
interrupt line show in a state whose spec-visible fields are those after reset. -/

namespace Sys2Proof.Machine

section cleared
variable {C : Cfg} {s : State}

/-! ### An empty unit table -/

theorem slotFree_of_units_nil (hunits : s.units = []) {u : Nat} (hu : u < C.nunits) : slotFree C s u = true :=
  slotFree_iff.2 ⟨hu, by simp [liveUnit, hunits]⟩

theorem irqLine_of_units_nil (hunits : s.units = []) : irqLine s = false := by simp [irqLine, hunits]

/-! ### Registers at their reset values -/

theorem seedCount_of_reset (hseed : s.seedcnt = State.reset.seedcnt) (k : Nat) : seedCount s k = 0#32 := by
  rw [seedCount, hseed]
  by_cases hk : k - 1 < 19 <;> simp [State.reset, hk]

/-- CB reads zero while the interrupt line is low. -/
theorem csrValue_cb_of_low (hlow : irqLine s = false) : csrValue C s 7 = some 0#32 := by simp [csrValue, hlow]

theorem csrValue_seedcnt_of_reset (hseed : s.seedcnt = State.reset.seedcnt) {k : Nat} (h1 : 1 ≤ k) (h19 : k ≤ 19) :
    csrValue C s (0x20 + k) = some 0#32 := by
  rw [csrValue_of_eight_lt C s (by omega), if_pos (by omega), seedCount_of_reset hseed]

end cleared

/-! ### The reset input (R410) -/

/-- A step that takes the reset input ends in the hard reset of the state without that move. -/
theorem step_of_reset {s : State} {rest : List HostMove} (h : s.input = .reset :: rest) :
    step s = .next (hardReset { s with input := rest }) := step_of_input h

/-- Either way into the state after reset empties the unit table and clears the seed counters, LASTERR and FAULTS
(R411). -/
theorem fields_after_reset {t : State}
    (h : t = State.reset ∨ ∃ s rest, s.input = .reset :: rest ∧ step s = .next t) :
    t.units = [] ∧ t.seedcnt = State.reset.seedcnt ∧ t.lasterr = 0#32 ∧ t.faults = 0#32 := by
  obtain rfl | ⟨s, rest, hin, hstep⟩ := h
  · exact ⟨reset_units, rfl, reset_lasterr, reset_faults⟩
  · rw [step_of_reset hin] at hstep
    cases hstep
    exact ⟨hardReset_units _, hardReset_seedcnt _, hardReset_lasterr _, hardReset_faults _⟩

/-- Settles O10: the unit table is empty, so each slot is FREE and the line low; each register reads its field or a
constant of the configuration. -/
theorem resetLeavesTheResetState : Obligations.ResetLeavesTheResetState := by
  unfold Obligations.ResetLeavesTheResetState
  intro t ht
  obtain ⟨hunits, hseed, hlasterr, hfaults⟩ := fields_after_reset ht
  have hlow : irqLine t = false := irqLine_of_units_nil hunits
  exact ⟨fun u hu => slotFree_of_units_nil hunits (cfg_nunits ▸ hu), rfl, rfl, rfl, rfl, rfl,
    congrArg some hlasterr, congrArg some hfaults, csrValue_cb_of_low hlow, congrArg some (cbFirst_of_low hlow),
    fun _ => csrValue_seedcnt_of_reset hseed, hlow⟩

end Sys2Proof.Machine
end
